-- ==== Sys2Proof/Word.lean ====
section
/-! DEFINITION. The word types of the block (00_scope.md R7, R8; 20_memory.md R69): nothing here is signed. -/

namespace Sys2Proof

/-- A data byte, a Fifo8, an address byte (00_scope.md R7). -/
abbrev Byte := BitVec 8

/-- A command word or an event word (30_encoding.md R80). -/
abbrev PortWord := BitVec 16

/-- A sniffer frame (20_memory.md R67). -/
abbrev Frame := BitVec 32

/-- A pin identity, PIN_W = 7 bits (00_scope.md R6). -/
abbrev Pin := BitVec 7

/-- A 7-bit device address (00_scope.md R7); no address is special (20_memory.md R60). -/
abbrev Addr := BitVec 7

/-- The level of a line: true is 1, high, released; false is 0, low (00_scope.md R10). -/
abbrev Level := Bool

end Sys2Proof
end

