-- ==== Sys2Proof/Syntax.lean ====
section
/-! DEFINITION. The instructions: one constructor for each row of spec/opcode_table.json (30_encoding.md R83, R85, R86). -/

namespace Sys2Proof

/-- A line operand, 0 = SDA, 1 = SCL (30_encoding.md R83); also the name of a bus wire. -/
inductive Line where
  | sda
  | scl
  deriving DecidableEq, Repr

/-- A direction operand, 0 = in, 1 = out (30_encoding.md R83). -/
inductive Dir where
  | inp
  | out
  deriving DecidableEq, Repr

/-- Commands of the four units, the event word, and the eight handlers the event word selects. -/
inductive Instr where
  /-- F.RESET, 40_fifo_and_address.md R101. -/
  | fReset
  /-- F.SHIFT b, 40_fifo_and_address.md R100. -/
  | fShift (b : Bool)
  /-- F.LOAD v, 40_fifo_and_address.md R102. -/
  | fLoad (v : Byte)
  /-- F.READ, 40_fifo_and_address.md R103. -/
  | fRead
  /-- L.READ l, 41_line_and_edge.md R120. -/
  | lRead (l : Line)
  /-- L.WRITE l, v, 41_line_and_edge.md R121. -/
  | lWrite (l : Line) (v : Level)
  /-- L.SETDIR l, d, 41_line_and_edge.md R122. -/
  | lSetdir (l : Line) (d : Dir)
  /-- L.DELAY n, whole delay units, 41_line_and_edge.md R123. -/
  | lDelay (n : Nat)
  /-- M.START, 42_master.md R152. -/
  | mStart
  /-- M.STOP, 42_master.md R153. -/
  | mStop
  /-- M.WRITE_BIT b, 42_master.md R154. -/
  | mWriteBit (b : Bool)
  /-- M.READ_BIT, 42_master.md R155. -/
  | mReadBit
  /-- M.WRITE_BYTE v, 42_master.md R156. -/
  | mWriteByte (v : Byte)
  /-- M.READ_BYTE z, z = is_last, 42_master.md R157. -/
  | mReadByte (z : Bool)
  /-- M.START_COMM a, r, r = is_read, 42_master.md R158. -/
  | mStartComm (a : Addr) (r : Bool)
  /-- M.SETLEN n, 42_master.md R159. -/
  | mSetlen (n : Nat)
  /-- M.WRITE_BYTES a, 42_master.md R160. -/
  | mWriteBytes (a : Addr)
  /-- M.READ_BYTES a, 42_master.md R161. -/
  | mReadBytes (a : Addr)
  /-- Q.SNAP i, i = registry index, 45_dispatch.md R268. -/
  | qSnap (i : Nat)
  /-- Q.STATUS, 45_dispatch.md R269. -/
  | qStatus
  /-- EV.LINE pin, level, 45_dispatch.md R264. -/
  | evLine (pin : Pin) (level : Level)
  /-- SLV.SDA_FALL, 43_slave.md R193. -/
  | slvSdaFall (pin : Pin)
  /-- SLV.SDA_RISE, 43_slave.md R194. -/
  | slvSdaRise (pin : Pin)
  /-- SLV.SCL_RISE, 43_slave.md R195. -/
  | slvSclRise (pin : Pin)
  /-- SLV.SCL_FALL, 43_slave.md R200. -/
  | slvSclFall (pin : Pin)
  /-- SNF.SDA_FALL, 44_sniffer.md R232. -/
  | snfSdaFall (pin : Pin)
  /-- SNF.SDA_RISE, 44_sniffer.md R233. -/
  | snfSdaRise (pin : Pin)
  /-- SNF.SCL_RISE, 44_sniffer.md R234. -/
  | snfSclRise (pin : Pin)
  /-- SNF.SCL_FALL, 44_sniffer.md R240. -/
  | snfSclFall (pin : Pin)
  deriving DecidableEq, Repr

end Sys2Proof
end

