-- ==== Sys2Proof/WellFormed.lean ====
section
/-! DEFINITION. Which instructions have an encoding: the three counts fit the operand byte (30_encoding.md R83, R84).
Every other operand's type has exactly the values its field admits. -/

namespace Sys2Proof

/-- A count fits the eight bits of `imm` (30_encoding.md R83). -/
def fitsImm (n : Nat) : Bool := decide (n < 256)

/-- The instruction has an encoding (30_encoding.md R83). -/
def Instr.wf : Instr → Bool
  | .lDelay n => fitsImm n
  | .mSetlen n => fitsImm n
  | .qSnap i => fitsImm i
  | .fReset => true
  | .fShift _ => true
  | .fLoad _ => true
  | .fRead => true
  | .lRead _ => true
  | .lWrite _ _ => true
  | .lSetdir _ _ => true
  | .mStart => true
  | .mStop => true
  | .mWriteBit _ => true
  | .mReadBit => true
  | .mWriteByte _ => true
  | .mReadByte _ => true
  | .mStartComm _ _ => true
  | .mWriteBytes _ => true
  | .mReadBytes _ => true
  | .qStatus => true
  | .evLine _ _ => true
  | .slvSdaFall _ => true
  | .slvSdaRise _ => true
  | .slvSclRise _ => true
  | .slvSclFall _ => true
  | .snfSdaFall _ => true
  | .snfSdaRise _ => true
  | .snfSclRise _ => true
  | .snfSclFall _ => true

end Sys2Proof
end

