-- ==== Sys2Proof/Decode.lean ====
section
/-! DEFINITION. The decoder of command words and event words, total, rejecting by name, and after it the encoder
(30_encoding.md R81 to R90). -/

namespace Sys2Proof

/-- Why a word is no instruction of the port it stands on. -/
inductive Reject where
  /-- A `unit:op` that 30_encoding.md R85 marks reserved (R87). -/
  | reservedOp
  /-- A must-be-zero bit of 30_encoding.md R83 is 1 (R87). -/
  | mustBeZero
  /-- Bits 15:8 of an event word are not 0x30 (30_encoding.md R88). -/
  | notAnEvent
  deriving DecidableEq, Repr

/-- Bits 15:8 of a word, `unit : op` (30_encoding.md R81). -/
def unitOp (w : PortWord) : Byte := w.extractLsb' 8 8

/-- Bits 7:0 of a word, `imm` (30_encoding.md R81). -/
def imm (w : PortWord) : Byte := w.extractLsb' 0 8

/-- The line operand in bit 0 (30_encoding.md R83). -/
def lineOf (b : Byte) : Line := if b.getLsbD 0 then .scl else .sda

/-- The direction operand in bit 1 (30_encoding.md R83). -/
def dirOf (b : Byte) : Dir := if b.getLsbD 1 then .out else .inp

/-- `imm[7:1]`: a 7-bit address or a pin (30_encoding.md R82, R84). -/
def high7 (b : Byte) : BitVec 7 := b.extractLsb' 1 7

/-- `i` where the bits of `imm` that must be zero are zero, a rejection otherwise (30_encoding.md R83, R87). -/
def whenZero (b mask : Byte) (i : Instr) : Except Reject Instr :=
  if b &&& mask = 0 then .ok i else .error .mustBeZero

/-- A word on the command port (30_encoding.md R81, R83, R85, R87, R89). -/
def decodeCommand (w : PortWord) : Except Reject Instr :=
  let b := imm w
  match (unitOp w).toNat with
  | 0x00 => whenZero b 0xFF .fReset
  | 0x01 => whenZero b 0xFE (.fShift (b.getLsbD 0))
  | 0x02 => .ok (.fLoad b)
  | 0x03 => whenZero b 0xFF .fRead
  | 0x10 => whenZero b 0xFE (.lRead (lineOf b))
  | 0x11 => whenZero b 0xFC (.lWrite (lineOf b) (b.getLsbD 1))
  | 0x12 => whenZero b 0xFC (.lSetdir (lineOf b) (dirOf b))
  | 0x13 => .ok (.lDelay b.toNat)
  | 0x20 => whenZero b 0xFF .mStart
  | 0x21 => whenZero b 0xFF .mStop
  | 0x22 => whenZero b 0xFE (.mWriteBit (b.getLsbD 0))
  | 0x23 => whenZero b 0xFF .mReadBit
  | 0x24 => .ok (.mWriteByte b)
  | 0x25 => whenZero b 0xFE (.mReadByte (b.getLsbD 0))
  | 0x26 => .ok (.mStartComm (high7 b) (b.getLsbD 0))
  | 0x27 => .ok (.mSetlen b.toNat)
  | 0x28 => whenZero b 0x01 (.mWriteBytes (high7 b))
  | 0x29 => whenZero b 0x01 (.mReadBytes (high7 b))
  | 0x40 => .ok (.qSnap b.toNat)
  | 0x41 => whenZero b 0xFF .qStatus
  | _ => .error .reservedOp

/-- A word on the event port (30_encoding.md R82, R86, R88). Its instruction is always EV.LINE: a handler row is "not
a separate word", the dispatcher and the edge detector choose it (entry 13). -/
def decodeEvent (w : PortWord) : Except Reject Instr :=
  if unitOp w = 0x30 then .ok (.evLine (high7 (imm w)) ((imm w).getLsbD 0)) else .error .notAnEvent

/-- Whether a word is one of the event port: its unit field is 3 (30_encoding.md R81, R82, R89). -/
def isEventUnit (w : PortWord) : Bool := w.extractLsb' 12 4 = 3

/-- A word, on the port its unit field belongs to. -/
def decode (w : PortWord) : Except Reject Instr :=
  if isEventUnit w then decodeEvent w else decodeCommand w

/-- The host's numbering of a table row's bits: one 16-bit word, bit 0 least significant (30_encoding.md R80, R90). -/
def decodeTableWord (nbits w : Nat) : Option Instr :=
  if nbits ≤ 16 then (decode (BitVec.ofNat 16 w)).toOption else none

/-! ### The encoder -/

/-- The line operand's bit (30_encoding.md R83). -/
def Line.bit : Line → Bool
  | .sda => false
  | .scl => true

/-- The direction operand's bit (30_encoding.md R83). -/
def Dir.bit : Dir → Bool
  | .inp => false
  | .out => true

/-- `0000_000b` (30_encoding.md R83). -/
def imm1 (b : Bool) : Byte := (0#7).concat b

/-- `0000_00hl` (30_encoding.md R83). -/
def imm2 (h l : Bool) : Byte := ((0#6).concat h).concat l

/-- Bits 15:8 of an instruction's word (30_encoding.md R85, R86). -/
def Instr.opcode : Instr → Byte
  | .fReset => 0x00
  | .fShift _ => 0x01
  | .fLoad _ => 0x02
  | .fRead => 0x03
  | .lRead _ => 0x10
  | .lWrite _ _ => 0x11
  | .lSetdir _ _ => 0x12
  | .lDelay _ => 0x13
  | .mStart => 0x20
  | .mStop => 0x21
  | .mWriteBit _ => 0x22
  | .mReadBit => 0x23
  | .mWriteByte _ => 0x24
  | .mReadByte _ => 0x25
  | .mStartComm _ _ => 0x26
  | .mSetlen _ => 0x27
  | .mWriteBytes _ => 0x28
  | .mReadBytes _ => 0x29
  | .qSnap _ => 0x40
  | .qStatus => 0x41
  | .evLine _ _ => 0x30
  | .slvSdaFall _ => 0x30
  | .slvSdaRise _ => 0x30
  | .slvSclRise _ => 0x30
  | .slvSclFall _ => 0x30
  | .snfSdaFall _ => 0x30
  | .snfSdaRise _ => 0x30
  | .snfSclRise _ => 0x30
  | .snfSclFall _ => 0x30

/-- Bits 7:0 of an instruction's word (30_encoding.md R82, R83, R84). -/
def Instr.operand : Instr → Byte
  | .fReset => 0
  | .fShift b => imm1 b
  | .fLoad v => v
  | .fRead => 0
  | .lRead l => imm1 l.bit
  | .lWrite l v => imm2 v l.bit
  | .lSetdir l d => imm2 d.bit l.bit
  | .lDelay n => BitVec.ofNat 8 n
  | .mStart => 0
  | .mStop => 0
  | .mWriteBit b => imm1 b
  | .mReadBit => 0
  | .mWriteByte v => v
  | .mReadByte z => imm1 z
  | .mStartComm a r => a.concat r
  | .mSetlen n => BitVec.ofNat 8 n
  | .mWriteBytes a => a.concat false
  | .mReadBytes a => a.concat false
  | .qSnap i => BitVec.ofNat 8 i
  | .qStatus => 0
  | .evLine pin level => pin.concat level
  | .slvSdaFall pin => pin.concat false
  | .slvSdaRise pin => pin.concat true
  | .slvSclRise pin => pin.concat true
  | .slvSclFall pin => pin.concat false
  | .snfSdaFall pin => pin.concat false
  | .snfSdaRise pin => pin.concat true
  | .snfSclRise pin => pin.concat true
  | .snfSclFall pin => pin.concat false

/-- The word of an instruction (30_encoding.md R81, R82). -/
def encode (i : Instr) : PortWord := i.opcode ++ i.operand

/-- The instruction that an instruction's word stands for: itself, and EV.LINE for a handler row, which is not a
separate word (30_encoding.md R86; entry 13). -/
def Instr.ofWord : Instr → Instr
  | .slvSdaFall pin => .evLine pin false
  | .slvSdaRise pin => .evLine pin true
  | .slvSclRise pin => .evLine pin true
  | .slvSclFall pin => .evLine pin false
  | .snfSdaFall pin => .evLine pin false
  | .snfSdaRise pin => .evLine pin true
  | .snfSclRise pin => .evLine pin true
  | .snfSclFall pin => .evLine pin false
  | .fReset => .fReset
  | .fShift b => .fShift b
  | .fLoad v => .fLoad v
  | .fRead => .fRead
  | .lRead l => .lRead l
  | .lWrite l v => .lWrite l v
  | .lSetdir l d => .lSetdir l d
  | .lDelay n => .lDelay n
  | .mStart => .mStart
  | .mStop => .mStop
  | .mWriteBit b => .mWriteBit b
  | .mReadBit => .mReadBit
  | .mWriteByte v => .mWriteByte v
  | .mReadByte z => .mReadByte z
  | .mStartComm a r => .mStartComm a r
  | .mSetlen n => .mSetlen n
  | .mWriteBytes a => .mWriteBytes a
  | .mReadBytes a => .mReadBytes a
  | .qSnap i => .qSnap i
  | .qStatus => .qStatus
  | .evLine pin level => .evLine pin level

end Sys2Proof
end

