-- ==== Sys2Proof/Config.lean ====
section
/-! DEFINITION. What the platform fixes and the free values: the OPEN parameters of 00_scope.md R6, and the values
that a rule leaves open, each an uninterpreted constant (entries 2, 5, 8, 21 of notes/assumptions). -/

namespace Sys2Proof

/-- The kind of a callback invocation (43_slave.md R210). -/
inductive CbKind where
  | start
  | receive
  | request
  | stop
  deriving DecidableEq, Repr

/-- One entry of the callback record (10_state.md R52; 43_slave.md R210). -/
structure CbRec where
  inst  : Nat
  kind  : CbKind
  byte  : Byte
  index : Nat
  deriving DecidableEq, Repr

/-- Attempts per retried master step, MAX_ATTEMPTS = 3 (00_scope.md R6; 42_master.md R163). -/
abbrev Config.maxAttempts : Nat := 3

/-- How many instances the registry holds beyond the two that the reset configuration registers.
DESIGN CHOICE (entry 2): REG_CAP is OPEN (00_scope.md R6), and 95_test_vectors.md section 0 asks REG_CAP >= 2. -/
opaque Config.spareSlots : Nat

/-- REG_CAP (00_scope.md R6), OPEN (entry 2). -/
def Config.regCap : Nat := 2 + Config.spareSlots

/-- SNIFF_TAG (00_scope.md R6; 20_memory.md R67), OPEN (entry 2). -/
opaque Config.sniffTag : Byte

/-- The bit an L.READ returns when it follows an L.SETDIR of its line (41_line_and_edge.md R120, "any bit"),
applied to the count of free values drawn (entry 21). -/
opaque Config.freeBit : Nat → Bool

/-- A scheduling choice that no rule orders (45_dispatch.md R267; 41_line_and_edge.md R137), applied to the count of
free values drawn (entry 5). -/
opaque Config.freeChoice : Nat → Nat

/-- The byte a slave's Request callback returns, `cb(instance, index, record)` (43_slave.md R211), where the slave's
script says nothing (entry 8). -/
opaque Config.callbackByte : Nat → Nat → List CbRec → Byte

end Sys2Proof
end

