-- ==== Sys2Proof/Machine/State.lean ====
section
/-! DEFINITION. The state of the block (10_state.md), as plain data, what the outside presents to it, the reasons a
step can stop, and the state after reset (70_reset_and_hazards.md R321). -/

namespace Sys2Proof.Machine

/-- Protocol state (10_state.md R20). -/
inductive Proto where
  | idle
  | started
  | addressPhase
  | transmitting
  | receiving
  | stopped
  deriving DecidableEq, Repr

/-- Acknowledge phase (10_state.md R21, R22). -/
inductive AckPhase where
  | none
  | awaitingTransmitAck
  | awaitingReceiveAck
  deriving DecidableEq, Repr

/-- Master status (10_state.md R23); `busError` is never produced. -/
inductive Status where
  | ok
  | ackFailed
  | busError
  deriving DecidableEq, Repr

/-- The context of the running code (10_state.md R49; 60_exceptions.md R305). -/
inductive Ctx where
  | foreground
  | interrupt
  deriving DecidableEq, Repr

/-- Fault codes F1 to F9 (60_exceptions.md R282). -/
inductive FaultCode where
  /-- F1 -/
  | registryFull
  /-- F2 -/
  | pinConflict
  /-- F3 -/
  | badAddress
  /-- F4 -/
  | badFrequency
  /-- F5 -/
  | interruptContext
  /-- F6 -/
  | badLength
  /-- F7 -/
  | reservedCommand
  /-- F8 -/
  | unwrittenBuffer
  /-- F9 -/
  | badInstance
  deriving DecidableEq, Repr

/-- The content of the fault register (10_state.md R50). -/
structure FaultRec where
  code : FaultCode
  info : Nat
  deriving DecidableEq, Repr

/-- What a slave's callback does at one invocation (43_slave.md R211, R213; entry 8): it returns a byte, or issues a
command word, or never returns. -/
inductive CbReply where
  | returns (b : Byte)
  | issues (w : PortWord)
  | hangs
  deriving DecidableEq, Repr

/-- A slave (10_state.md R25 to R32), its callback's script and whether that callback never returned (entries 8, 9). -/
structure Slave where
  sdaPin       : Pin
  sclPin       : Pin
  addr         : Addr
  receiveCond  : Byte
  transmitCond : Byte
  proto        : Proto
  ack          : AckPhase
  ackSlot      : Bool
  bitCounter   : BitVec 32
  fifo         : Byte
  sdaLvl       : Level
  sclLvl       : Level
  sdaDrv       : Level
  script       : List CbReply
  stuck        : Bool
  deriving DecidableEq, Repr

/-- A sniffer (10_state.md R33 to R37). -/
structure Sniffer where
  sdaPin    : Pin
  sclPin    : Pin
  proto     : Proto
  ack       : AckPhase
  groupPos  : BitVec 4
  fifo      : Byte
  predicted : Proto
  addr      : Addr
  sdaLvl    : Level
  sclLvl    : Level
  deriving DecidableEq, Repr

/-- A registered engine instance; the constructor is its role (10_state.md R24, R48). -/
inductive Engine where
  | slave (v : Slave)
  | sniffer (n : Sniffer)
  deriving DecidableEq, Repr

/-- The result of a Q.SNAP (45_dispatch.md R268; 10_state.md R56); the constructor is the role. -/
inductive Snap where
  | slave (proto : Proto) (ack : AckPhase) (ackSlot : Bool) (bitCounter : BitVec 32) (fifo : Byte)
      (sdaLvl sclLvl sdaDrv : Level)
  | sniffer (proto : Proto) (ack : AckPhase) (groupPos : BitVec 4) (fifo : Byte) (predicted : Proto) (addr : Addr)
      (sdaLvl sclLvl : Level)
  deriving DecidableEq, Repr

/-- Master configuration (10_state.md R38). -/
structure MasterCfg where
  sdaPin    : Pin
  sclPin    : Pin
  freqHz    : BitVec 32
  delayUnit : BitVec 32
  deriving DecidableEq, Repr

/-- The master engine (10_state.md R38 to R47), with the model's own counts of line actions and of delay units
(42_master.md R164; 70_reset_and_hazards.md R350; entry 24). `cfg = none`: no master is configured (entry 14).
`buf` lists the written bytes of the payload buffer, by rising index; an index not listed is unwritten (R46). -/
structure Master where
  cfg       : Option MasterCfg
  sdaLatch  : Level
  sclLatch  : Level
  sdaDir    : Dir
  sclDir    : Dir
  phase     : Proto
  fifo      : Byte
  lastAck   : Bool
  result    : Byte
  status    : Status
  len       : BitVec 8
  settleSda : Bool
  settleScl : Bool
  buf       : List Host.Cell
  actions   : Nat
  delays    : Nat
  deriving DecidableEq, Repr

/-- A pending line-change notification (60_exceptions.md R296): the pin, its new level, and the instant of the wire
change (entry 6). -/
structure Pending where
  stamp : Nat
  pin   : Pin
  level : Level
  deriving DecidableEq, Repr

/-- The block's parameters REG_CAP, BUF_SIZE and SNIFF_TAG (00_scope.md R6). -/
structure Params where
  regCap   : Nat
  bufSize  : Nat
  sniffTag : Byte
  deriving DecidableEq, Repr

/-- A master descriptor of a configuration (45_dispatch.md R260). -/
structure MasterDesc where
  sdaPin : Pin
  sclPin : Pin
  freqHz : BitVec 32
  deriving DecidableEq, Repr

/-- An instance descriptor of a configuration (45_dispatch.md R260). The address is a number, refused above 127
(R261); the script is what the platform's callback for the slave will do (70_reset_and_hazards.md R325; entry 8). -/
inductive EngineDesc where
  | slave (sdaPin sclPin : Pin) (addr : Nat) (script : List CbReply)
  | sniffer (sdaPin sclPin : Pin)
  deriving DecidableEq, Repr

/-- A configuration (45_dispatch.md R260) with the wiring the platform provides for it (70_reset_and_hazards.md R325). -/
structure Configuration where
  master  : Option MasterDesc
  engines : List EngineDesc
  wiring  : List (Pin × Line)
  deriving DecidableEq, Repr

/-- One action of the external agents (00_scope.md R13; entry 7): their outputs on the two wires, or an event word at
the event port. -/
inductive ExtAct where
  | drive (sda scl : Level)
  | event (w : PortWord)
  deriving DecidableEq, Repr

/-- What the outside presents at the ports between commands: a configuration (70_reset_and_hazards.md R320), a command
word (30_encoding.md R80), a host access of the payload buffer (20_memory.md R62), an action of the external agents. -/
inductive Input where
  | configure (c : Configuration)
  | command (w : PortWord)
  | memWrite (i : Nat) (v : Byte)
  | memRead (i : Nat)
  | external (a : ExtAct)
  deriving DecidableEq, Repr

/-- The outside world as plain data (entries 5, 7, 21, 27, 30). -/
structure Env where
  /-- The AND of the external agents' outputs on SDA (41_line_and_edge.md R130). -/
  extSda   : Level
  /-- The AND of the external agents' outputs on SCL. -/
  extScl   : Level
  /-- What is presented at the ports, next first. -/
  inputs   : List Input
  /-- What the external agents do at the coming line actions inside commands, before each drive and at each delay
  (00_scope.md R13). -/
  yields   : List (List ExtAct)
  /-- Scheduling choices, read before the uninterpreted ones (entry 5). -/
  choices  : List Nat
  /-- Free values drawn so far. -/
  draws    : Nat
  /-- The byte the last host MemRead returned (20_memory.md R62). -/
  hostRead : Option Byte
  deriving DecidableEq, Repr

/-- The state of the block and of what is attached to it (10_state.md). -/
structure State where
  params    : Params
  wiring    : List (Pin × Line)
  m         : Master
  registry  : List Engine
  ctx       : Ctx
  fault     : Option FaultRec
  frames    : List Frame
  callbacks : List CbRec
  snap      : Option Snap
  events    : List Pending
  instant   : Nat
  unsettled : Bool
  env       : Env
  deriving DecidableEq, Repr

/-- Why the block stops. Each is safe: the model goes no further where the hardware goes no further, or where the spec
gives the access no meaning. -/
inductive Fault where
  /-- Raised by step and by every meaning in a state whose fault register is set: "the block takes no further command
  and processes no further event while it is set" (10_state.md R50; 60_exceptions.md R281; entry 11). Safe. -/
  | blockStopped (code : FaultCode) (info : Nat)
  /-- Raised by step where a callback never returned, no event of another instance is left and no external agent acts,
  and by an event arm for such an instance (43_slave.md R213; entry 9). Safe. -/
  | callbackNeverReturned
  /-- Raised by step and by every meaning in a state in which the engines never came to rest after a line action, so
  that the next line action never comes (00_scope.md R13; entry 22). Safe. -/
  | neverSettles
  /-- Raised by the host's MemWrite, and by M.READ_BYTES in a state no run reaches, at a buffer index that does not
  exist (20_memory.md R62; entry 19). Safe. -/
  | noBufferByte (i : Nat)
  deriving DecidableEq, Repr

/-- Why an instruction has no meaning. -/
inductive Refusal where
  /-- Raised by an arm of exec that has no meaning yet. Safe. No arm of this model raises it. -/
  | notModelled (mnemonic : String)
  deriving DecidableEq, Repr

/-- The master of the reset configuration, at the values of 10_state.md R55 (CFG0 of 95_test_vectors.md section 0;
entry 1). -/
def Master.reset : Master where
  cfg       := some ⟨0, 1, 100000, 10⟩
  sdaLatch  := true
  sclLatch  := true
  sdaDir    := .out
  sclDir    := .out
  phase     := .idle
  fifo      := 0
  lastAck   := false
  result    := 0
  status    := .ok
  len       := 0
  settleSda := false
  settleScl := false
  buf       := []
  actions   := 0
  delays    := 0

/-- A slave at the values of 10_state.md R55, on a bus with the given levels. -/
def Slave.reset (sdaPin sclPin : Pin) (addr : Addr) (receiveCond transmitCond : Byte) (sda scl : Level)
    (script : List CbReply) : Slave where
  sdaPin       := sdaPin
  sclPin       := sclPin
  addr         := addr
  receiveCond  := receiveCond
  transmitCond := transmitCond
  proto        := .idle
  ack          := .none
  ackSlot      := false
  bitCounter   := 0
  fifo         := 0
  sdaLvl       := sda
  sclLvl       := scl
  sdaDrv       := true
  script       := script
  stuck        := false

/-- A sniffer at the values of 10_state.md R55, on a bus with the given levels. -/
def Sniffer.reset (sdaPin sclPin : Pin) (sda scl : Level) : Sniffer where
  sdaPin    := sdaPin
  sclPin    := sclPin
  proto     := .idle
  ack       := .none
  groupPos  := 0
  fifo      := 0
  predicted := .idle
  addr      := 0
  sdaLvl    := sda
  sclLvl    := scl

/-- The outside world at reset: nothing pulls a wire, nothing is presented (entries 1, 33). -/
def Env.reset : Env where
  extSda   := true
  extScl   := true
  inputs   := []
  yields   := []
  choices  := []
  draws    := 0
  hostRead := none

/-- The block right after reset (10_state.md R55; 70_reset_and_hazards.md R321, R323), with the configuration CFG0 of
95_test_vectors.md section 0 on an idle bus. DESIGN CHOICE (entry 1): the spec's reset takes the configuration as an
argument; the parameters it leaves OPEN are uninterpreted (entry 2). -/
def State.reset : State where
  params    := ⟨Config.regCap, 256, Config.sniffTag⟩
  wiring    := [(0, .sda), (2, .sda), (4, .sda), (1, .scl), (3, .scl), (5, .scl)]
  m         := Master.reset
  registry  := [.slave (Slave.reset 2 3 0x42 0x84 0x85 true true []), .sniffer (Sniffer.reset 4 5 true true)]
  ctx       := .foreground
  fault     := none
  frames    := []
  callbacks := []
  snap      := none
  events    := []
  instant   := 0
  unsettled := false
  env       := Env.reset

end Sys2Proof.Machine
end

