-- ==== Sys2Proof/Machine/Operands.lean ====
section
/-! DEFINITION. Operand forms: encodings of the enumerations, address bytes, bits in wire order, and the master's
two lines selected by a line operand. -/

namespace Sys2Proof.Machine

/-- 10_state.md R20. -/
def Proto.enc4 : Proto → BitVec 4
  | .idle => 0
  | .started => 1
  | .addressPhase => 2
  | .transmitting => 3
  | .receiving => 4
  | .stopped => 5

/-- 10_state.md R21. -/
def AckPhase.enc3 : AckPhase → BitVec 3
  | .none => 0
  | .awaitingTransmitAck => 1
  | .awaitingReceiveAck => 2

/-- 10_state.md R23. -/
def Status.enc2 : Status → BitVec 2
  | .ok => 0
  | .ackFailed => 1
  | .busError => 2

/-- Role, Slave = 0 and Sniffer = 1 (10_state.md R24). -/
def Engine.role : Engine → BitVec 1
  | .slave _ => 0
  | .sniffer _ => 1

/-- 43_slave.md R210. -/
def callbackCode : CbKind → BitVec 2
  | .start => 0
  | .receive => 1
  | .request => 2
  | .stop => 3

/-- `zext_8` of one bit (10_state.md R43). -/
def zext1 (b : Bool) : Byte := (BitVec.ofBool b).setWidth 8

/-- The byte a master sends to write to `a` (40_fifo_and_address.md R106). -/
def receiveCondOf (a : Addr) : Byte := (a.setWidth 8 <<< 1) ||| 0

/-- The byte a master sends to read from `a` (40_fifo_and_address.md R106). -/
def transmitCondOf (a : Addr) : Byte := (a.setWidth 8 <<< 1) ||| 1

/-- The bits of a byte in wire order, most significant first (20_memory.md R64). -/
def bitsMsbFirst (v : Byte) : List Bool :=
  [v.getLsbD 7, v.getLsbD 6, v.getLsbD 5, v.getLsbD 4, v.getLsbD 3, v.getLsbD 2, v.getLsbD 1, v.getLsbD 0]

/-- The bits of an address in wire order, most significant first (42_master.md R158). -/
def addrBits (a : Addr) : List Bool :=
  [a.getLsbD 6, a.getLsbD 5, a.getLsbD 4, a.getLsbD 3, a.getLsbD 2, a.getLsbD 1, a.getLsbD 0]

/-- `max(1, 1000000 / freq_hz)`, unsigned, truncating (41_line_and_edge.md R125). -/
def delayUnitOf (freqHz : BitVec 32) : BitVec 32 := BitVec.ofNat 32 (max 1 (1000000 / freqHz.toNat))

/-- `latch[l]` (41_line_and_edge.md R121). -/
def Master.latch (m : Master) : Line → Level
  | .sda => m.sdaLatch
  | .scl => m.sclLatch

/-- `latch[l] <- v` (41_line_and_edge.md R121). -/
def Master.setLatch (l : Line) (v : Level) (m : Master) : Master :=
  match l with
  | .sda => { m with sdaLatch := v }
  | .scl => { m with sclLatch := v }

/-- `dir[l]` (41_line_and_edge.md R122). -/
def Master.dir (m : Master) : Line → Dir
  | .sda => m.sdaDir
  | .scl => m.sclDir

/-- `dir[l] <- d` (41_line_and_edge.md R122). -/
def Master.setDir (l : Line) (d : Dir) (m : Master) : Master :=
  match l with
  | .sda => { m with sdaDir := d }
  | .scl => { m with sclDir := d }

/-- The master's pin of a line (10_state.md R38). -/
def MasterCfg.pinOf (c : MasterCfg) : Line → Pin
  | .sda => c.sdaPin
  | .scl => c.sclPin

/-- `MOut(l)` (41_line_and_edge.md R127). -/
def Master.mout (m : Master) (l : Line) : Level :=
  match m.dir l with
  | .out => m.latch l
  | .inp => true

/-- `m.settle[l]` (10_state.md R47). -/
def Master.settleFlag (m : Master) : Line → Bool
  | .sda => m.settleSda
  | .scl => m.settleScl

/-- A slave's stored level of a line (10_state.md R31). -/
def Slave.lvl (v : Slave) : Line → Level
  | .sda => v.sdaLvl
  | .scl => v.sclLvl

/-- The edge detector's write of a slave's stored level (41_line_and_edge.md R136). -/
def Slave.store (l : Line) (level : Level) (v : Slave) : Slave :=
  match l with
  | .sda => { v with sdaLvl := level }
  | .scl => { v with sclLvl := level }

/-- A sniffer's stored level of a line (10_state.md R37). -/
def Sniffer.lvl (n : Sniffer) : Line → Level
  | .sda => n.sdaLvl
  | .scl => n.sclLvl

/-- The edge detector's write of a sniffer's stored level (41_line_and_edge.md R136). -/
def Sniffer.store (l : Line) (level : Level) (n : Sniffer) : Sniffer :=
  match l with
  | .sda => { n with sdaLvl := level }
  | .scl => { n with sclLvl := level }

/-- The pin of an instance on its SDA side (10_state.md R25, R33). -/
def Engine.sdaPin : Engine → Pin
  | .slave v => v.sdaPin
  | .sniffer n => n.sdaPin

/-- The pin of an instance on its SCL side. -/
def Engine.sclPin : Engine → Pin
  | .slave v => v.sclPin
  | .sniffer n => n.sclPin

/-- An instance's stored level of a line. -/
def Engine.lvl : Engine → Line → Level
  | .slave v, l => v.lvl l
  | .sniffer n, l => n.lvl l

/-- The instance's callback never returned (43_slave.md R213). -/
def Engine.isStuck : Engine → Bool
  | .slave v => v.stuck
  | .sniffer _ => false

end Sys2Proof.Machine
end

