-- ==== Sys2Proof/Machine/Flags.lean ====
section
/-! DEFINITION. Result and flag computations: the acknowledge, the status byte, the settle flags, the sniffer frame. -/

namespace Sys2Proof.Machine

/-- The acknowledge is active low (00_scope.md R10; 42_master.md R156). -/
def ackedOf (sample : Level) : Bool := !sample

/-- Bits 7:4 phase, bit 3 zero, bit 2 last_ack, bits 1:0 status (45_dispatch.md R269). -/
def statusByte (m : Master) : Byte := m.phase.enc4 ++ (0#1 ++ (BitVec.ofBool m.lastAck ++ m.status.enc2))

/-- The settle flags at the end of a command: L.SETDIR sets its line's flag, and every other command, an L.SETDIR of
the other line too, clears a flag (41_line_and_edge.md R124; entry 23). `set` is the line of an L.SETDIR. -/
def Master.settleAfter (set : Option Line) (m : Master) : Master :=
  { m with settleSda := decide (set = some .sda), settleScl := decide (set = some .scl) }

/-- `Status` of a payload command: AckFailed if a retried step was never acknowledged (42_master.md R160, R161). -/
def statusOf (ok : Bool) : Status := if ok then .ok else .ackFailed

/-- The phase after the address: the master's direction (42_master.md R158; 00_scope.md R11). -/
def phaseAfterAddress (isRead : Bool) : Proto := if isRead then .receiving else .transmitting

/-- The 32-bit frame, tag : addr : 0 : proto : ack : acked : data (20_memory.md R67; 44_sniffer.md R245). -/
def frameOf (tag : Byte) (addr : Addr) (proto : Proto) (ack : AckPhase) (acked : Bool) (data : Byte) : Frame :=
  tag ++ (addr ++ (0#1 ++ (proto.enc4 ++ (ack.enc3 ++ (BitVec.ofBool acked ++ data)))))

end Sys2Proof.Machine
end

