-- ==== Sys2Proof/Machine/Ops.lean ====
section
/-! DEFINITION. The operations every meaning shares: Fifo8, the payload buffer, the fault register, handler entry and
return, the wires and the propagation of their changes, and the frame of a command. -/

namespace Sys2Proof.Machine

/-! ### Fifo8 -/

/-- `Fifo.shift_in`: the new register, `f[6:0] : b` (40_fifo_and_address.md R100). -/
def Fifo.shiftIn (f : Byte) (b : Bool) : Byte := (f.setWidth 7).concat b

/-- `Fifo.shift_in`: the evicted bit, `f[7]` (40_fifo_and_address.md R100). -/
def Fifo.evicted (f : Byte) : Bool := f.getLsbD 7

/-! ### The payload buffer: written bytes by rising index -/

/-- The form of a buffer: indices strictly rise (10_state.md R46; entry 32). -/
def Memory.wf : List Host.Cell → Bool
  | [] => true
  | [_] => true
  | c :: d :: r => decide (c.1 < d.1) && Memory.wf (d :: r)

/-- The byte at an index, none where nothing was written (20_memory.md R62). -/
def Memory.read : List Host.Cell → Nat → Option Byte
  | [], _ => none
  | c :: r, i => if c.1 = i then some c.2 else Memory.read r i

/-- The buffer after a byte is written (20_memory.md R62). -/
def Memory.write : List Host.Cell → Nat → Byte → List Host.Cell
  | [], i, v => [(i, v)]
  | c :: r, i, v =>
    if i < c.1 then (i, v) :: c :: r else if i = c.1 then (i, v) :: r else c :: Memory.write r i v

/-- `MemRead(i)`: none where the index does not exist or the byte was never written (20_memory.md R62). -/
def State.memRead (s : State) (i : Nat) : Option Byte :=
  if i < s.params.bufSize then Memory.read s.m.buf i else none

/-- `MemWrite(i, v)` at an index that exists (20_memory.md R62). -/
def State.memWrite (i : Nat) (v : Byte) (s : State) : State :=
  if i < s.params.bufSize then { s with m := { s.m with buf := Memory.write s.m.buf i v } } else s

/-! ### The fault register and the two contexts -/

/-- `raise F<n>(info)`: the sticky register takes the code and the info (60_exceptions.md R281). -/
def State.raise (code : FaultCode) (info : Nat) (s : State) : State := { s with fault := some ⟨code, info⟩ }

/-- Handler entry "saves nothing and changes only ctx" (60_exceptions.md R299). -/
def State.enterHandler (s : State) : State := { s with ctx := .interrupt }

/-- Handler return: back to Foreground (60_exceptions.md R299), unless another instance's callback never returned, which
keeps the foreground preempted (43_slave.md R213; entry 9). -/
def State.leaveHandler (s : State) : State :=
  { s with ctx := if s.registry.any Engine.isStuck then .interrupt else .foreground }

/-- The foreground runs: no fault, no handler that never returned, engines that come to rest (10_state.md R49, R50). -/
def State.live (s : State) : Bool := s.fault.isNone && decide (s.ctx = .foreground) && !s.unsettled

/-- A change of the master's registers by a running command. -/
def State.upd (f : Master → Master) (s : State) : State := if s.live then { s with m := f s.m } else s

/-! ### Instances -/

/-- An instance's fields after its step. -/
def State.putEngine (i : Nat) (e : Engine) (s : State) : State := { s with registry := s.registry.set i e }

/-- The position and the pin role of a pin in a registry, from position `k` on (45_dispatch.md R264). -/
def ownerFrom (k : Nat) : List Engine → Pin → Option (Nat × Line)
  | [], _ => none
  | e :: r, p =>
    if e.sdaPin = p then some (k, .sda) else if e.sclPin = p then some (k, .scl) else ownerFrom (k + 1) r p

/-- The instance that owns a pin, and which of its lines the pin is (45_dispatch.md R264; 41_line_and_edge.md R136). -/
def State.owner (s : State) (p : Pin) : Option (Nat × Line) := ownerFrom 0 s.registry p

/-- The owner of a pin is an instance whose callback never returned (43_slave.md R213). -/
def State.ownerStuck (s : State) (p : Pin) : Bool :=
  match s.owner p with
  | none => false
  | some (i, _) => (s.registry[i]?.map Engine.isStuck).getD false

/-! ### Wires -/

/-- The wire a pin is attached to (00_scope.md R6, WIRING). -/
def wireOf (wiring : List (Pin × Line)) (p : Pin) : Option Line := wiring.lookup p

/-- What an instance outputs on a wire: on SDA a slave's `sda_drv`, where its SDA pin is attached to that wire, and 1 on
SCL; a sniffer 1 on both (41_line_and_edge.md R130; 10_state.md R32, R37; entry 15). -/
def Engine.drives (wiring : List (Pin × Line)) (l : Line) : Engine → Level
  | .slave v =>
    match l with
    | .sda => if wireOf wiring v.sdaPin = some .sda then v.sdaDrv else true
    | .scl => true
  | .sniffer _ => true

/-- What the master outputs on a wire: `MOut(l)`, where its pin of that line is attached to that wire
(41_line_and_edge.md R127, R130; entry 15); released where no master is configured (entry 14). -/
def Master.drives (wiring : List (Pin × Line)) (m : Master) (l : Line) : Level :=
  match m.cfg with
  | none => true
  | some c => if wireOf wiring (c.pinOf l) = some l then m.mout l else true

/-- What the external agents output on a wire (41_line_and_edge.md R130). -/
def Env.drives (e : Env) : Line → Level
  | .sda => e.extSda
  | .scl => e.extScl

/-- `Wire(l)`: the AND of the outputs of every attached agent and of the pull-up (41_line_and_edge.md R130). -/
def State.wire (s : State) (l : Line) : Level :=
  s.m.drives s.wiring l && s.env.drives l && s.registry.all (Engine.drives s.wiring l)

/-- The pins of an instance that are attached to a wire. -/
def Engine.pinsOn (wiring : List (Pin × Line)) (l : Line) (e : Engine) : List Pin :=
  [e.sdaPin, e.sclPin].filter fun p => decide (wireOf wiring p = some l)

/-- One notification for every pin of a registered instance on a wire that changed, all of one instant
(41_line_and_edge.md R131; 60_exceptions.md R295; entry 25). -/
def State.notices (s : State) (l : Line) : List Pending :=
  s.registry.flatMap fun e => (e.pinsOn s.wiring l).map fun p => ⟨s.instant, p, s.wire l⟩

/-- Propagation: the wires that changed between two states queue their notifications, and no others do
(41_line_and_edge.md R131). -/
def propagate (old new : State) : State :=
  if old.wire .sda = new.wire .sda ∧ old.wire .scl = new.wire .scl then new
  else
    { new with
      events := new.events
        ++ ((if old.wire .sda = new.wire .sda then [] else new.notices .sda)
        ++ (if old.wire .scl = new.wire .scl then [] else new.notices .scl))
      instant := new.instant + 1 }

/-! ### The frame of a command -/

/-- The end of a command that still runs: its settle flags (41_line_and_edge.md R124; entry 23). -/
def State.finish (set : Option Line) (s : State) : State := s.upd (Master.settleAfter set)

/-- A command word on the command port. A stopped block takes none (10_state.md R50); in interrupt context it raises F5
with the word (60_exceptions.md R286), before anything else (R291); otherwise its body runs, and its end sets the settle
flags. -/
def runWord (w : PortWord) (set : Option Line) (body : State → State) (s : State) : Host.Outcome State Fault Refusal :=
  match s.fault with
  | some f => .fault (.blockStopped f.code f.info)
  | none =>
    if s.unsettled then .fault .neverSettles
    else if s.ctx = .interrupt then .next (s.raise .interruptContext w.toNat)
    else .next ((body s).finish set)

/-- A command: what its word does on the command port. A command that uses the master's registers uses them in a block
without a configured master too: DESIGN CHOICE (entry 14). -/
def runCommand (i : Instr) (set : Option Line) (body : State → State) (s : State) : Host.Outcome State Fault Refusal :=
  runWord (encode i) set body s

end Sys2Proof.Machine
end

