-- ==== Sys2Proof/Machine/Configure.lean ====
section
/-! DEFINITION. Configuration and reset (45_dispatch.md R260 to R263; 70_reset_and_hazards.md R320, R321), and the host's
accesses of the payload buffer (20_memory.md R62, R63). -/

namespace Sys2Proof.Machine

/-- The pins a configuration names, in order (45_dispatch.md R261). -/
def Configuration.pins (c : Configuration) : List Pin :=
  (match c.master with
    | none => []
    | some d => [d.sdaPin, d.sclPin])
  ++ c.engines.flatMap fun
    | .slave a b _ _ => [a, b]
    | .sniffer a b => [a, b]

/-- The first pin that was named before (60_exceptions.md R282, F2's info). -/
def repeatedPin (seen : List Pin) : List Pin → Option Pin
  | [] => none
  | p :: r => if p ∈ seen then some p else repeatedPin (p :: seen) r

/-- The address of a slave descriptor that is above 127 (45_dispatch.md R261). -/
def EngineDesc.badAddress : EngineDesc → Option Nat
  | .slave _ _ addr _ => if 127 < addr then some addr else none
  | .sniffer _ _ => none

/-- The configuration checks in their order: the first that fails (45_dispatch.md R261; 60_exceptions.md R282). Where
several pins repeat, or several addresses are above 127, the info is the first in the order of the descriptors: DESIGN
CHOICE (entry 34). -/
def Configuration.check (p : Params) (c : Configuration) : Option FaultRec :=
  if p.regCap < c.engines.length then some ⟨.registryFull, c.engines.length⟩
  else
    match repeatedPin [] c.pins with
    | some pin => some ⟨.pinConflict, pin.toNat⟩
    | none =>
      match c.engines.findSome? EngineDesc.badAddress with
      | some addr => some ⟨.badAddress, addr⟩
      | none => if (c.master.map MasterDesc.freqHz) = some 0 then some ⟨.badFrequency, 0⟩ else none

/-- The level of the wire a pin is attached to once the block's outputs are released, 1 where it is attached to none
(70_reset_and_hazards.md R321; entries 16, 17). -/
def levelAtReset (wiring : List (Pin × Line)) (e : Env) (p : Pin) : Level :=
  match wireOf wiring p with
  | some l => e.drives l
  | none => true

/-- An instance at reset, with its derived constants (45_dispatch.md R263). -/
def EngineDesc.build (wiring : List (Pin × Line)) (env : Env) : EngineDesc → Engine
  | .slave a b addr script =>
    .slave (Slave.reset a b (BitVec.ofNat 7 addr) (receiveCondOf (BitVec.ofNat 7 addr))
      (transmitCondOf (BitVec.ofNat 7 addr)) (levelAtReset wiring env a) (levelAtReset wiring env b) script)
  | .sniffer a b => .sniffer (Sniffer.reset a b (levelAtReset wiring env a) (levelAtReset wiring env b))

/-- The master's configuration, with its delay unit (45_dispatch.md R263; 41_line_and_edge.md R125). -/
def MasterDesc.build (d : MasterDesc) : MasterCfg := ⟨d.sdaPin, d.sclPin, d.freqHz, delayUnitOf d.freqHz⟩

/-- The block with no engine and every block-level field at its reset value (10_state.md R55; entry 28). -/
def State.blank (s : State) : State :=
  { State.reset with
    params := s.params
    wiring := []
    m := { Master.reset with cfg := none }
    registry := []
    env := { s.env with hostRead := none } }

/-- A configuration: refused as a whole with its fault (45_dispatch.md R261; entry 18), or the reset of every field
(70_reset_and_hazards.md R321). It is the only way to leave a fault (R320). -/
def configure (c : Configuration) (s : State) : State :=
  match c.check s.params with
  | some f => s.blank.raise f.code f.info
  | none =>
    { s.blank with
      wiring := c.wiring
      m := { Master.reset with cfg := c.master.map MasterDesc.build }
      registry := c.engines.map (EngineDesc.build c.wiring s.env) }

/-- The host's MemWrite between commands (20_memory.md R62, R63); an index that does not exist stops (entry 19). -/
def hostWrite (i : Nat) (v : Byte) (s : State) : Host.Outcome State Fault Refusal :=
  if i < s.params.bufSize then .next (s.memWrite i v) else .fault (.noBufferByte i)

/-- The host's MemRead between commands: F8 where the byte holds no value (20_memory.md R62; entry 30). -/
def hostReadByte (i : Nat) (s : State) : Host.Outcome State Fault Refusal :=
  match s.memRead i with
  | none => .next (s.raise .unwrittenBuffer i)
  | some b => .next { s with env := { s.env with hostRead := some b } }

end Sys2Proof.Machine
end

