-- ==== Sys2Proof/Machine/SlaveEngine.lean ====
section
/-! DEFINITION. The four handlers of a slave (43_slave.md), as functions of its fields. A handler that invokes its
callback stops at the invocation: it answers the fields so far and the call, and `afterCallback` goes on from there
with the byte the callback returned (R210). -/

namespace Sys2Proof.Machine

/-- `Callback(kind, byte, index)` (43_slave.md R210). -/
structure Call where
  kind  : CbKind
  byte  : Byte
  index : Nat
  deriving DecidableEq, Repr

/-- `Match(s, byte)` (40_fifo_and_address.md R108); none is NoMatch. -/
def Slave.matchAddr (v : Slave) (byte : Byte) : Option Proto :=
  if byte = v.transmitCond then some .transmitting else if byte = v.receiveCond then some .receiving else none

/-- What start and stop leave, in the given protocol state (43_slave.md R193, R194). -/
def Slave.clear (p : Proto) (v : Slave) : Slave :=
  { v with proto := p, ack := .none, ackSlot := false, bitCounter := 0, fifo := 0, sdaDrv := true }

/-- SLV.SDA_FALL (43_slave.md R192, R193). -/
def slaveSdaFall (v : Slave) : Slave × Option Call :=
  if v.sclLvl then (v.clear .started, some ⟨.start, 0, 0⟩) else (v, none)

/-- The index of a Stop callback: whole bytes counted in Transmitting or Receiving (43_slave.md R194). -/
def Slave.stopIndex (v : Slave) : Nat :=
  if v.proto = .transmitting ∨ v.proto = .receiving then (v.bitCounter / 8).toNat else 0

/-- SLV.SDA_RISE (43_slave.md R192, R194). -/
def slaveSdaRise (v : Slave) : Slave × Option Call :=
  if v.sclLvl then (v.clear .idle, some ⟨.stop, v.fifo, v.stopIndex⟩) else (v, none)

/-- Transmit acknowledge sample (43_slave.md R196). -/
def Slave.sampleMasterAck (v : Slave) : Slave :=
  { v with bitCounter := if v.sdaLvl then v.bitCounter - 8 else v.bitCounter, ack := .none }

/-- Receive data bit, up to the Receive callback (43_slave.md R197). -/
def Slave.receiveBit (v : Slave) : Slave × Option Call :=
  let v' := { v with fifo := Fifo.shiftIn v.fifo v.sdaLvl, bitCounter := v.bitCounter + 1 }
  if v'.bitCounter % 8 = 0 then (v', some ⟨.receive, v'.fifo, (v'.bitCounter / 8).toNat⟩) else (v', none)

/-- The slave after its eighth address bit (43_slave.md R198). -/
def Slave.addressDone (v : Slave) : Slave :=
  match v.matchAddr v.fifo with
  | none => { v with bitCounter := 0, fifo := 0, proto := .idle }
  | some p => { v with bitCounter := 0, fifo := 0, proto := p, ack := .awaitingReceiveAck }

/-- Address bit (43_slave.md R198). -/
def Slave.addressBit (v : Slave) : Slave :=
  let v' := { v with fifo := Fifo.shiftIn v.fifo v.sdaLvl, bitCounter := v.bitCounter + 1 }
  if v'.bitCounter = 8 then v'.addressDone else v'

/-- SLV.SCL_RISE (43_slave.md R195, R199). -/
def slaveSclRise (v : Slave) : Slave × Option Call :=
  match v.proto with
  | .started => (v.addressBit, none)
  | .receiving => if v.ackSlot = false ∧ v.ack = .none then v.receiveBit else (v, none)
  | .transmitting =>
    if v.ack = .awaitingTransmitAck ∧ v.ackSlot = true then (v.sampleMasterAck, none) else (v, none)
  | .idle => (v, none)
  | .addressPhase => (v, none)
  | .stopped => (v, none)

/-- Drive an acknowledge (43_slave.md R201, R202(a)). -/
def Slave.driveAck (v : Slave) : Slave := { v with sdaDrv := false, ack := .none, ackSlot := true }

/-- Release an acknowledge (43_slave.md R204). -/
def Slave.releaseAck (v : Slave) : Slave := { v with sdaDrv := true, ackSlot := false }

/-- Release SDA for the master's acknowledge (43_slave.md R202(b)). -/
def Slave.releaseForMaster (v : Slave) : Slave := { v with sdaDrv := true, ackSlot := true }

/-- Drive the next bit out of the register (43_slave.md R203, from the shift on). -/
def Slave.driveBit (v : Slave) : Slave :=
  let n := v.bitCounter + 1
  { v with
    fifo := Fifo.shiftIn v.fifo false
    sdaDrv := Fifo.evicted v.fifo
    bitCounter := n
    ack := if n % 8 = 0 then .awaitingTransmitAck else v.ack }

/-- Transmit data phase, up to the Request callback on a byte boundary (43_slave.md R203). -/
def Slave.transmitPhase (v : Slave) : Slave × Option Call :=
  let v' := { v with ackSlot := false }
  if v.bitCounter % 8 = 0 then (v', some ⟨.request, v.fifo, (v.bitCounter / 8).toNat + 1⟩) else (v'.driveBit, none)

/-- SLV.SCL_FALL (43_slave.md R200). -/
def slaveSclFall (v : Slave) : Slave × Option Call :=
  match v.proto with
  | .receiving =>
    if v.ack = .awaitingReceiveAck then (v.driveAck, none)
    else if v.ack = .none ∧ v.ackSlot = true then (v.releaseAck, none)
    else (v, none)
  | .transmitting =>
    match v.ack with
    | .awaitingReceiveAck => (v.driveAck, none)
    | .awaitingTransmitAck => if v.ackSlot then (v, none) else (v.releaseForMaster, none)
    | .none => v.transmitPhase
  | .idle => (v, none)
  | .started => (v, none)
  | .addressPhase => (v, none)
  | .stopped => (v, none)

/-- The rest of the handler after its callback returned a byte: nothing after Start and Stop (43_slave.md R193, R194,
R212), the acknowledge armed after Receive (R197, R212), the byte loaded and its first bit driven after Request
(R203, R211). -/
def afterCallback (k : CbKind) (byte : Byte) (v : Slave) : Slave :=
  match k with
  | .start => v
  | .stop => v
  | .receive => { v with ack := .awaitingReceiveAck }
  | .request => { v with fifo := byte }.driveBit

end Sys2Proof.Machine
end

