-- ==== Sys2Proof/Machine/SnifferEngine.lean ====
section
/-! DEFINITION. The four handlers of a sniffer (44_sniffer.md), as functions of the tag and of its fields, with the
frame they emit. -/

namespace Sys2Proof.Machine

/-- What start and stop leave, in the given protocol state (44_sniffer.md R232, R233). -/
def Sniffer.clear (p : Proto) (n : Sniffer) : Sniffer :=
  { n with proto := p, ack := .none, groupPos := 0, fifo := 0, predicted := .idle, addr := 0 }

/-- SNF.SDA_FALL (44_sniffer.md R232). -/
def snifferSdaFall (_tag : Byte) (n : Sniffer) : Sniffer × Option Frame :=
  if n.sclLvl then (n.clear .started, none) else (n, none)

/-- SNF.SDA_RISE (44_sniffer.md R233). -/
def snifferSdaRise (_tag : Byte) (n : Sniffer) : Sniffer × Option Frame :=
  if n.sclLvl then (n.clear .idle, none) else (n, none)

/-- Classify, at the eighth bit of a group (44_sniffer.md R236). -/
def Sniffer.classify (n : Sniffer) : Sniffer :=
  match n.proto with
  | .started =>
    { n with
      addr := n.fifo.extractLsb' 1 7
      predicted := if n.fifo.getLsbD 0 then .transmitting else .receiving
      ack := .awaitingReceiveAck }
  | .receiving => { n with ack := .awaitingReceiveAck }
  | _ => { n with ack := .awaitingTransmitAck }

/-- Group bit (44_sniffer.md R235). -/
def Sniffer.groupBit (n : Sniffer) : Sniffer :=
  let n' := { n with fifo := Fifo.shiftIn n.fifo n.sdaLvl, groupPos := n.groupPos + 1 }
  if n'.groupPos = 8 then n'.classify else n'

/-- Acknowledge bit and record (44_sniffer.md R237). -/
def Sniffer.record (tag : Byte) (n : Sniffer) : Sniffer × Option Frame :=
  ({ n with proto := if n.proto = .started then n.predicted else n.proto, ack := .none, groupPos := 0 },
    some (frameOf tag n.addr n.proto n.ack (ackedOf n.sdaLvl) n.fifo))

/-- A clock in a transaction, by the position in the group (44_sniffer.md R234); positions 9 to 15 are never reached
(10_state.md R36) and do nothing (entry 20). -/
def Sniffer.clock (tag : Byte) (n : Sniffer) : Sniffer × Option Frame :=
  if n.groupPos < 8 then (n.groupBit, none) else if n.groupPos = 8 then n.record tag else (n, none)

/-- SNF.SCL_RISE (44_sniffer.md R234). -/
def snifferSclRise (tag : Byte) (n : Sniffer) : Sniffer × Option Frame :=
  match n.proto with
  | .started => n.clock tag
  | .transmitting => n.clock tag
  | .receiving => n.clock tag
  | .idle => (n, none)
  | .addressPhase => (n, none)
  | .stopped => (n, none)

/-- SNF.SCL_FALL: nothing beyond the level update (44_sniffer.md R240). -/
def snifferSclFall (_tag : Byte) (n : Sniffer) : Sniffer × Option Frame := (n, none)

end Sys2Proof.Machine
end

