-- ==== Sys2Proof/Machine/Events.lean ====
section
/-! DEFINITION. Events: callbacks, the atomic event step, and the processing of every pending event before the next
line action (00_scope.md R13; 41_line_and_edge.md R136; 45_dispatch.md R264). -/

namespace Sys2Proof.Machine

/-- The direction of a level change (41_line_and_edge.md R135). -/
inductive Edge where
  | fall
  | rise
  deriving DecidableEq, Repr

/-- The level an edge brings. -/
def Edge.level : Edge → Level
  | .fall => false
  | .rise => true

/-- The edge a new level makes (41_line_and_edge.md R136). -/
def edgeOf (level : Level) : Edge := if level then .rise else .fall

/-- The slave handler of a line and an edge (30_encoding.md R86). -/
def slaveHandler : Line → Edge → Slave → Slave × Option Call
  | .sda, .fall => slaveSdaFall
  | .sda, .rise => slaveSdaRise
  | .scl, .rise => slaveSclRise
  | .scl, .fall => slaveSclFall

/-- The sniffer handler of a line and an edge (30_encoding.md R86). -/
def snifferHandler : Line → Edge → Byte → Sniffer → Sniffer × Option Frame
  | .sda, .fall => snifferSdaFall
  | .sda, .rise => snifferSdaRise
  | .scl, .rise => snifferSclRise
  | .scl, .fall => snifferSclFall

/-- An invocation appends to the callback record (43_slave.md R210). -/
def State.recordCall (i : Nat) (c : Call) (s : State) : State :=
  { s with callbacks := s.callbacks ++ [⟨i, c.kind, c.byte, c.index⟩] }

/-- A frame is appended to the frame record (44_sniffer.md R245). -/
def State.emit (f : Option Frame) (s : State) : State := { s with frames := s.frames ++ f.toList }

/-- The invocation of a slave's callback and the rest of its handler (43_slave.md R210 to R213; entries 8, 9, 10). The
callback does what the slave's script says next, and returns an uninterpreted byte where the script is empty: a function
of the instance, the index and the record, which already holds this invocation (R211 does not say whether it does: DESIGN
CHOICE, entry 8). A command it issues raises F5 with the word, whatever the word is (60_exceptions.md R286, R291). -/
def invoke (i : Nat) (v : Slave) (c : Call) (s : State) : State :=
  match v.script with
  | [] => ((s.recordCall i c).putEngine i
      (.slave (afterCallback c.kind (Config.callbackByte i c.index (s.recordCall i c).callbacks) v))).leaveHandler
  | .returns b :: r => ((s.recordCall i c).putEngine i (.slave (afterCallback c.kind b { v with script := r }))).leaveHandler
  | .issues w :: r => ((s.recordCall i c).putEngine i (.slave { v with script := r })).raise .interruptContext w.toNat
  | .hangs :: r => (s.recordCall i c).putEngine i (.slave { v with script := r, stuck := true })

/-- The atomic step of slave `i` with its new level stored: the handler, its callback, and the propagation of a change
of its output (41_line_and_edge.md R136; 43_slave.md R190). -/
def runSlave (h : Slave → Slave × Option Call) (i : Nat) (v : Slave) (s : State) : State :=
  match h v with
  | (v', none) => propagate s (s.enterHandler.putEngine i (.slave v')).leaveHandler
  | (v', some c) => propagate s (invoke i v' c s.enterHandler)

/-- The atomic step of sniffer `i` with its new level stored (44_sniffer.md R231). -/
def runSniffer (h : Byte → Sniffer → Sniffer × Option Frame) (i : Nat) (n : Sniffer) (s : State) : State :=
  let r := h s.params.sniffTag n
  ((s.enterHandler.putEngine i (.sniffer r.1)).emit r.2).leaveHandler

/-- The instance an event makes run a handler: the owner of the pin (45_dispatch.md R264), where the level differs from
its stored level, which makes an edge (41_line_and_edge.md R136), and its callback is not stuck (43_slave.md R213). -/
def State.selected (s : State) (pin : Pin) (level : Level) : Option (Nat × Engine × Line) :=
  match s.owner pin with
  | none => none
  | some (i, l) =>
    match s.registry[i]? with
    | none => none
    | some e => if e.isStuck || decide (e.lvl l = level) then none else some (i, e, l)

/-- The atomic step of an event (41_line_and_edge.md R136; 45_dispatch.md R264). An event of a pin no instance owns is
dropped (R265), and one that brings the stored level changes nothing (R136). -/
def event (pin : Pin) (level : Level) (s : State) : State :=
  match s.selected pin level with
  | none => s
  | some (i, .slave v, l) => runSlave (slaveHandler l (edgeOf level)) i (v.store l level) s
  | some (i, .sniffer n, l) => runSniffer (snifferHandler l (edgeOf level)) i (n.store l level) s

/-! ### Which event next -/

/-- A pending event may be the next: its instance is not stuck and has no earlier one pending (00_scope.md R13), where
events of one instant have no order (41_line_and_edge.md R137). -/
def State.eligible (s : State) (e : Pending) : Bool :=
  !s.ownerStuck e.pin &&
    s.events.all fun e' => decide ((s.owner e'.pin).map Prod.fst = (s.owner e.pin).map Prod.fst → e.stamp ≤ e'.stamp)

/-- A choice among `n` alternatives that no rule orders (45_dispatch.md R267; entry 5): none to make among at most one,
else the next scheduling choice given, else an uninterpreted one. -/
def State.choose (n : Nat) (s : State) : Nat × State :=
  if n ≤ 1 then (0, s)
  else
    match s.env.choices with
    | c :: r => (c % n, { s with env := { s.env with choices := r } })
    | [] => (Config.freeChoice s.env.draws % n, { s with env := { s.env with draws := s.env.draws + 1 } })

/-- The next event and the state without it, none where no pending event may be next. -/
def State.takeEvent (s : State) : Option (Pending × State) :=
  let es := s.events.filter s.eligible
  let c := s.choose es.length
  match es[c.1]? with
  | none => none
  | some e => some (e, { c.2 with events := s.events.erase e })

/-- A bound on the events that follow from those pending when no SCL pin is on a wire that slaves drive (entry 22):
each pending event may change one output, and each change of an output notifies at most two pins of every instance. -/
def State.settleBound (s : State) : Nat :=
  (4 * s.registry.length + 1) * s.events.length + 2 * s.registry.length * s.registry.length

/-- At most `n` event steps, until none is left or the block stops. -/
def settleLoop : Nat → State → State
  | 0, s => if s.takeEvent.isSome && s.fault.isNone then { s with unsettled := true } else s
  | n + 1, s =>
    if s.fault.isSome then s
    else
      match s.takeEvent with
      | none => s
      | some (e, s') => settleLoop n (event e.pin e.level s')

/-- Every engine processes the events of the action just done (00_scope.md R13, assumption A1). Where they do not come
to rest within the bound, the next action never comes (entry 22). -/
def settle (s : State) : State := settleLoop s.settleBound s

/-! ### External agents -/

/-- One action of the external agents (00_scope.md R13; entry 7): new outputs, whose changes are simultaneous
(41_line_and_edge.md R137), or an event word at the event port, a reserved one being ignored (30_encoding.md R88). -/
def external (a : ExtAct) (s : State) : State :=
  match a with
  | .drive x y => propagate s { s with env := { s.env with extSda := x, extScl := y } }
  | .event w =>
    match decodeEvent w with
    | .ok (.evLine pin level) =>
      { s with events := s.events ++ [⟨s.instant, pin, level⟩], instant := s.instant + 1 }
    | _ => s

/-- External actions at a scheduling point, every event of each processed before the next (00_scope.md R13). -/
def runExternal : List ExtAct → State → State
  | [], s => s
  | a :: r, s => runExternal r (if s.live then settle (external a s) else s)

end Sys2Proof.Machine
end

