-- ==== Sys2Proof/Machine/EventUnit.lean ====
section
/-! DEFINITION. The event word and the eight handler rows it selects (30_encoding.md R86; 45_dispatch.md R264). A handler
row is not a separate word: its meaning is its handler where the row's selector holds, and where it does not, what the
event word does then (entry 13). -/

namespace Sys2Proof.Machine

/-- An event step taken by a block that runs (10_state.md R50): a stopped one processes no event. -/
def runEvent (step : State → State) (s : State) : Host.Outcome State Fault Refusal :=
  match s.fault with
  | some f => .fault (.blockStopped f.code f.info)
  | none => if s.unsettled then .fault .neverSettles else .next (step s)

/-- EV.LINE pin, level (45_dispatch.md R264, R265; 41_line_and_edge.md R136). An instance whose callback never returned
processes no further event (43_slave.md R213). -/
def eventWord (pin : Pin) (level : Level) (s : State) : Host.Outcome State Fault Refusal :=
  if s.fault.isNone && !s.unsettled && s.ownerStuck pin then .fault .callbackNeverReturned
  else runEvent (event pin level) s

/-- A slave's handler row: the selector (30_encoding.md R86) is that a slave owns the pin as the row's line and stores
the level the row's edge starts from. -/
def slaveRow (line : Line) (edge : Edge) (h : Slave → Slave × Option Call) (pin : Pin) (s : State) :
    Host.Outcome State Fault Refusal :=
  match s.selected pin edge.level with
  | some (i, .slave v, l) =>
    if l = line then runEvent (runSlave h i (v.store l edge.level)) s else eventWord pin edge.level s
  | _ => eventWord pin edge.level s

/-- A sniffer's handler row, as `slaveRow`. -/
def snifferRow (line : Line) (edge : Edge) (h : Byte → Sniffer → Sniffer × Option Frame) (pin : Pin) (s : State) :
    Host.Outcome State Fault Refusal :=
  match s.selected pin edge.level with
  | some (i, .sniffer n, l) =>
    if l = line then runEvent (runSniffer h i (n.store l edge.level)) s else eventWord pin edge.level s
  | _ => eventWord pin edge.level s

/-- EV.LINE (45_dispatch.md R264). -/
def execEvLine (pin : Pin) (level : Level) (s : State) : Host.Outcome State Fault Refusal := eventWord pin level s

/-- SLV.SDA_FALL (43_slave.md R193). -/
def execSlvSdaFall (pin : Pin) (s : State) : Host.Outcome State Fault Refusal := slaveRow .sda .fall slaveSdaFall pin s

/-- SLV.SDA_RISE (43_slave.md R194). -/
def execSlvSdaRise (pin : Pin) (s : State) : Host.Outcome State Fault Refusal := slaveRow .sda .rise slaveSdaRise pin s

/-- SLV.SCL_RISE (43_slave.md R195). -/
def execSlvSclRise (pin : Pin) (s : State) : Host.Outcome State Fault Refusal := slaveRow .scl .rise slaveSclRise pin s

/-- SLV.SCL_FALL (43_slave.md R200). -/
def execSlvSclFall (pin : Pin) (s : State) : Host.Outcome State Fault Refusal := slaveRow .scl .fall slaveSclFall pin s

/-- SNF.SDA_FALL (44_sniffer.md R232). -/
def execSnfSdaFall (pin : Pin) (s : State) : Host.Outcome State Fault Refusal :=
  snifferRow .sda .fall snifferSdaFall pin s

/-- SNF.SDA_RISE (44_sniffer.md R233). -/
def execSnfSdaRise (pin : Pin) (s : State) : Host.Outcome State Fault Refusal :=
  snifferRow .sda .rise snifferSdaRise pin s

/-- SNF.SCL_RISE (44_sniffer.md R234). -/
def execSnfSclRise (pin : Pin) (s : State) : Host.Outcome State Fault Refusal :=
  snifferRow .scl .rise snifferSclRise pin s

/-- SNF.SCL_FALL (44_sniffer.md R240). -/
def execSnfSclFall (pin : Pin) (s : State) : Host.Outcome State Fault Refusal :=
  snifferRow .scl .fall snifferSclFall pin s

/-- The row an event word runs (30_encoding.md R86): the handler of the selected instance, pin role and edge, or the
event word itself where no handler is selected. -/
def handlerOf (s : State) (pin : Pin) (level : Level) : Instr :=
  match s.selected pin level with
  | none => .evLine pin level
  | some (_, .slave _, .sda) => if level then .slvSdaRise pin else .slvSdaFall pin
  | some (_, .slave _, .scl) => if level then .slvSclRise pin else .slvSclFall pin
  | some (_, .sniffer _, .sda) => if level then .snfSdaRise pin else .snfSdaFall pin
  | some (_, .sniffer _, .scl) => if level then .snfSclRise pin else .snfSclFall pin

end Sys2Proof.Machine
end

