-- ==== Sys2Proof/Machine/LineActions.lean ====
section
/-! DEFINITION. The master's line actions and the sequences built from them (42_master.md R150 to R161). Every line
action is followed by the event steps it causes, and external agents may act between any two of them; nothing more
happens once the block has stopped. -/

namespace Sys2Proof.Machine

/-- The external agents do what they do next, each action a step of its own (00_scope.md R13; entry 7). -/
def agents (s : State) : State :=
  if s.live then
    runExternal (s.env.yields.headD []) { s with env := { s.env with yields := s.env.yields.tail } }
  else s

/-- A `Drive` of the master: the change of its outputs, its propagation, and the events it causes (42_master.md R150;
41_line_and_edge.md R131). -/
def drive (f : Master → Master) (s : State) : State :=
  if s.live then
    settle (propagate s { s with m := { f s.m with actions := s.m.actions + 1 } })
  else s

/-- A line action that changes the master's outputs, after what the external agents do before it (00_scope.md R13). -/
def act (f : Master → Master) (s : State) : State := drive f (agents s)

/-- `W(l, v)` (42_master.md R151). -/
def lineW (l : Line) (v : Level) (s : State) : State := act (Master.setLatch l v) s

/-- `SetDir(l, d)` (42_master.md R151). -/
def lineSetDir (l : Line) (d : Dir) (s : State) : State := act (Master.setDir l d) s

/-- `D`, for `n` delay units: a scheduling point, at which the external agents do what they do next
(41_line_and_edge.md R123; 42_master.md R150, R151; entry 7). -/
def lineD (n : Nat) (s : State) : State :=
  agents (s.upd fun m => { m with actions := m.actions + 1, delays := m.delays + n })

/-- `m.phase <- p`. -/
def setPhase (p : Proto) (s : State) : State := s.upd fun m => { m with phase := p }

/-- `m.last_ack <- b`. -/
def setLastAck (b : Bool) (s : State) : State := s.upd fun m => { m with lastAck := b }

/-- `m.result <- v`. -/
def setResult (v : Byte) (s : State) : State := s.upd fun m => { m with result := v }

/-- `m.status <- st`. -/
def setStatus (st : Status) (s : State) : State := s.upd fun m => { m with status := st }

/-- `m.fifo <- v`. -/
def setFifo (v : Byte) (s : State) : State := s.upd fun m => { m with fifo := v }

/-- `start_condition()` (42_master.md R152). -/
def startCondition (s : State) : State :=
  setPhase .started
    (lineD 1 (lineW .scl false (lineD 1 (lineW .sda false (lineD 1 (lineW .scl true (lineW .sda true s)))))))

/-- `stop_condition()` (42_master.md R153). -/
def stopCondition (s : State) : State :=
  setPhase .stopped (lineD 1 (lineW .sda true (lineD 1 (lineW .scl true (lineW .sda false s)))))

/-- `write_bit(b)` (42_master.md R154). -/
def writeBit (b : Bool) (s : State) : State :=
  lineD 1 (lineW .scl false (lineD 1 (lineW .scl true (lineW .sda b s))))

/-- `write_bit` of each bit in turn. -/
def writeBits : List Bool → State → State
  | [], s => s
  | b :: r, s => writeBits r (writeBit b s)

/-- The first half of a clock pulse: SCL rises and a delay passes (42_master.md R155, R157). -/
def clockHigh (s : State) : State := lineD 1 (lineW .scl true s)

/-- The second half of a clock pulse: SCL falls and a delay passes (42_master.md R155, R157). -/
def clockLow (s : State) : State := lineD 1 (lineW .scl false s)

/-- `read_bit()` (42_master.md R155): the state and the sampled level. -/
def readBit (s : State) : State × Level :=
  let s1 := clockHigh (lineW .sda true s)
  (clockLow s1, s1.wire .sda)

/-- `read_bit()` of an acknowledge, into `m.last_ack` (42_master.md R156, R158). -/
def readAck (s : State) : State × Bool :=
  let r := readBit s
  (setLastAck (ackedOf r.2) r.1, ackedOf r.2)

/-- `write_byte(byte)` (42_master.md R156): the state and whether the byte was acknowledged. -/
def writeByte (v : Byte) (s : State) : State × Bool := readAck (writeBits (bitsMsbFirst v) s)

/-- One clock of `read_byte`: the sampled level goes into the master's Fifo8 (42_master.md R157). -/
def readShift (s : State) : State :=
  let s1 := clockHigh s
  clockLow (setFifo (Fifo.shiftIn s1.m.fifo (s1.wire .sda)) s1)

/-- `n` clocks of `read_byte`. -/
def readShifts : Nat → State → State
  | 0, s => s
  | n + 1, s => readShifts n (readShift s)

/-- `read_byte(is_last)` (42_master.md R157); the byte is the master's Fifo8 afterwards. -/
def readByte (isLast : Bool) (s : State) : State :=
  let s1 := lineSetDir .sda .out (readShifts 8 (setFifo 0 (lineSetDir .sda .inp s)))
  if isLast then stopCondition s1 else writeBit false s1

/-- `start_communication(address, is_read)` (42_master.md R158): the state and whether the address was acknowledged. -/
def startCommunication (a : Addr) (isRead : Bool) (s : State) : State × Bool :=
  let r := readAck (writeBit isRead (writeBits (addrBits a) (setPhase .addressPhase (startCondition s))))
  (setPhase (phaseAfterAddress isRead) r.1, r.2)

/-- At most `n` attempts, until one succeeds (42_master.md R160, R163). -/
def attempts (f : State → State × Bool) : Nat → State → State × Bool
  | 0, s => (s, false)
  | n + 1, s =>
    let r := f s
    if r.2 then r else attempts f n r.1

/-- The retried address (42_master.md R160, R161). -/
def addressPhase (a : Addr) (isRead : Bool) (s : State) : State × Bool :=
  attempts (startCommunication a isRead) Config.maxAttempts s

/-- The retried payload bytes in turn, and whether each was acknowledged in the end (42_master.md R160). -/
def writePayload : List Byte → State × Bool → State × Bool
  | [], r => r
  | v :: vs, r =>
    let r' := attempts (writeByte v) Config.maxAttempts r.1
    writePayload vs (r'.1, r.2 && r'.2)

/-- The first `n` bytes of the buffer from index `i` on, or the first index that holds no value (42_master.md R160). -/
def payloadFrom (s : State) : Nat → Nat → Except Nat (List Byte)
  | _, 0 => .ok []
  | i, n + 1 =>
    match s.memRead i with
    | none => .error i
    | some b =>
      match payloadFrom s (i + 1) n with
      | .error j => .error j
      | .ok bs => .ok (b :: bs)

/-- `write_bytes(address, data[])` after its buffer check (42_master.md R160). -/
def writeBytes (a : Addr) (data : List Byte) (s : State) : State :=
  let r := writePayload data (addressPhase a false s)
  setStatus (statusOf r.2) (stopCondition r.1)

/-- `MemWrite(i, read_byte(…))` (42_master.md R161). -/
def readInto (i : Nat) (isLast : Bool) (s : State) : State :=
  let s1 := readByte isLast s
  if s1.live then s1.memWrite i s1.m.fifo else s1

/-- The payload bytes from index `i` on, `n` of them, the last with a stop (42_master.md R161). -/
def readPayload : Nat → Nat → State → State
  | _, 0, s => s
  | i, n + 1, s => readPayload (i + 1) n (readInto i (decide (n = 0)) s)

/-- `read_bytes(address, data[])` (42_master.md R161). -/
def readBytes (a : Addr) (s : State) : State :=
  let n := s.m.len.toNat
  let r := addressPhase a true s
  let s1 := if n = 0 then stopCondition r.1 else readPayload 0 n r.1
  setStatus (statusOf r.2) s1

end Sys2Proof.Machine
end

