-- ==== Sys2Proof/Machine/FifoUnit.lean ====
section
/-! DEFINITION. The commands F.* on the master's Fifo8 (40_fifo_and_address.md R100 to R103). DESIGN CHOICE (entry 14):
in a block configured without a master they act on `m.fifo` all the same. -/

namespace Sys2Proof.Machine

/-- F.RESET (40_fifo_and_address.md R101). -/
def execFReset (s : State) : Host.Outcome State Fault Refusal := runCommand .fReset none (setFifo 0) s

/-- F.SHIFT b (40_fifo_and_address.md R100): the evicted bit is the result. -/
def execFShift (b : Bool) (s : State) : Host.Outcome State Fault Refusal :=
  runCommand (.fShift b) none
    (fun t => setFifo (Fifo.shiftIn t.m.fifo b) (setResult (zext1 (Fifo.evicted t.m.fifo)) t)) s

/-- F.LOAD v (40_fifo_and_address.md R102). -/
def execFLoad (v : Byte) (s : State) : Host.Outcome State Fault Refusal := runCommand (.fLoad v) none (setFifo v) s

/-- F.READ (40_fifo_and_address.md R103). -/
def execFRead (s : State) : Host.Outcome State Fault Refusal :=
  runCommand .fRead none (fun t => setResult t.m.fifo t) s

end Sys2Proof.Machine
end

