-- ==== Sys2Proof/Machine/LineUnit.lean ====
section
/-! DEFINITION. The commands L.* on the master's lines (41_line_and_edge.md R120 to R124). DESIGN CHOICE
(entry 14): in a block configured without a master they act on the master's registers and drive no wire. -/

namespace Sys2Proof.Machine

/-- `read(line)`: any bit in the settle case, the level of the wire otherwise (41_line_and_edge.md R120; entry 21). -/
def sampleLine (l : Line) (s : State) : State :=
  if s.m.settleFlag l then
    setResult (zext1 (Config.freeBit s.env.draws)) { s with env := { s.env with draws := s.env.draws + 1 } }
  else setResult (zext1 (s.wire l)) s

/-- L.READ l (41_line_and_edge.md R120). -/
def execLRead (l : Line) (s : State) : Host.Outcome State Fault Refusal := runCommand (.lRead l) none (sampleLine l) s

/-- L.WRITE l, v (41_line_and_edge.md R121). -/
def execLWrite (l : Line) (v : Level) (s : State) : Host.Outcome State Fault Refusal :=
  runCommand (.lWrite l v) none (lineW l v) s

/-- L.SETDIR l, d (41_line_and_edge.md R122): the settle flag of its line is set at its end (R124). -/
def execLSetdir (l : Line) (d : Dir) (s : State) : Host.Outcome State Fault Refusal :=
  runCommand (.lSetdir l d) (some l) (lineSetDir l d) s

/-- L.DELAY n (41_line_and_edge.md R123): a scheduling point. -/
def execLDelay (n : Nat) (s : State) : Host.Outcome State Fault Refusal := runCommand (.lDelay n) none (lineD n) s

end Sys2Proof.Machine
end

