-- ==== Sys2Proof/Machine/MasterUnit.lean ====
section
/-! DEFINITION. The commands M.* (42_master.md R152 to R161). DESIGN CHOICE (entry 14): in a block configured
without a master they act on the master's registers and drive no wire. -/

namespace Sys2Proof.Machine

/-- M.START (42_master.md R152). -/
def execMStart (s : State) : Host.Outcome State Fault Refusal := runCommand .mStart none startCondition s

/-- M.STOP (42_master.md R153). -/
def execMStop (s : State) : Host.Outcome State Fault Refusal := runCommand .mStop none stopCondition s

/-- M.WRITE_BIT b (42_master.md R154). -/
def execMWriteBit (b : Bool) (s : State) : Host.Outcome State Fault Refusal :=
  runCommand (.mWriteBit b) none (writeBit b) s

/-- M.READ_BIT (42_master.md R155). -/
def execMReadBit (s : State) : Host.Outcome State Fault Refusal :=
  runCommand .mReadBit none (fun t => setResult (zext1 (readBit t).2) (readBit t).1) s

/-- M.WRITE_BYTE v (42_master.md R156). -/
def execMWriteByte (v : Byte) (s : State) : Host.Outcome State Fault Refusal :=
  runCommand (.mWriteByte v) none (fun t => setResult (zext1 (writeByte v t).2) (writeByte v t).1) s

/-- M.READ_BYTE z (42_master.md R157). -/
def execMReadByte (z : Bool) (s : State) : Host.Outcome State Fault Refusal :=
  runCommand (.mReadByte z) none (fun t => setResult (readByte z t).m.fifo (readByte z t)) s

/-- M.START_COMM a, r (42_master.md R158). -/
def execMStartComm (a : Addr) (r : Bool) (s : State) : Host.Outcome State Fault Refusal :=
  runCommand (.mStartComm a r) none
    (fun t => setResult (zext1 (startCommunication a r t).2) (startCommunication a r t).1) s

/-- M.SETLEN n (42_master.md R159): F6 where the buffer is shorter than n. -/
def execMSetlen (n : Nat) (s : State) : Host.Outcome State Fault Refusal :=
  runCommand (.mSetlen n) none
    (fun t =>
      if t.params.bufSize < n then t.raise .badLength n else t.upd fun m => { m with len := BitVec.ofNat 8 n }) s

/-- M.WRITE_BYTES a (42_master.md R160): F8, before any line action, where a payload byte was never written. -/
def execMWriteBytes (a : Addr) (s : State) : Host.Outcome State Fault Refusal :=
  runCommand (.mWriteBytes a) none
    (fun t =>
      match payloadFrom t 0 t.m.len.toNat with
      | .error i => t.raise .unwrittenBuffer i
      | .ok data => writeBytes a data t) s

/-- M.READ_BYTES a (42_master.md R161). A length beyond the buffer, which no run reaches (R159), would write bytes that
do not exist (20_memory.md R62): the block stops (entry 19). -/
def execMReadBytes (a : Addr) (s : State) : Host.Outcome State Fault Refusal :=
  if s.live && decide (s.params.bufSize < s.m.len.toNat) then .fault (.noBufferByte s.params.bufSize)
  else runCommand (.mReadBytes a) none (readBytes a) s

end Sys2Proof.Machine
end

