-- ==== Sys2Proof/Machine/QueryUnit.lean ====
section
/-! DEFINITION. The commands Q.* (45_dispatch.md R268, R269). -/

namespace Sys2Proof.Machine

/-- Every field Q.SNAP reads of an instance (45_dispatch.md R268). -/
def Engine.snapshot : Engine → Snap
  | .slave v => .slave v.proto v.ack v.ackSlot v.bitCounter v.fifo v.sdaLvl v.sclLvl v.sdaDrv
  | .sniffer n => .sniffer n.proto n.ack n.groupPos n.fifo n.predicted n.addr n.sdaLvl n.sclLvl

/-- Q.SNAP i (45_dispatch.md R268): F9 where there is no instance i. -/
def execQSnap (i : Nat) (s : State) : Host.Outcome State Fault Refusal :=
  runCommand (.qSnap i) none
    (fun t =>
      match t.registry[i]? with
      | none => t.raise .badInstance i
      | some e => { t with snap := some e.snapshot }) s

/-- Q.STATUS (45_dispatch.md R269). DESIGN CHOICE (entry 14): a block configured without a master answers from the
master's registers all the same. -/
def execQStatus (s : State) : Host.Outcome State Fault Refusal :=
  runCommand .qStatus none (fun t => setResult (statusByte t.m) t) s

end Sys2Proof.Machine
end

