-- ==== Sys2Proof/Machine/Dispatch.lean ====
section
/-! DEFINITION. One arm for each row of spec/opcode_table.json. -/

namespace Sys2Proof.Machine

def exec (i : Instr) (s : State) : Host.Outcome State Fault Refusal :=
  match i with
  | .fReset => Sys2Proof.Machine.execFReset s
  | .fShift b => Sys2Proof.Machine.execFShift b s
  | .fLoad v => Sys2Proof.Machine.execFLoad v s
  | .fRead => Sys2Proof.Machine.execFRead s
  | .lRead l => Sys2Proof.Machine.execLRead l s
  | .lWrite l v => Sys2Proof.Machine.execLWrite l v s
  | .lSetdir l d => Sys2Proof.Machine.execLSetdir l d s
  | .lDelay n => Sys2Proof.Machine.execLDelay n s
  | .mStart => Sys2Proof.Machine.execMStart s
  | .mStop => Sys2Proof.Machine.execMStop s
  | .mWriteBit b => Sys2Proof.Machine.execMWriteBit b s
  | .mReadBit => Sys2Proof.Machine.execMReadBit s
  | .mWriteByte v => Sys2Proof.Machine.execMWriteByte v s
  | .mReadByte z => Sys2Proof.Machine.execMReadByte z s
  | .mStartComm a r => Sys2Proof.Machine.execMStartComm a r s
  | .mSetlen n => Sys2Proof.Machine.execMSetlen n s
  | .mWriteBytes a => Sys2Proof.Machine.execMWriteBytes a s
  | .mReadBytes a => Sys2Proof.Machine.execMReadBytes a s
  | .qSnap k => Sys2Proof.Machine.execQSnap k s
  | .qStatus => Sys2Proof.Machine.execQStatus s
  | .evLine pin level => Sys2Proof.Machine.execEvLine pin level s
  | .slvSdaFall pin => Sys2Proof.Machine.execSlvSdaFall pin s
  | .slvSdaRise pin => Sys2Proof.Machine.execSlvSdaRise pin s
  | .slvSclRise pin => Sys2Proof.Machine.execSlvSclRise pin s
  | .slvSclFall pin => Sys2Proof.Machine.execSlvSclFall pin s
  | .snfSdaFall pin => Sys2Proof.Machine.execSnfSdaFall pin s
  | .snfSdaRise pin => Sys2Proof.Machine.execSnfSdaRise pin s
  | .snfSclRise pin => Sys2Proof.Machine.execSnfSclRise pin s
  | .snfSclFall pin => Sys2Proof.Machine.execSnfSclFall pin s

end Sys2Proof.Machine
end

