-- ==== Sys2Proof/Machine/Ports.lean ====
section
/-! DEFINITION. What a step takes from the ports (30_encoding.md R80, R87 to R89), and how a table word is presented. -/

namespace Sys2Proof.Machine

/-- A pending event is taken: it runs the row it selects (30_encoding.md R86). -/
def takePending (e : Pending) (s : State) : Host.Outcome State Fault Refusal := exec (handlerOf s e.pin e.level) s

/-- A word on the command port: its instruction, or F7 with the word (30_encoding.md R87, R89), after F5 in interrupt
context (60_exceptions.md R291). -/
def takeCommand (w : PortWord) (s : State) : Host.Outcome State Fault Refusal :=
  match decodeCommand w with
  | .ok i => exec i s
  | .error _ => runWord w none (State.raise .reservedCommand w.toNat) s

/-- A word on the event port: the row it selects, or nothing for a reserved word (30_encoding.md R86, R88). -/
def takeEventWord (w : PortWord) (s : State) : Host.Outcome State Fault Refusal :=
  match decodeEvent w with
  | .ok (.evLine pin level) => exec (handlerOf s pin level) s
  | _ => .next s

/-- What is presented next, in a block that runs and has no pending event. -/
def takeInput (i : Input) (s : State) : Host.Outcome State Fault Refusal :=
  match i with
  | .configure c => .next (configure c s)
  | .command w => takeCommand w s
  | .memWrite k v => hostWrite k v s
  | .memRead k => hostReadByte k s
  | .external (.drive x y) => .next (external (.drive x y) s)
  | .external (.event w) => takeEventWord w s

/-- The state without its next input. -/
def State.dropInput (s : State) : State := { s with env := { s.env with inputs := s.env.inputs.tail } }

/-- The input that presents a word on the port of its unit (30_encoding.md R81, R82, R89). -/
def presentWord (w : PortWord) : Input := if isEventUnit w then .external (.event w) else .command w

end Sys2Proof.Machine
end

