-- ==== Sys2Proof/Machine/Step.lean ====
section
/-! DEFINITION. One step (00_scope.md R13; entries 3, 4, 11, 12). -/

namespace Sys2Proof.Machine

/-- One step. A configuration presented next is taken whatever the block's condition (70_reset_and_hazards.md R320).
Otherwise a stopped block does nothing more (10_state.md R50). A pending event comes before any input (00_scope.md R13).
Otherwise the next input is taken, a command running to its end (42_master.md R150), and a block to which nothing is
presented waits. While a callback that never returned preempts the foreground, only external agents go on (43_slave.md
R213; entry 9). -/
def step (s : State) : Host.Outcome State Fault Refusal :=
  match s.env.inputs with
  | .configure c :: _ => takeInput (.configure c) s.dropInput
  | ins =>
    match s.fault with
    | some f => .fault (.blockStopped f.code f.info)
    | none =>
      if s.unsettled then .fault .neverSettles
      else
        match s.takeEvent with
        | some (e, s') => takePending e s'
        | none =>
          if s.ctx = .interrupt then
            match ins with
            | .external a :: _ => .next (external a s.dropInput)
            | _ => .fault .callbackNeverReturned
          else
            match ins with
            | [] => .next s
            | i :: _ => takeInput i s.dropInput

/-- A state whose very next step takes the given table word: no event is pending and the word is presented next on the
port of its unit. It stands for the foreground, or the pins, presenting the word (entry 27). -/
def State.withFetchWord (s : State) (_nbits w : Nat) : State :=
  { s with events := [], env := { s.env with inputs := presentWord (BitVec.ofNat 16 w) :: s.env.inputs } }

end Sys2Proof.Machine
end

