-- ==== Sys2Proof/Safety.lean ====
section
/-! DEFINITION. The terms the claims use: which states are well formed (`State.Inv`), on which states the engines react
and no callback misbehaves (`State.calm`), and what a step leaves alone. -/

namespace Sys2Proof

/-- The row is a command of the command port (30_encoding.md R85), not an event (R86). -/
def Instr.isCommand (i : Instr) : Bool := decide (i.opcode ≠ 0x30)

/-- The operations of the command port (30_encoding.md R85), each with the bits of `imm` that must be zero (R83). -/
def commandTable : List (Byte × Byte) :=
  [(0x00, 0xFF), (0x01, 0xFE), (0x02, 0x00), (0x03, 0xFF), (0x10, 0xFE), (0x11, 0xFC), (0x12, 0xFC), (0x13, 0x00),
    (0x20, 0xFF), (0x21, 0xFF), (0x22, 0xFE), (0x23, 0xFF), (0x24, 0x00), (0x25, 0xFE), (0x26, 0x00), (0x27, 0x00),
    (0x28, 0x01), (0x29, 0x01), (0x40, 0x00), (0x41, 0xFF)]

/-- A reserved command word: its operation is not in the table, or a must-be-zero bit is 1 (30_encoding.md R87). -/
def ReservedWord (w : PortWord) : Prop := ∀ r ∈ commandTable, unitOp w = r.1 → imm w &&& r.2 ≠ 0

end Sys2Proof

namespace Sys2Proof.Machine

/-! ### What the configuration fixes -/

/-- The fields of an instance that are "read-only after configuration" (10_state.md R25, R33). -/
def Engine.identity : Engine → BitVec 1 × Pin × Pin × Option (Addr × Byte × Byte)
  | .slave v => (0, v.sdaPin, v.sclPin, some (v.addr, v.receiveCond, v.transmitCond))
  | .sniffer n => (1, n.sdaPin, n.sclPin, none)

/-- Nothing that is fixed after configuration differs (10_state.md R25, R33, R38, R48). -/
structure KeepsConfiguration (s t : State) : Prop where
  params   : t.params = s.params
  wiring   : t.wiring = s.wiring
  master   : t.m.cfg = s.m.cfg
  registry : t.registry.map Engine.identity = s.registry.map Engine.identity

/-- What a command leaves alone unless its rule says otherwise: the configuration, the snapshot, the ports and what the
host read, and every byte of the buffer. -/
structure CommandFrame (s t : State) : Prop where
  config   : KeepsConfiguration s t
  snap     : t.snap = s.snap
  inputs   : t.env.inputs = s.env.inputs
  hostRead : t.env.hostRead = s.env.hostRead
  memory   : ∀ a, t.memRead a = s.memRead a

/-- The command's word on the command port is `w` (30_encoding.md R81, R83). -/
def HasWord (i : Instr) (w : PortWord) : Prop := encode i = w ∧ decodeCommand w = .ok i

/-- In a running block, a word of operation `op` with one of the bits of `mask` set raises F7 with the word, and has no
other effect (30_encoding.md R87). -/
def MustBeZero (op mask : Byte) : Prop :=
  ∀ (b : Byte) (s : State), s.live = true → b &&& mask ≠ 0 →
    takeCommand (op ++ b) s = .next (s.raise .reservedCommand (op ++ b : PortWord).toNat)

/-- The command raises F5 with its word in interrupt context, and has no other effect (42_master.md R150;
60_exceptions.md R286). -/
def RefusedInHandler (i : Instr) : Prop :=
  ∀ s : State, s.fault = none → s.unsettled = false → s.ctx = .interrupt →
    exec i s = .next (s.raise .interruptContext (encode i).toNat)

/-! ### States on which the engines react -/

/-- The callback of the instance returns at every invocation its script describes, and has always returned
(43_slave.md R213). -/
def Engine.obedient : Engine → Bool
  | .slave v => !v.stuck && v.script.all fun r =>
      match r with
      | .returns _ => true
      | .issues _ => false
      | .hangs => false
  | .sniffer _ => true

/-- The instance's SCL pin is not on wire SDA, the wire that slaves drive. -/
def Engine.straight (wiring : List (Pin × Line)) (e : Engine) : Bool := decide (wireOf wiring e.sclPin ≠ some .sda)

/-- The foreground runs and every instance is obedient and straight: the engines react to every event. -/
def State.reactive (s : State) : Bool := s.live && s.registry.all fun e => e.obedient && e.straight s.wiring

/-- A reactive state with no event pending: a command starts here (00_scope.md R13). -/
def State.calm (s : State) : Bool := s.reactive && s.events.isEmpty

/-- The command `i` answers the state `t` on the calm state `s`: no event is left, and what no command touches is as it
was. -/
structure Runs (i : Instr) (s t : State) : Prop where
  answers : exec i s = .next t
  frame   : CommandFrame s t
  calm    : t.calm = true

/-- One slave alone on a bus of the block's own master: the pins of each are one on each wire, the slave's constants belong
to its address, it holds SDA released, its stored levels are the wires', its callback always returns, and no external agent
does anything. -/
structure AloneOnBus (s : State) (v : Slave) : Prop where
  registry : s.registry = [.slave v]
  wiring   : wireOf s.wiring v.sdaPin = some .sda ∧ wireOf s.wiring v.sclPin = some .scl
  conds    : v.receiveCond = receiveCondOf v.addr ∧ v.transmitCond = transmitCondOf v.addr
  released : v.sdaDrv = true
  levels   : v.sdaLvl = s.wire .sda ∧ v.sclLvl = s.wire .scl
  calm     : s.calm = true
  master   : ∃ c, s.m.cfg = some c ∧ wireOf s.wiring c.sdaPin = some .sda ∧ wireOf s.wiring c.sclPin = some .scl
  dirs     : s.m.sdaDir = .out ∧ s.m.sclDir = .out
  quiet    : s.env.extSda = true ∧ s.env.extScl = true ∧ s.env.yields = []

/-- No device is registered, and no external agent does anything: nobody but the block's own master drives the wires. -/
structure NoDevice (s : State) : Prop where
  registry : s.registry = []
  calm     : s.calm = true
  master   : s.m.cfg.isSome = true
  quiet    : s.env.extSda = true ∧ s.env.extScl = true ∧ s.env.yields = []

/-- The eight levels of SDA that `read_byte` samples, each in the high phase of its clock (42_master.md R157). -/
def readSamples (s : State) : List Bool :=
  (List.range 8).map fun k =>
    (lineD 1 (lineW .scl true (readShifts k (setFifo 0 (lineSetDir .sda .inp s))))).wire .sda

/-! ### The invariant -/

/-- What holds of every reachable slave (10_state.md R26 to R32; 43_slave.md R193 to R204). -/
structure Slave.Ok (v : Slave) : Prop where
  conds    : v.receiveCond = receiveCondOf v.addr ∧ v.transmitCond = transmitCondOf v.addr
  proto    : v.proto = .idle ∨ v.proto = .started ∨ v.proto = .transmitting ∨ v.proto = .receiving
  resting  : v.proto = .idle ∨ v.proto = .started → v.ack = .none ∧ v.ackSlot = false ∧ v.sdaDrv = true
  idle     : v.proto = .idle → v.bitCounter = 0 ∧ v.fifo = 0
  started  : v.proto = .started → v.bitCounter.toNat < 8
  armed    : v.ack ≠ .none → v.bitCounter % 8 = 0
  received : v.proto = .receiving → v.ack ≠ .awaitingTransmitAck

/-- What holds of every reachable sniffer (10_state.md R34 to R37; 44_sniffer.md R232 to R248). -/
structure Sniffer.Ok (n : Sniffer) : Prop where
  proto     : n.proto = .idle ∨ n.proto = .started ∨ n.proto = .transmitting ∨ n.proto = .receiving
  group     : n.groupPos.toNat ≤ 8
  ack       : n.ack = .none ↔ n.groupPos ≠ 8
  idle      : n.proto = .idle → n.groupPos = 0
  predicted : n.predicted = .idle ∨ n.predicted = .transmitting ∨ n.predicted = .receiving
  known     : n.proto = .transmitting ∨ n.proto = .receiving → n.predicted = n.proto
  address   : n.proto = .started → (n.predicted = .idle ↔ n.groupPos ≠ 8)

/-- What holds of every reachable instance. -/
def Engine.Ok : Engine → Prop
  | .slave v => v.Ok
  | .sniffer n => n.Ok

/-- What holds of the master in every reachable state (10_state.md R23, R38, R45, R46; 41_line_and_edge.md R125). -/
structure Master.Ok (p : Params) (m : Master) : Prop where
  status : m.status ≠ .busError
  buffer : Memory.wf m.buf = true
  bounds : ∀ c ∈ m.buf, c.1 < p.bufSize
  length : m.len.toNat ≤ p.bufSize
  delay  : ∀ c, m.cfg = some c → c.freqHz ≠ 0 ∧ c.delayUnit = delayUnitOf c.freqHz

/-- The pins of the master and of the instances, in order (45_dispatch.md R261). -/
def State.pins (s : State) : List Pin :=
  (match s.m.cfg with
    | none => []
    | some c => [c.sdaPin, c.sclPin])
  ++ s.registry.flatMap fun e => [e.sdaPin, e.sclPin]

/-- The invariant of the block: the registry fits and no pin is named twice (45_dispatch.md R261), the context is
Interrupt between steps only while a callback has not returned (60_exceptions.md R299), every pending notification is of
a change before the next (60_exceptions.md R296), and every part is well formed. -/
structure State.Inv (s : State) : Prop where
  capacity : s.registry.length ≤ s.params.regCap
  pins     : s.pins.Nodup
  context  : s.fault = none → (s.ctx = .interrupt ↔ s.registry.any Engine.isStuck = true)
  stamps   : ∀ e ∈ s.events, e.stamp < s.instant
  master   : s.m.Ok s.params
  engines  : ∀ e ∈ s.registry, e.Ok

/-! ### Event steps -/

/-- Slave `i`, not stuck, owns the pin as the given line. -/
structure SlaveAt (s : State) (pin : Pin) (l : Line) (i : Nat) (v : Slave) : Prop where
  owner  : s.owner pin = some (i, l)
  engine : s.registry[i]? = some (.slave v)
  moving : v.stuck = false

/-- Sniffer `i` owns the pin as the given line. -/
structure SnifferAt (s : State) (pin : Pin) (l : Line) (i : Nat) (n : Sniffer) : Prop where
  owner  : s.owner pin = some (i, l)
  engine : s.registry[i]? = some (.sniffer n)

/-- The block processes events: no fault, and the engines come to rest (10_state.md R50; 00_scope.md R13). -/
structure Processing (s : State) : Prop where
  fault   : s.fault = none
  settled : s.unsettled = false

/-- An event step of instance `i` that left it as `e`, recorded the given calls and emitted the given frames, queued the
notifications of a wire that changed and no others, and left everything else alone (45_dispatch.md R266; 43_slave.md R190;
41_line_and_edge.md R131). -/
structure EventStep (s t : State) (i : Nat) (e : Engine) (calls : List CbRec) (frames : List Frame) : Prop where
  registry  : t.registry = s.registry.set i e
  callbacks : t.callbacks = s.callbacks ++ calls
  frames    : t.frames = s.frames ++ frames
  params    : t.params = s.params
  wiring    : t.wiring = s.wiring
  master    : t.m = s.m
  snap      : t.snap = s.snap
  env       : t.env = s.env
  fault     : t.fault = none
  settled   : t.unsettled = false
  ctx       : t.ctx = if (s.registry.set i e).any Engine.isStuck then .interrupt else .foreground
  events    : t.events = (propagate s { t with events := s.events, instant := s.instant }).events
  instant   : t.instant = (propagate s { t with events := s.events, instant := s.instant }).instant

end Sys2Proof.Machine
end

