-- ==== Sys2Proof/Certificates/Slice0/Obligations.lean ====
section
/-! DEFINITION. The statements for the provers. -/

open Sys2Proof Sys2Proof.Machine

/-! ### Encoding -/

/-- The word of a well-formed instruction decodes to the instruction it stands for, a command's on the command port, an
event's and a handler row's to EV.LINE on the event port (30_encoding.md R81 to R86; entry 13). -/
def Obligations.DecodeOfEncode : Prop :=
  ∀ i : Instr, i.wf = true →
    decode (encode i) = .ok i.ofWord ∧
    (i.isCommand = true → decodeCommand (encode i) = .ok i) ∧
    (i.isCommand = false → decodeEvent (encode i) = .ok i.ofWord)

/-- A word that decodes is the word of the instruction it decodes to, so no bit of it is dropped (30_encoding.md R81 to
R84, R90). -/
def Obligations.EncodeOfDecode : Prop :=
  ∀ (w : PortWord) (i : Instr), decode w = .ok i → i.wf = true ∧ encode i = w

/-- Words written out from 30_encoding.md R81 to R86, and reserved ones from R87 to R89. -/
def Obligations.WrittenOutWords : Prop :=
  decode 0x0000 = .ok .fReset ∧
  decode 0x0101 = .ok (.fShift true) ∧
  decode 0x0299 = .ok (.fLoad 0x99) ∧
  decode 0x1103 = .ok (.lWrite .scl true) ∧
  decode 0x1102 = .ok (.lWrite .sda true) ∧
  decode 0x1202 = .ok (.lSetdir .sda .out) ∧
  decode 0x13FF = .ok (.lDelay 255) ∧
  decode 0x2501 = .ok (.mReadByte true) ∧
  decode 0x2685 = .ok (.mStartComm 0x42 true) ∧
  decode 0x2711 = .ok (.mSetlen 17) ∧
  decode 0x2884 = .ok (.mWriteBytes 0x42) ∧
  decode 0x4001 = .ok (.qSnap 1) ∧
  decode 0x3004 = .ok (.evLine 2 false) ∧
  decode 0x3007 = .ok (.evLine 3 true) ∧
  decode 0x2885 = .error .mustBeZero ∧
  decode 0x0500 = .error .reservedOp ∧
  decode 0x3104 = .error .notAnEvent ∧
  decodeCommand 0x3004 = .error .reservedOp

/-- In a running block a reserved command word raises F7 with the word and does nothing else; in interrupt context F5
comes first (60_exceptions.md R291). Every other word runs its instruction, and a unit-3 word is reserved on the command
port (30_encoding.md R87, R89). -/
def Obligations.ReservedCommandRaisesF7 : Prop :=
  ∀ (w : PortWord) (s : State),
    (ReservedWord w → s.live = true → takeCommand w s = .next (s.raise .reservedCommand w.toNat)) ∧
    (ReservedWord w → s.fault = none → s.unsettled = false → s.ctx = .interrupt →
      takeCommand w s = .next (s.raise .interruptContext w.toNat)) ∧
    (¬ ReservedWord w → ∃ i, decodeCommand w = .ok i ∧ takeCommand w s = exec i s) ∧
    (isEventUnit w = true → ReservedWord w)

/-- A word on the event port that is no event is ignored, and an event of a pin that belongs to no instance is dropped:
no state changes (30_encoding.md R88; 45_dispatch.md R265). -/
def Obligations.UnknownEventIgnored : Prop :=
  (∀ (w : PortWord) (s : State), unitOp w ≠ 0x30 →
    takeEventWord w s = .next s ∧ external (.event w) s = s) ∧
  (∀ (pin : Pin) (level : Level) (s : State), Processing s → s.owner pin = none →
    exec (.evLine pin level) s = .next s ∧ takeEventWord (encode (.evLine pin level)) s = .next s)

/-! ### Steps -/

/-- A step of a running block with nothing pending runs the instruction of the command word presented next
(30_encoding.md R80). -/
def Obligations.StepRunsDecodedCommand : Prop :=
  ∀ (s : State) (w : PortWord) (r : List Input) (i : Instr),
    s.live = true → s.events = [] → s.env.inputs = .command w :: r → decodeCommand w = .ok i →
      step s = exec i { s with env := { s.env with inputs := r } }

/-- Where an event of an instance that is not stuck is pending, a step takes a pending event before any input but a
configuration, which drops the pending events (entry 28), and runs the row it selects; the event is one of the earliest
of its instance, and nothing but the scheduling choices changes besides (00_scope.md R13; 45_dispatch.md R267; entries 4,
5, 6). With none pending, an event word at the event port runs the row
it selects (30_encoding.md R86). -/
def Obligations.StepTakesEvents : Prop :=
  (∀ s : State, (∃ e ∈ s.events, s.ownerStuck e.pin = false) → ∃ e s', s.takeEvent = some (e, s')) ∧
  (∀ (s s' : State) (e : Pending), Processing s → (∀ c r, s.env.inputs ≠ .configure c :: r) →
    s.takeEvent = some (e, s') →
      step s = exec (handlerOf s' e.pin e.level) s' ∧
      e ∈ s.events ∧ s.ownerStuck e.pin = false ∧
      (∀ e' ∈ s.events, (s.owner e'.pin).map Prod.fst = (s.owner e.pin).map Prod.fst → e.stamp ≤ e'.stamp) ∧
      ∃ cs n, s' = { s with events := s.events.erase e, env := { s.env with choices := cs, draws := n } }) ∧
  (∀ (s : State) (w : PortWord) (r : List Input) (pin : Pin) (level : Level),
    s.live = true → s.events = [] → s.env.inputs = .external (.event w) :: r →
    decodeEvent w = .ok (.evLine pin level) →
      step s = exec (handlerOf { s with env := { s.env with inputs := r } } pin level)
        { s with env := { s.env with inputs := r } })

/-- A handler row is not a word of its own: each does what the event word of its pin and its level does, and the row that
an event word selects does what the event word does (30_encoding.md R86; 45_dispatch.md R264; entry 13). -/
def Obligations.HandlerRowsAreTheEventWord : Prop :=
  ∀ (s : State) (pin : Pin),
    (∀ i ∈ [Instr.slvSdaFall pin, .slvSclFall pin, .snfSdaFall pin, .snfSclFall pin],
      exec i s = exec (.evLine pin false) s) ∧
    (∀ i ∈ [Instr.slvSdaRise pin, .slvSclRise pin, .snfSdaRise pin, .snfSclRise pin],
      exec i s = exec (.evLine pin true) s) ∧
    (∀ level, exec (handlerOf s pin level) s = exec (.evLine pin level) s)

/-! ### Configuration and reset -/

/-- A configuration that passes its checks resets every field (10_state.md R55; 70_reset_and_hazards.md R321, R323). Three
clauses are the model's reading: pending events are dropped, the external agents' outputs and the inputs to come are kept
(entry 28), and each stored level is the level of the wire its pin is attached to once the block's outputs are released
(entry 17). -/
def Obligations.ConfigurationResets : Prop :=
  ∀ (c : Configuration) (s t : State), c.check s.params = none → t = configure c s →
    t.live = true ∧ t.ctx = .foreground ∧ t.fault = none ∧ t.frames = [] ∧ t.callbacks = [] ∧ t.snap = none ∧
    t.events = [] ∧ t.wiring = c.wiring ∧ t.params = s.params ∧ t.env = { s.env with hostRead := none } ∧
    t.m =
      { cfg := c.master.map fun d => ⟨d.sdaPin, d.sclPin, d.freqHz, delayUnitOf d.freqHz⟩,
        sdaLatch := true, sclLatch := true, sdaDir := .out, sclDir := .out, phase := .idle, fifo := 0,
        lastAck := false, result := 0, status := .ok, len := 0, settleSda := false, settleScl := false, buf := [],
        actions := 0, delays := 0 } ∧
    t.registry.length = c.engines.length ∧
    (∀ (i : Nat) (a b : Pin) (addr : Nat) (script : List CbReply), c.engines[i]? = some (.slave a b addr script) →
      ∃ x y, t.registry[i]? = some (.slave
        { sdaPin := a, sclPin := b, addr := BitVec.ofNat 7 addr,
          receiveCond := receiveCondOf (BitVec.ofNat 7 addr), transmitCond := transmitCondOf (BitVec.ofNat 7 addr),
          proto := .idle, ack := .none, ackSlot := false, bitCounter := 0, fifo := 0, sdaLvl := x, sclLvl := y,
          sdaDrv := true, script := script, stuck := false })) ∧
    (∀ (i : Nat) (a b : Pin), c.engines[i]? = some (.sniffer a b) →
      ∃ x y, t.registry[i]? = some (.sniffer
        { sdaPin := a, sclPin := b, proto := .idle, ack := .none, groupPos := 0, fifo := 0, predicted := .idle,
          addr := 0, sdaLvl := x, sclLvl := y })) ∧
    (∀ e ∈ t.registry, ∀ l,
      (wireOf t.wiring e.sdaPin = some l → e.lvl .sda = t.wire l) ∧
      (wireOf t.wiring e.sclPin = some l → e.lvl .scl = t.wire l))

/-- The configuration checks in their order, each with its fault and info; a refused configuration runs nothing
(45_dispatch.md R261; 60_exceptions.md R282). -/
def Obligations.ConfigurationChecksInOrder : Prop :=
  ∀ (c : Configuration) (s : State) (f : Option FaultRec), f = (configure c s).fault →
    (s.params.regCap < c.engines.length → f = some ⟨.registryFull, c.engines.length⟩) ∧
    (c.engines.length ≤ s.params.regCap →
      (¬ (Configuration.pins c).Nodup →
        ∃ p, 2 ≤ (Configuration.pins c).count p ∧ f = some ⟨.pinConflict, p.toNat⟩) ∧
      ((Configuration.pins c).Nodup →
        ((∃ a b addr script, EngineDesc.slave a b addr script ∈ c.engines ∧ 127 < addr) →
          ∃ a b addr script, EngineDesc.slave a b addr script ∈ c.engines ∧ 127 < addr ∧
            f = some ⟨.badAddress, addr⟩) ∧
        ((∀ a b addr script, EngineDesc.slave a b addr script ∈ c.engines → addr ≤ 127) →
          ((∃ d, c.master = some d ∧ d.freqHz = 0) → f = some ⟨.badFrequency, 0⟩) ∧
          ((∀ d, c.master = some d → d.freqHz ≠ 0) → f = none)))) ∧
    (f ≠ none → ∀ i t, exec i (configure c s) ≠ .next t)

/-- The delay unit is max(1, 1000000 / freq_hz), truncating, computed at configuration and at no other time; frequency 0
is refused, with F4 where nothing else is wrong (41_line_and_edge.md R125). -/
def Obligations.DelayUnitDerivedOnce : Prop :=
  (∀ (c : Configuration) (s : State) (d : MasterDesc), c.master = some d →
    (c.check s.params = none →
      ∃ k, (configure c s).m.cfg = some k ∧ k.freqHz = d.freqHz ∧
        k.delayUnit.toNat = max 1 (1000000 / d.freqHz.toNat)) ∧
    (d.freqHz = 0 → (configure c s).fault ≠ none ∧
      (Configuration.check s.params { c with master := some { d with freqHz := 1 } } = none →
        (configure c s).fault = some ⟨.badFrequency, 0⟩))) ∧
  (∀ s t : State, (∀ c r, s.env.inputs ≠ .configure c :: r) → step s = .next t → t.m.cfg = s.m.cfg)

/-- Instances are created at configuration and never destroyed: no step but a configuration changes the registry's
length, an instance's role, pins, address or match values, the master's configuration, the wiring or the parameters
(10_state.md R25, R33, R38, R48). -/
def Obligations.ConfigurationIsFixed : Prop :=
  ∀ s t : State, (∀ c r, s.env.inputs ≠ .configure c :: r) → step s = .next t → KeepsConfiguration s t

/-- A fault is sticky: no instruction and no step answers a next state, but for a new configuration, which alone leaves
it (10_state.md R50; 70_reset_and_hazards.md R320). -/
def Obligations.FaultIsSticky : Prop :=
  State.reset.fault = none ∧
  ∀ (s : State) (f : FaultRec), s.fault = some f →
    (∀ i t, exec i s ≠ .next t) ∧
    ((∀ c r, s.env.inputs ≠ .configure c :: r) → ∀ t, step s ≠ .next t) ∧
    (∀ c r, s.env.inputs = .configure c :: r →
      step s = .next (configure c { s with env := { s.env with inputs := r } }))

/-! ### The two contexts -/

/-- A command in interrupt context raises F5 with its word and does nothing else; so does a command that a callback
issues, whatever its word, with the event step complete up to the callback (60_exceptions.md R286; 42_master.md R150). -/
def Obligations.InterruptContextRefusesCommands : Prop :=
  (∀ i : Instr, i.isCommand = true → RefusedInHandler i) ∧
  (∀ (s : State) (pin : Pin) (l : Line) (i : Nat) (v v' : Slave) (level : Level) (c : Call) (w : PortWord)
      (r : List CbReply),
    Processing s → SlaveAt s pin l i v → v.lvl l ≠ level → v.script = .issues w :: r →
    slaveHandler l (edgeOf level) (v.store l level) = (v', some c) →
      ∃ t, exec (.evLine pin level) s = .next t ∧
        t.fault = some ⟨.interruptContext, w.toNat⟩ ∧
        t.callbacks = s.callbacks ++ [⟨i, c.kind, c.byte, c.index⟩] ∧
        t.registry = s.registry.set i (.slave { v' with script := r }) ∧
        t.m = s.m ∧ t.frames = s.frames ∧ t.snap = s.snap ∧ t.params = s.params ∧ t.wiring = s.wiring ∧ t.env = s.env ∧
        t.events = (propagate s { t with events := s.events, instant := s.instant }).events ∧
        t.instant = (propagate s { t with events := s.events, instant := s.instant }).instant)

/-- A callback that never returns leaves its instance stuck, the context Interrupt, and no further event of either pin of
that instance is processed (43_slave.md R213; entries 8, 9). While the context is Interrupt and no event of another
instance is pending, an external agent's action is taken and a command is not: the step stops. -/
def Obligations.CallbackThatNeverReturns : Prop :=
  (∀ s : State, Processing s → s.ctx = .interrupt → (∀ e ∈ s.events, s.ownerStuck e.pin = true) →
    (∀ a r, s.env.inputs = .external a :: r →
      step s = .next (external a { s with env := { s.env with inputs := r } })) ∧
    ((∀ a r, s.env.inputs ≠ .external a :: r) → (∀ c r, s.env.inputs ≠ .configure c :: r) →
      step s = .fault .callbackNeverReturned)) ∧
  ∀ (s : State) (pin : Pin) (l : Line) (i : Nat) (v v' : Slave) (level : Level) (c : Call) (r : List CbReply),
    Processing s → SlaveAt s pin l i v → v.lvl l ≠ level → v.script = .hangs :: r →
    slaveHandler l (edgeOf level) (v.store l level) = (v', some c) →
      ∃ t, exec (.evLine pin level) s = .next t ∧
        EventStep s t i (.slave { v' with script := r, stuck := true }) [⟨i, c.kind, c.byte, c.index⟩] [] ∧
        t.ctx = .interrupt ∧
        (∀ p l' b, s.owner p = some (i, l') → exec (.evLine p b) t = .fault .callbackNeverReturned)

/-! ### Slave handlers -/

/-- Edges of the data line while the stored clock level is low change the stored data level and nothing else
(43_slave.md R192). -/
def Obligations.SlaveIgnoresDataWhileClockLow : Prop :=
  ∀ (s : State) (pin : Pin) (i : Nat) (v : Slave), Processing s → SlaveAt s pin .sda i v → v.sclLvl = false →
    (v.sdaLvl = true → ∃ t, exec (.slvSdaFall pin) s = .next t ∧
      EventStep s t i (.slave { v with sdaLvl := false }) [] []) ∧
    (v.sdaLvl = false → ∃ t, exec (.slvSdaRise pin) s = .next t ∧
      EventStep s t i (.slave { v with sdaLvl := true }) [] [])

/-- A fall of SDA while the clock is high is a start condition: from every state the slave is in the post-start state,
with one Start callback (43_slave.md R193, R205). -/
def Obligations.SlaveStartAlwaysWins : Prop :=
  ∀ (s : State) (pin : Pin) (i : Nat) (v : Slave), Processing s → SlaveAt s pin .sda i v →
    (Engine.slave v).obedient = true → v.sclLvl = true → v.sdaLvl = true →
      ∃ t, exec (.slvSdaFall pin) s = .next t ∧
        EventStep s t i
          (.slave { v with sdaLvl := false, proto := .started, ack := .none, ackSlot := false, bitCounter := 0,
                           fifo := 0, sdaDrv := true, script := v.script.tail })
          [⟨i, .start, 0, 0⟩] []

/-- A rise of SDA while the clock is high is a stop condition: from every state the slave is Idle, with one Stop callback
that carries the register and the count of whole bytes (43_slave.md R194). -/
def Obligations.SlaveStop : Prop :=
  ∀ (s : State) (pin : Pin) (i : Nat) (v : Slave), Processing s → SlaveAt s pin .sda i v →
    (Engine.slave v).obedient = true → v.sclLvl = true → v.sdaLvl = false →
      ∃ t, exec (.slvSdaRise pin) s = .next t ∧
        EventStep s t i
          (.slave { v with sdaLvl := true, proto := .idle, ack := .none, ackSlot := false, bitCounter := 0,
                           fifo := 0, sdaDrv := true, script := v.script.tail })
          [⟨i, .stop, v.fifo,
            if v.proto = .transmitting ∨ v.proto = .receiving then v.bitCounter.toNat / 8 else 0⟩] []

/-- The clock edges to which the tables of 43_slave.md R195 and R200 answer "nothing" change the stored clock level
alone; a slave in Idle ignores every clock (R199). -/
def Obligations.SlaveIgnoresClock : Prop :=
  ∀ (s : State) (pin : Pin) (i : Nat) (v : Slave), Processing s → SlaveAt s pin .scl i v →
    (v.sclLvl = false →
      (v.proto = .idle ∨ v.proto = .addressPhase ∨ v.proto = .stopped ∨
        (v.proto = .receiving ∧ ¬ (v.ackSlot = false ∧ v.ack = .none)) ∨
        (v.proto = .transmitting ∧ ¬ (v.ack = .awaitingTransmitAck ∧ v.ackSlot = true))) →
      ∃ t, exec (.slvSclRise pin) s = .next t ∧ EventStep s t i (.slave { v with sclLvl := true }) [] []) ∧
    (v.sclLvl = true →
      (v.proto = .idle ∨ v.proto = .started ∨ v.proto = .addressPhase ∨ v.proto = .stopped ∨
        (v.proto = .receiving ∧ v.ack ≠ .awaitingReceiveAck ∧ ¬ (v.ack = .none ∧ v.ackSlot = true)) ∨
        (v.proto = .transmitting ∧ v.ack = .awaitingTransmitAck ∧ v.ackSlot = true)) →
      ∃ t, exec (.slvSclFall pin) s = .next t ∧ EventStep s t i (.slave { v with sclLvl := false }) [] [])

/-- Address bit: the sampled bit is shifted in, and on the eighth the byte is compared once with the two match values
(43_slave.md R198). -/
def Obligations.SlaveAddressBit : Prop :=
  ∀ (s : State) (pin : Pin) (i : Nat) (v : Slave) (byte : Byte), Processing s → SlaveAt s pin .scl i v →
    v.sclLvl = false → v.proto = .started → byte = Fifo.shiftIn v.fifo v.sdaLvl →
      ∃ t e, exec (.slvSclRise pin) s = .next t ∧ EventStep s t i (.slave e) [] [] ∧
        (v.bitCounter + 1 ≠ 8 → e = { v with sclLvl := true, fifo := byte, bitCounter := v.bitCounter + 1 }) ∧
        (v.bitCounter + 1 = 8 → byte = v.transmitCond →
          e = { v with sclLvl := true, fifo := 0, bitCounter := 0, proto := .transmitting,
                       ack := .awaitingReceiveAck }) ∧
        (v.bitCounter + 1 = 8 → byte ≠ v.transmitCond → byte = v.receiveCond →
          e = { v with sclLvl := true, fifo := 0, bitCounter := 0, proto := .receiving,
                       ack := .awaitingReceiveAck }) ∧
        (v.bitCounter + 1 = 8 → byte ≠ v.transmitCond → byte ≠ v.receiveCond →
          e = { v with sclLvl := true, fifo := 0, bitCounter := 0, proto := .idle })

/-- Receive data bit: the sampled bit is shifted in, and every eighth completes a byte, with one Receive callback and the
acknowledge armed (43_slave.md R197). -/
def Obligations.SlaveReceiveBit : Prop :=
  ∀ (s : State) (pin : Pin) (i : Nat) (v : Slave) (byte : Byte) (n : BitVec 32), Processing s →
    SlaveAt s pin .scl i v → (Engine.slave v).obedient = true →
    v.sclLvl = false → v.proto = .receiving → v.ackSlot = false → v.ack = .none →
    byte = Fifo.shiftIn v.fifo v.sdaLvl → n = v.bitCounter + 1 →
      ∃ t, exec (.slvSclRise pin) s = .next t ∧
        (n.toNat % 8 ≠ 0 →
          EventStep s t i (.slave { v with sclLvl := true, fifo := byte, bitCounter := n }) [] []) ∧
        (n.toNat % 8 = 0 →
          EventStep s t i
            (.slave { v with sclLvl := true, fifo := byte, bitCounter := n, ack := .awaitingReceiveAck,
                             script := v.script.tail })
            [⟨i, .receive, byte, n.toNat / 8⟩] [])

/-- Transmit acknowledge sample: a failed acknowledge rewinds the counter by 8 (43_slave.md R196). -/
def Obligations.SlaveSamplesMasterAck : Prop :=
  ∀ (s : State) (pin : Pin) (i : Nat) (v : Slave), Processing s → SlaveAt s pin .scl i v →
    v.sclLvl = false → v.proto = .transmitting → v.ack = .awaitingTransmitAck → v.ackSlot = true →
      ∃ t, exec (.slvSclRise pin) s = .next t ∧
        EventStep s t i
          (.slave { v with sclLvl := true, ack := .none,
                           bitCounter := if v.sdaLvl then v.bitCounter - 8 else v.bitCounter }) [] []

/-- The acknowledge edges on a fall of the clock: drive it in Receiving and for the own address in Transmitting, release
it at the end of the ninth clock in Receiving, and release SDA for the master's acknowledge in Transmitting
(43_slave.md R201, R202, R204). -/
def Obligations.SlaveAcknowledgeEdges : Prop :=
  ∀ (s : State) (pin : Pin) (i : Nat) (v : Slave), Processing s → SlaveAt s pin .scl i v → v.sclLvl = true →
    ((v.proto = .receiving ∨ v.proto = .transmitting) → v.ack = .awaitingReceiveAck →
      ∃ t, exec (.slvSclFall pin) s = .next t ∧
        EventStep s t i (.slave { v with sclLvl := false, sdaDrv := false, ack := .none, ackSlot := true }) [] []) ∧
    (v.proto = .transmitting → v.ack = .awaitingTransmitAck → v.ackSlot = false →
      ∃ t, exec (.slvSclFall pin) s = .next t ∧
        EventStep s t i (.slave { v with sclLvl := false, sdaDrv := true, ackSlot := true }) [] []) ∧
    (v.proto = .receiving → v.ack = .none → v.ackSlot = true →
      ∃ t, exec (.slvSclFall pin) s = .next t ∧
        EventStep s t i (.slave { v with sclLvl := false, sdaDrv := true, ackSlot := false }) [] [])

/-- Transmit data phase: on a byte boundary the Request callback gives the byte, whatever it is; then the register's top
bit is driven, the counter moves, and the acknowledge is armed on every eighth (43_slave.md R203). -/
def Obligations.SlaveTransmitsBit : Prop :=
  ∀ (s : State) (pin : Pin) (i : Nat) (v : Slave) (n : BitVec 32), Processing s → SlaveAt s pin .scl i v →
    (Engine.slave v).obedient = true → v.sclLvl = true → v.proto = .transmitting → v.ack = .none →
    n = v.bitCounter + 1 →
      ∃ (t : State) (byte : Byte), exec (.slvSclFall pin) s = .next t ∧
        (v.bitCounter.toNat % 8 ≠ 0 → byte = v.fifo) ∧
        (v.bitCounter.toNat % 8 = 0 → ∀ b r, v.script = .returns b :: r → byte = b) ∧
        EventStep s t i
          (.slave { v with sclLvl := false, ackSlot := false, fifo := Fifo.shiftIn byte false,
                           sdaDrv := byte.getLsbD 7, bitCounter := n,
                           ack := if n.toNat % 8 = 0 then .awaitingTransmitAck else .none,
                           script := if v.bitCounter.toNat % 8 = 0 then v.script.tail else v.script })
          (if v.bitCounter.toNat % 8 = 0 then [⟨i, .request, v.fifo, v.bitCounter.toNat / 8 + 1⟩] else []) []

/-! ### Sniffer handlers -/

/-- Start and stop conditions reset the sniffer and emit no frame; a change of SDA while the clock is low changes the
stored level alone (44_sniffer.md R232, R233). -/
def Obligations.SnifferStartAndStop : Prop :=
  ∀ (s : State) (pin : Pin) (i : Nat) (n : Sniffer), Processing s → SnifferAt s pin .sda i n →
    (n.sdaLvl = true → ∃ t, exec (.snfSdaFall pin) s = .next t ∧
      EventStep s t i
        (.sniffer (if n.sclLvl then
            { n with sdaLvl := false, proto := .started, ack := .none, groupPos := 0, fifo := 0, predicted := .idle,
                     addr := 0 }
          else { n with sdaLvl := false })) [] []) ∧
    (n.sdaLvl = false → ∃ t, exec (.snfSdaRise pin) s = .next t ∧
      EventStep s t i
        (.sniffer (if n.sclLvl then
            { n with sdaLvl := true, proto := .idle, ack := .none, groupPos := 0, fifo := 0, predicted := .idle,
                     addr := 0 }
          else { n with sdaLvl := true })) [] [])

/-- Group bit and classification: a bit of a group is shifted in, and the eighth classifies it (44_sniffer.md R235,
R236). -/
def Obligations.SnifferGroupBit : Prop :=
  ∀ (s : State) (pin : Pin) (i : Nat) (n : Sniffer) (byte : Byte), Processing s → SnifferAt s pin .scl i n →
    n.sclLvl = false → (n.proto = .started ∨ n.proto = .transmitting ∨ n.proto = .receiving) →
    n.groupPos.toNat < 8 → byte = Fifo.shiftIn n.fifo n.sdaLvl →
      ∃ t, exec (.snfSclRise pin) s = .next t ∧
        (n.groupPos.toNat < 7 →
          EventStep s t i (.sniffer { n with sclLvl := true, fifo := byte, groupPos := n.groupPos + 1 }) [] []) ∧
        (n.groupPos = 7 → n.proto = .started →
          EventStep s t i
            (.sniffer { n with sclLvl := true, fifo := byte, groupPos := 8, addr := byte.extractLsb' 1 7,
                               predicted := if byte.getLsbD 0 then .transmitting else .receiving,
                               ack := .awaitingReceiveAck }) [] []) ∧
        (n.groupPos = 7 → n.proto = .receiving →
          EventStep s t i
            (.sniffer { n with sclLvl := true, fifo := byte, groupPos := 8, ack := .awaitingReceiveAck }) [] []) ∧
        (n.groupPos = 7 → n.proto = .transmitting →
          EventStep s t i
            (.sniffer { n with sclLvl := true, fifo := byte, groupPos := 8, ack := .awaitingTransmitAck }) [] [])

/-- Acknowledge bit and record: the ninth bit of a group emits one frame, tag : addr : 0 : proto : ack : acked : data,
with the acknowledge active low and the two enumerations encoded as 10_state.md R20 and R21 have them (44_sniffer.md
R237, R245). -/
def Obligations.SnifferRecord : Prop :=
  [Proto.idle, .started, .addressPhase, .transmitting, .receiving, .stopped].map Proto.enc4 = [0, 1, 2, 3, 4, 5] ∧
  [AckPhase.none, .awaitingTransmitAck, .awaitingReceiveAck].map AckPhase.enc3 = [0, 1, 2] ∧
  ∀ (s : State) (pin : Pin) (i : Nat) (n : Sniffer), Processing s → SnifferAt s pin .scl i n → n.sclLvl = false →
    (n.proto = .started ∨ n.proto = .transmitting ∨ n.proto = .receiving) → n.groupPos = 8 →
      ∃ (t : State) (f : Frame), exec (.snfSclRise pin) s = .next t ∧
        f.toNat = s.params.sniffTag.toNat * 2 ^ 24 + n.addr.toNat * 2 ^ 17 + n.proto.enc4.toNat * 2 ^ 12
          + n.ack.enc3.toNat * 2 ^ 9 + (if n.sdaLvl then 0 else 1) * 2 ^ 8 + n.fifo.toNat ∧
        EventStep s t i
          (.sniffer { n with sclLvl := true, ack := .none, groupPos := 0,
                             proto := if n.proto = .started then n.predicted else n.proto }) [] [f]

/-- A fall of the clock changes the sniffer's stored level alone (44_sniffer.md R240); so does a rise outside a
transaction (44_sniffer.md R234). -/
def Obligations.SnifferIgnoresClock : Prop :=
  ∀ (s : State) (pin : Pin) (i : Nat) (n : Sniffer), Processing s → SnifferAt s pin .scl i n →
    (n.sclLvl = true → ∃ t, exec (.snfSclFall pin) s = .next t ∧
      EventStep s t i (.sniffer { n with sclLvl := false }) [] []) ∧
    (n.sclLvl = false → (n.proto = .idle ∨ n.proto = .addressPhase ∨ n.proto = .stopped) →
      ∃ t, exec (.snfSclRise pin) s = .next t ∧ EventStep s t i (.sniffer { n with sclLvl := true }) [] [])

/-- A sniffer never drives any line and makes no callback: no event of its pins changes a wire or the callback record
(44_sniffer.md R230). -/
def Obligations.SnifferIsReadOnly : Prop :=
  (∀ (w : List (Pin × Line)) (l : Line) (n : Sniffer), Engine.drives w l (.sniffer n) = true) ∧
  (∀ (s t : State) (pin : Pin) (l : Line) (i : Nat) (n : Sniffer) (level : Level), SnifferAt s pin l i n →
    exec (.evLine pin level) s = .next t →
      (∀ x, t.wire x = s.wire x) ∧ t.callbacks = s.callbacks ∧ t.events = s.events ∧ t.fault = none)

/-! ### Dispatch -/

/-- An event word reaches the one instance that owns its pin and changes only that instance, which stores the level; an
event that brings the stored level changes nothing else (45_dispatch.md R264 to R266; 41_line_and_edge.md R136). -/
def Obligations.EventChangesOneInstance : Prop :=
  ∀ (s : State) (pin : Pin) (level : Level), Processing s → s.ownerStuck pin = false →
    ∃ t, exec (.evLine pin level) s = .next t ∧
      (s.owner pin = none → t = s) ∧
      t.m = s.m ∧ t.params = s.params ∧ t.wiring = s.wiring ∧ t.snap = s.snap ∧ t.env = s.env ∧
      ∀ i l, s.owner pin = some (i, l) →
        (∀ j, j ≠ i → t.registry[j]? = s.registry[j]?) ∧
        (∃ e, t.registry[i]? = some e ∧ e.lvl l = level) ∧
        (∀ e, s.registry[i]? = some e → e.lvl l = level → t = s) ∧
        (∃ cs, t.callbacks = s.callbacks ++ cs ∧ cs.length ≤ 1 ∧ ∀ c ∈ cs, c.inst = i) ∧
        (∃ fs, t.frames = s.frames ++ fs ∧ fs.length ≤ 1)

/-! ### The wires -/

/-- A wire is the AND of the outputs of every attached agent: the master's latch where its pin of that line is attached to
the wire and its direction is out, the external agents', on SDA the output of each slave whose SDA pin is attached to
it, and nothing of an instance on SCL (41_line_and_edge.md R127, R130; entries 14, 15). -/
def Obligations.WireIsTheAndOfOutputs : Prop :=
  ∀ s : State,
    (s.wire .sda = true ↔
      (∀ c, s.m.cfg = some c → wireOf s.wiring c.sdaPin = some .sda → s.m.sdaDir = .out → s.m.sdaLatch = true) ∧
      s.env.extSda = true ∧
      ∀ v, Engine.slave v ∈ s.registry → wireOf s.wiring v.sdaPin = some .sda → v.sdaDrv = true) ∧
    (s.wire .scl = true ↔
      (∀ c, s.m.cfg = some c → wireOf s.wiring c.sclPin = some .scl → s.m.sclDir = .out → s.m.sclLatch = true) ∧
      s.env.extScl = true)

/-- A change of a wire queues one notification, with the new level, for every pin of a registered instance that is
attached to it, after those already pending, and an output change that leaves the wires unchanged queues nothing. The
notifications of one change carry its number, and the next change has the next number (41_line_and_edge.md R131;
60_exceptions.md R295, R296; entries 6, 25). An external agent's drive sets its outputs and is such a change: the
notifications of both wires carry one number, and each may be the next (41_line_and_edge.md R137; 00_scope.md R13). -/
def Obligations.WireChangesAreNotified : Prop :=
  (∀ old new : State,
    (old.wire .sda = new.wire .sda → old.wire .scl = new.wire .scl → propagate old new = new) ∧
    (¬ (old.wire .sda = new.wire .sda ∧ old.wire .scl = new.wire .scl) →
      (propagate old new).instant = new.instant + 1) ∧
    ∃ es, (propagate old new).events = new.events ++ es ∧ (∀ x ∈ es, x.stamp = new.instant) ∧
      (∀ l, old.wire l ≠ new.wire l → ∀ e ∈ new.registry, ∀ p ∈ [e.sdaPin, e.sclPin],
        wireOf new.wiring p = some l → ∃ x ∈ es, x.pin = p ∧ x.level = new.wire l) ∧
      (∀ x ∈ es, ∃ l, old.wire l ≠ new.wire l ∧ x.level = new.wire l ∧ wireOf new.wiring x.pin = some l ∧
        ∃ e ∈ new.registry, x.pin ∈ [e.sdaPin, e.sclPin]) ∧
      ((new.registry.flatMap fun e => [e.sdaPin, e.sclPin]).Nodup → (es.map Pending.pin).Nodup)) ∧
  (∀ (s t : State) (x y : Level) (r : List Input), s.live = true → s.events = [] →
    s.env.inputs = .external (.drive x y) :: r →
    t = propagate s { s with env := { s.env with inputs := r, extSda := x, extScl := y } } →
      step s = .next t ∧ t.m = s.m ∧ t.registry = s.registry ∧ t.env.extSda = x ∧ t.env.extScl = y ∧
      ∀ e ∈ t.events, t.ownerStuck e.pin = false →
        ∃ c s', State.takeEvent { t with env := { t.env with choices := [c] } } = some (e, s'))

/-! ### Line commands -/

/-- L.READ returns the level of the wire, and any bit where it follows an L.SETDIR of its line; the bit is a free value
(41_line_and_edge.md R120). -/
def Obligations.LineRead : Prop :=
  HasWord (.lRead .sda) 0x1000 ∧ HasWord (.lRead .scl) 0x1001 ∧ MustBeZero 0x10 0xFE ∧
  ∀ (l : Line) (s : State), s.live = true → s.m.cfg.isSome = true →
    (s.m.settleFlag l = false → exec (.lRead l) s = .next
      { s with m := { s.m with result := zext1 (s.wire l), settleSda := false, settleScl := false } }) ∧
    (s.m.settleFlag l = true → ∃ (v : Bool) (n : Nat), exec (.lRead l) s = .next
      { s with
        m := { s.m with result := zext1 v, settleSda := false, settleScl := false }
        env := { s.env with draws := n } })

/-- L.WRITE sets the latch of its line and propagates a change of the wire; a latch that already holds the value, and a
line whose direction is in, make no event (41_line_and_edge.md R121). `x` is the state after what external agents do
before the drive (00_scope.md R13). -/
def Obligations.LineWrite : Prop :=
  HasWord (.lWrite .sda false) 0x1100 ∧ HasWord (.lWrite .scl false) 0x1101 ∧
  HasWord (.lWrite .sda true) 0x1102 ∧ HasWord (.lWrite .scl true) 0x1103 ∧ MustBeZero 0x11 0xFC ∧
  ∀ (l : Line) (v : Level) (s x : State) (m : Master), s.calm = true → s.m.cfg.isSome = true → x = agents s →
    m = { s.m.setLatch l v with actions := s.m.actions + 1 } →
    (s.env.yields = [] → x = s) ∧
    (∃ t, Runs (.lWrite l v) s t ∧ t.m = { m with settleSda := false, settleScl := false }) ∧
    exec (.lWrite l v) s = .next ((settle (propagate x { x with m := m })).finish none) ∧
    (s.m.latch l = v ∨ s.m.dir l = .inp →
      exec (.lWrite l v) s = .next { x with m := { m with settleSda := false, settleScl := false } })

/-- L.SETDIR sets the direction of its line and not its latch, propagates a change of the wire, and sets the settle flag
of its line (41_line_and_edge.md R122). `x` is the state after what external agents do before the drive (00_scope.md
R13). -/
def Obligations.LineSetDirection : Prop :=
  HasWord (.lSetdir .sda .inp) 0x1200 ∧ HasWord (.lSetdir .scl .inp) 0x1201 ∧
  HasWord (.lSetdir .sda .out) 0x1202 ∧ HasWord (.lSetdir .scl .out) 0x1203 ∧ MustBeZero 0x12 0xFC ∧
  ∀ (l : Line) (d : Dir) (s x : State) (m : Master), s.calm = true → s.m.cfg.isSome = true → x = agents s →
    m = { s.m.setDir l d with actions := s.m.actions + 1 } →
    (s.env.yields = [] → x = s) ∧
    (∃ t, Runs (.lSetdir l d) s t ∧
      t.m = { m with settleSda := decide (l = .sda), settleScl := decide (l = .scl) }) ∧
    exec (.lSetdir l d) s = .next ((settle (propagate x { x with m := m })).finish (some l))

/-- L.DELAY changes no state of the block but the model's own counts and the settle flags, it is a scheduling point at
which an external agent may drive, and it is refused in interrupt context (41_line_and_edge.md R123; entry 24). -/
def Obligations.LineDelay : Prop :=
  (∀ n, n < 256 → HasWord (.lDelay n) (0x1300 ||| BitVec.ofNat 16 n)) ∧ (∀ n, RefusedInHandler (.lDelay n)) ∧
  ∀ (n : Nat) (s : State) (c m : Master), s.m.cfg.isSome = true →
    c = { s.m with actions := s.m.actions + 1, delays := s.m.delays + n } →
    m = { c with settleSda := false, settleScl := false } →
    (s.live = true → s.env.yields = [] → exec (.lDelay n) s = .next { s with m := m }) ∧
    (s.calm = true → ∃ t, Runs (.lDelay n) s t ∧ t.m = m) ∧
    (∀ x y r, s.live = true → s.env.yields = [.drive x y] :: r →
      exec (.lDelay n) s = .next (State.finish none (settle (propagate s
        { s with m := c, env := { s.env with extSda := x, extScl := y, yields := r } }))))

/-- The settle flag of a line is 1 after an L.SETDIR of that line and 0 after every other command that ends
(41_line_and_edge.md R124). -/
def Obligations.SettleFlagAfterCommand : Prop :=
  ∀ (i : Instr) (s t : State), i.isCommand = true → s.m.cfg.isSome = true → exec i s = .next t → t.live = true →
    ∀ l, t.m.settleFlag l = true ↔ ∃ d, i = .lSetdir l d

/-! ### The shift register and the address conditions -/

/-- The commands on the master's Fifo8: F.SHIFT returns the bit evicted from the high end and inserts its operand at the
low end, F.RESET zeroes the register, F.LOAD sets it, F.READ returns it; nothing else of the block changes but the
settle flags (40_fifo_and_address.md R100 to R103). -/
def Obligations.FifoCommands : Prop :=
  HasWord .fReset 0x0000 ∧ HasWord (.fShift false) 0x0100 ∧ HasWord (.fShift true) 0x0101 ∧
  (∀ v : Byte, HasWord (.fLoad v) (0x0200 ||| v.setWidth 16)) ∧ HasWord .fRead 0x0300 ∧
  MustBeZero 0x00 0xFF ∧ MustBeZero 0x01 0xFE ∧ MustBeZero 0x03 0xFF ∧
  ∀ (s : State) (m : Master), s.live = true → s.m.cfg.isSome = true →
    m = { s.m with settleSda := false, settleScl := false } →
    (∀ b, exec (.fShift b) s = .next
      { s with m := { m with fifo := (s.m.fifo.setWidth 7).concat b, result := zext1 (s.m.fifo.getLsbD 7) } }) ∧
    exec .fReset s = .next { s with m := { m with fifo := 0 } } ∧
    (∀ v, exec (.fLoad v) s = .next { s with m := { m with fifo := v } }) ∧
    exec .fRead s = .next { s with m := { m with result := s.m.fifo } }

/-- Eight shifts assemble a byte with the first bit as its most significant, whatever the register held; eight shifts of
0 return a byte's bits from the most significant down and leave 0 (40_fifo_and_address.md R104, R105). -/
def Obligations.ShiftRoundTrip : Prop :=
  (∀ (f : Byte) (b1 b2 b3 b4 b5 b6 b7 b8 : Bool),
    bitsMsbFirst ([b1, b2, b3, b4, b5, b6, b7, b8].foldl Fifo.shiftIn f) = [b1, b2, b3, b4, b5, b6, b7, b8]) ∧
  (∀ v : Byte,
    (∀ k, k < 8 → Fifo.evicted ((List.replicate k false).foldl Fifo.shiftIn v) = v.getLsbD (7 - k)) ∧
    (List.replicate 8 false).foldl Fifo.shiftIn v = 0)

/-- The two match values of an address are its byte for a write and its byte for a read, one bit apart and never equal,
and the match of a byte is what they say (40_fifo_and_address.md R106, R107, R108). -/
def Obligations.AddressConditions : Prop :=
  (∀ a : Addr,
    receiveCondOf a = a.concat false ∧ transmitCondOf a = a.concat true ∧
    receiveCondOf a ^^^ transmitCondOf a = 1 ∧ receiveCondOf a ≠ transmitCondOf a ∧
    receiveCondOf a >>> 1 = a.setWidth 8 ∧ transmitCondOf a >>> 1 = a.setWidth 8) ∧
  (∀ (v : Slave) (byte : Byte),
    (byte = v.transmitCond → v.matchAddr byte = some .transmitting) ∧
    (byte ≠ v.transmitCond → byte = v.receiveCond → v.matchAddr byte = some .receiving) ∧
    (byte ≠ v.transmitCond → byte ≠ v.receiveCond → v.matchAddr byte = none))

/-! ### Master commands -/

/-- M.START, M.STOP and M.WRITE_BIT run their sequences of line actions in order, and leave the latches, the phase and
the counts they give; nothing else of the master changes (42_master.md R152, R153, R154). -/
def Obligations.StartStopAndWriteBit : Prop :=
  HasWord .mStart 0x2000 ∧ HasWord .mStop 0x2100 ∧ HasWord (.mWriteBit false) 0x2200 ∧
  HasWord (.mWriteBit true) 0x2201 ∧ MustBeZero 0x20 0xFF ∧ MustBeZero 0x21 0xFF ∧ MustBeZero 0x22 0xFE ∧
  RefusedInHandler .mStart ∧ RefusedInHandler .mStop ∧ (∀ b, RefusedInHandler (.mWriteBit b)) ∧
  ∀ (s : State) (m : Master), s.calm = true → s.m.cfg.isSome = true →
    m = { s.m with settleSda := false, settleScl := false } →
    exec .mStart s = .next (State.finish none (setPhase .started
      (lineD 1 (lineW .scl false (lineD 1 (lineW .sda false (lineD 1 (lineW .scl true (lineW .sda true s))))))))) ∧
    (∃ t, Runs .mStart s t ∧
      t.m = { m with sdaLatch := false, sclLatch := false, phase := .started, actions := s.m.actions + 7,
                     delays := s.m.delays + 3 }) ∧
    exec .mStop s = .next (State.finish none (setPhase .stopped
      (lineD 1 (lineW .sda true (lineD 1 (lineW .scl true (lineW .sda false s))))))) ∧
    (∃ t, Runs .mStop s t ∧
      t.m = { m with sdaLatch := true, sclLatch := true, phase := .stopped, actions := s.m.actions + 5,
                     delays := s.m.delays + 2 }) ∧
    (∀ b, exec (.mWriteBit b) s = .next (State.finish none
      (lineD 1 (lineW .scl false (lineD 1 (lineW .scl true (lineW .sda b s))))))) ∧
    (∀ b, ∃ t, Runs (.mWriteBit b) s t ∧
      t.m = { m with sdaLatch := b, sclLatch := false, actions := s.m.actions + 5, delays := s.m.delays + 2 })

/-- M.READ_BIT releases SDA, gives one clock pulse, and returns the level of SDA sampled in the high phase
(42_master.md R155). -/
def Obligations.ReadBitSamplesHighPhase : Prop :=
  HasWord .mReadBit 0x2300 ∧ MustBeZero 0x23 0xFF ∧ RefusedInHandler .mReadBit ∧
  ∀ (s high : State), s.calm = true → s.m.cfg.isSome = true → high = lineD 1 (lineW .scl true (lineW .sda true s)) →
    exec .mReadBit s =
      .next (State.finish none (setResult (zext1 (high.wire .sda)) (lineD 1 (lineW .scl false high)))) ∧
    ∃ t, Runs .mReadBit s t ∧
      t.m = { s.m with sdaLatch := true, sclLatch := false, result := zext1 (high.wire .sda),
                       settleSda := false, settleScl := false, actions := s.m.actions + 5,
                       delays := s.m.delays + 2 }

/-- M.WRITE_BYTE writes the byte's bits from the most significant down and reads one acknowledge, which is the result and
the last acknowledge; one attempt, 45 line actions (42_master.md R156). -/
def Obligations.WriteByteReturnsAcknowledge : Prop :=
  (∀ v : Byte, HasWord (.mWriteByte v) (0x2400 ||| v.setWidth 16)) ∧ (∀ v, RefusedInHandler (.mWriteByte v)) ∧
  ∀ (v : Byte) (s sent high : State) (ack : Bool), s.calm = true → s.m.cfg.isSome = true →
    sent = [7, 6, 5, 4, 3, 2, 1, 0].foldl (fun t k => writeBit (v.getLsbD k) t) s →
    high = lineD 1 (lineW .scl true (lineW .sda true sent)) → ack = !high.wire .sda →
      writeByte v s = (setLastAck ack (lineD 1 (lineW .scl false high)), ack) ∧
      exec (.mWriteByte v) s = .next (State.finish none (setResult (zext1 ack) (writeByte v s).1)) ∧
      ∃ t, Runs (.mWriteByte v) s t ∧
        t.m = { s.m with sdaLatch := true, sclLatch := false, lastAck := ack, result := zext1 ack,
                         settleSda := false, settleScl := false, actions := s.m.actions + 45,
                         delays := s.m.delays + 18 }

/-- M.READ_BYTE switches SDA to input, assembles eight samples in the master's Fifo8 with the first as the most
significant bit, restores SDA to output, and drives an acknowledge or, for the last byte, a stop condition; 39 line
actions (42_master.md R157). -/
def Obligations.ReadByteAssemblesSamples : Prop :=
  HasWord (.mReadByte false) 0x2500 ∧ HasWord (.mReadByte true) 0x2501 ∧ MustBeZero 0x25 0xFE ∧
  (∀ z, RefusedInHandler (.mReadByte z)) ∧
  ∀ (z : Bool) (s clocked : State) (v : Byte), s.calm = true → s.m.cfg.isSome = true →
    clocked = lineSetDir .sda .out (readShifts 8 (setFifo 0 (lineSetDir .sda .inp s))) →
    v = (readSamples s).foldl Fifo.shiftIn 0 →
      readByte z s = (if z then stopCondition clocked else writeBit false clocked) ∧
      exec (.mReadByte z) s = .next (State.finish none (setResult v (readByte z s))) ∧
      ∃ t, Runs (.mReadByte z) s t ∧
        t.m = { s.m with fifo := v, result := v,
                         sdaDir := .out, sdaLatch := z, sclLatch := z,
                         phase := if z then .stopped else s.m.phase, settleSda := false, settleScl := false,
                         actions := s.m.actions + 39, delays := s.m.delays + 18 }

/-- M.START_COMM makes a start condition, writes the address from its most significant bit down and the direction bit,
reads the acknowledge, and sets the phase to the master's direction whether or not it was acknowledged
(42_master.md R158). -/
def Obligations.StartCommunication : Prop :=
  (∀ a : Addr, HasWord (.mStartComm a false) (0x2600 ||| a.setWidth 16 <<< 1) ∧
    HasWord (.mStartComm a true) (0x2601 ||| a.setWidth 16 <<< 1)) ∧
  (∀ a r, RefusedInHandler (.mStartComm a r)) ∧
  ∀ (a : Addr) (r : Bool) (s sent high : State) (ack : Bool), s.calm = true → s.m.cfg.isSome = true →
    sent = writeBit r ([6, 5, 4, 3, 2, 1, 0].foldl (fun t k => writeBit (a.getLsbD k) t)
      (setPhase .addressPhase (startCondition s))) →
    high = lineD 1 (lineW .scl true (lineW .sda true sent)) → ack = !high.wire .sda →
      startCommunication a r s = (setPhase (if r then .receiving else .transmitting)
        (setLastAck ack (lineD 1 (lineW .scl false high))), ack) ∧
      exec (.mStartComm a r) s = .next (State.finish none (setResult (zext1 ack) (startCommunication a r s).1)) ∧
      ∃ t, Runs (.mStartComm a r) s t ∧
        t.m = { s.m with sdaLatch := true, sclLatch := false, lastAck := ack, result := zext1 ack,
                         phase := if r then .receiving else .transmitting, settleSda := false, settleScl := false,
                         actions := s.m.actions + 52, delays := s.m.delays + 21 }

/-- M.SETLEN sets the payload length, or raises F6 with it where the buffer is shorter, and takes no line action
(42_master.md R159). -/
def Obligations.SetPayloadLength : Prop :=
  (∀ n, n < 256 → HasWord (.mSetlen n) (0x2700 ||| BitVec.ofNat 16 n)) ∧ (∀ n, RefusedInHandler (.mSetlen n)) ∧
  ∀ (n : Nat) (s : State), n < 256 → s.live = true → s.m.cfg.isSome = true →
    (s.params.bufSize < n → exec (.mSetlen n) s = .next (s.raise .badLength n)) ∧
    (n ≤ s.params.bufSize → ∃ k : BitVec 8, k.toNat = n ∧ exec (.mSetlen n) s = .next
      { s with m := { s.m with len := k, settleSda := false, settleScl := false } })

/-- M.WRITE_BYTES raises F8 with the first unwritten index before any line action; otherwise it retries the address and
then each byte of the buffer in rising index, and ends with a stop. Its status is Ok where every retried step was
acknowledged in the end and AckFailed otherwise; each step has 1 to 3 attempts, and AckFailed means that some step used
all three (42_master.md R160, R163, R164; 20_memory.md R66). -/
def Obligations.WritePayload : Prop :=
  ∀ (a : Addr) (s : State), s.calm = true → s.m.cfg.isSome = true →
    (∀ i, i < s.m.len.toNat → s.memRead i = none → (∀ j, j < i → s.memRead j ≠ none) →
      exec (.mWriteBytes a) s = .next (s.raise .unwrittenBuffer i)) ∧
    ((∀ i, i < s.m.len.toNat → s.memRead i ≠ none) →
      ∃ (data : List Byte) (sent : State × Bool) (t : State) (k : Nat) (ks : List Nat),
        data.length = s.m.len.toNat ∧ (∀ i, i < s.m.len.toNat → data[i]? = s.memRead i) ∧
        sent = data.foldl (fun r v => ((attempts (writeByte v) Config.maxAttempts r.1).1,
            r.2 && (attempts (writeByte v) Config.maxAttempts r.1).2))
          (attempts (startCommunication a false) Config.maxAttempts s) ∧
        t = State.finish none (setStatus (if sent.2 then .ok else .ackFailed) (stopCondition sent.1)) ∧
        Runs (.mWriteBytes a) s t ∧ t.m.status = (if sent.2 then .ok else .ackFailed) ∧
        1 ≤ k ∧ k ≤ 3 ∧ ks.length = s.m.len.toNat ∧ (∀ x ∈ ks, 1 ≤ x ∧ x ≤ 3) ∧
        (t.m.status = .ackFailed → k = 3 ∨ 3 ∈ ks) ∧
        t.m = { s.m with sdaLatch := true, sclLatch := true, phase := .stopped, status := t.m.status,
                         lastAck := t.m.lastAck, settleSda := false, settleScl := false,
                         actions := s.m.actions + 52 * k + 45 * ks.sum + 5,
                         delays := s.m.delays + 21 * k + 18 * ks.sum + 2 })

/-- A retried step is attempted at least once and at most three times, again only after an attempt that returned 0, and
its outcome is that of its last attempt, which is 0 exactly where all three returned 0 (42_master.md R163). -/
def Obligations.AttemptsAreBounded : Prop :=
  ∀ (f : State → State × Bool) (s : State), ∃ k, 1 ≤ k ∧ k ≤ 3 ∧
    (attempts f Config.maxAttempts s).1 = (fun x => (f x).1)^[k] s ∧
    (attempts f Config.maxAttempts s).2 = (f ((fun x => (f x).1)^[k - 1] s)).2 ∧
    (∀ j, j + 1 < k → (f ((fun x => (f x).1)^[j] s)).2 = false) ∧
    (k < 3 → (attempts f Config.maxAttempts s).2 = true) ∧
    ((attempts f Config.maxAttempts s).2 = false ↔ ∀ j, j < 3 → (f ((fun x => (f x).1)^[j] s)).2 = false)

/-- M.READ_BYTES retries the address and reads `len` bytes into the buffer in rising index, each the eight samples of its
`read_byte`, the last with a stop, or stops at once where the length is 0; it leaves every other byte alone, its status
is that of the address, and it ends in phase Stopped (42_master.md R161, R163, R164). `x i` is the state before byte `i`
is read. -/
def Obligations.ReadPayload : Prop :=
  ∀ (a : Addr) (s : State) (n : Nat), s.calm = true → s.m.cfg.isSome = true → n = s.m.len.toNat →
    n ≤ s.params.bufSize →
      ∃ (t : State) (x : Nat → State) (ack : Bool) (k : Nat),
        attempts (startCommunication a true) Config.maxAttempts s = (x 0, ack) ∧
        (∀ i, i < n → x (i + 1) =
          State.memWrite i ((readSamples (x i)).foldl Fifo.shiftIn 0) (readByte (decide (i + 1 = n)) (x i))) ∧
        t = State.finish none (setStatus (if ack then .ok else .ackFailed)
          (if n = 0 then stopCondition (x 0) else x n)) ∧
        exec (.mReadBytes a) s = .next t ∧ t.calm = true ∧ KeepsConfiguration s t ∧ t.snap = s.snap ∧
        t.env.inputs = s.env.inputs ∧ t.env.hostRead = s.env.hostRead ∧
        (∀ i, i < n → t.memRead i = some ((readSamples (x i)).foldl Fifo.shiftIn 0)) ∧
        (∀ i, n ≤ i → t.memRead i = s.memRead i) ∧
        (0 < n → t.memRead (n - 1) = some t.m.fifo) ∧ (n = 0 → t.m.fifo = s.m.fifo) ∧
        1 ≤ k ∧ k ≤ 3 ∧ (ack = false → k = 3) ∧ t.m.lastAck = ack ∧
        t.m = { s.m with sdaLatch := true, sclLatch := true,
                         sdaDir := if n = 0 then s.m.sdaDir else .out, phase := .stopped,
                         status := if ack then .ok else .ackFailed, lastAck := t.m.lastAck, fifo := t.m.fifo,
                         buf := t.m.buf, settleSda := false, settleScl := false,
                         actions := s.m.actions + 52 * k + (if n = 0 then 5 else 39 * n),
                         delays := s.m.delays + 21 * k + (if n = 0 then 2 else 18 * n) }

/-- With no device on the bus and SDA pulled by nobody, a write of n bytes makes exactly 3 address attempts and 3n byte
attempts and a read fills its bytes with 0xFF; both end with a stop, AckFailed, and no fault (42_master.md R160 to R163;
70_reset_and_hazards.md R350). -/
def Obligations.AbsentDevice : Prop :=
  ∀ (a : Addr) (s : State), NoDevice s → s.m.len.toNat ≤ s.params.bufSize →
    ((∀ i, i < s.m.len.toNat → s.memRead i ≠ none) →
      ∃ t, exec (.mWriteBytes a) s = .next t ∧ t.fault = none ∧
        t.m = { s.m with sdaLatch := true, sclLatch := true, phase := .stopped, status := .ackFailed,
                         lastAck := false, settleSda := false, settleScl := false,
                         actions := s.m.actions + 3 * 52 + 3 * 45 * s.m.len.toNat + 5,
                         delays := s.m.delays + 63 + 54 * s.m.len.toNat + 2 }) ∧
    (∃ t, exec (.mReadBytes a) s = .next t ∧ t.fault = none ∧ t.m.status = .ackFailed ∧ t.m.lastAck = false ∧
      t.m.phase = .stopped ∧ ∀ i, i < s.m.len.toNat → t.memRead i = some 0xFF)

/-- The phase after each command (42_master.md R166). -/
def Obligations.PhaseAfterCommand : Prop :=
  ∀ (i : Instr) (s t : State), i.isCommand = true → s.calm = true → s.m.cfg.isSome = true → exec i s = .next t →
    t.fault = none → t.m.phase =
      match i with
      | .mStart => .started
      | .mStop => .stopped
      | .mStartComm _ r => if r then .receiving else .transmitting
      | .mWriteBytes _ => .stopped
      | .mReadBytes _ => .stopped
      | .mReadByte z => if z then .stopped else s.m.phase
      | _ => s.m.phase

/-! ### Queries and the host's accesses -/

/-- Q.SNAP reads every field of one instance at once, or raises F9 where there is no such instance; Q.STATUS returns
phase, last acknowledge and status in one byte, encoded as 10_state.md R20 and R23 have them; neither changes anything
else but the settle flags (45_dispatch.md R268, R269). -/
def Obligations.Queries : Prop :=
  (∀ k, k < 256 → HasWord (.qSnap k) (0x4000 ||| BitVec.ofNat 16 k)) ∧ HasWord .qStatus 0x4100 ∧
  MustBeZero 0x41 0xFF ∧ RefusedInHandler .qStatus ∧ (∀ k, RefusedInHandler (.qSnap k)) ∧
  [Proto.idle, .started, .addressPhase, .transmitting, .receiving, .stopped].map Proto.enc4 = [0, 1, 2, 3, 4, 5] ∧
  [Status.ok, .ackFailed, .busError].map Status.enc2 = [0, 1, 2] ∧
  ∀ (s : State) (m : Master), s.live = true → m = { s.m with settleSda := false, settleScl := false } →
    (∀ k, s.registry.length ≤ k → exec (.qSnap k) s = .next (s.raise .badInstance k)) ∧
    (∀ k v, s.registry[k]? = some (.slave v) → exec (.qSnap k) s = .next
      { s with
        m := m
        snap := some (.slave v.proto v.ack v.ackSlot v.bitCounter v.fifo v.sdaLvl v.sclLvl v.sdaDrv) }) ∧
    (∀ k n, s.registry[k]? = some (.sniffer n) → exec (.qSnap k) s = .next
      { s with
        m := m
        snap := some (.sniffer n.proto n.ack n.groupPos n.fifo n.predicted n.addr n.sdaLvl n.sclLvl) }) ∧
    (s.m.cfg.isSome = true → ∃ r : Byte,
      r.toNat = s.m.phase.enc4.toNat * 16 + (if s.m.lastAck then 4 else 0) + s.m.status.enc2.toNat ∧
      exec .qStatus s = .next { s with m := { m with result := r } })

/-- The host's MemWrite between commands writes one byte of the buffer and nothing else; its MemRead returns a written
byte, and raises F8 with the index where the byte holds no value (20_memory.md R62; entry 30; in a block without a
master, entry 14). -/
def Obligations.HostBufferAccess : Prop :=
  ∀ (s : State) (i : Nat) (r : List Input), s.live = true → s.events = [] →
    (∀ v, s.env.inputs = .memWrite i v :: r → i < s.params.bufSize →
      ∃ t b, step s = .next t ∧
        t = { s with m := { s.m with buf := b }, env := { s.env with inputs := r } } ∧
        ∀ j, t.memRead j = if j = i then some v else s.memRead j) ∧
    (∀ v, s.env.inputs = .memRead i :: r → s.memRead i = some v →
      step s = .next { s with env := { s.env with inputs := r, hostRead := some v } }) ∧
    (s.env.inputs = .memRead i :: r → s.memRead i = none →
      step s = .next (State.raise .unwrittenBuffer i { s with env := { s.env with inputs := r } }))

/-! ### Frames over all commands and steps -/

/-- A live block answers every command with a next state (M.READ_BYTES where the length fits the buffer): the command has
ended, or has stopped on the way at a callback that issues a command or never returns, or at engines that do not come to
rest (entries 9, 10, 22). Each leaves alone what its rule does not write: the configuration, the snapshot, the buffer,
the length, the status, the last acknowledge, the result, the Fifo8, the latches and the directions (42_master.md R150;
10_state.md R38 to R46; in a block without a master, entry 14). -/
def Obligations.CommandsEndAndKeepTheRest : Prop :=
  ∀ (i : Instr) (s : State), i.isCommand = true → s.live = true →
    ((∀ a, i = .mReadBytes a → s.m.len.toNat ≤ s.params.bufSize) → ∃ t, exec i s = .next t) ∧
    ∀ t, exec i s = .next t →
      KeepsConfiguration s t ∧ t.env.inputs = s.env.inputs ∧ t.env.hostRead = s.env.hostRead ∧
      ((∀ k, i ≠ .qSnap k) → t.snap = s.snap) ∧
      ((∀ a, i ≠ .mReadBytes a) → ∀ x, t.memRead x = s.memRead x) ∧
      ((∀ n, i ≠ .mSetlen n) → t.m.len = s.m.len) ∧
      ((∀ a, i ≠ .mWriteBytes a ∧ i ≠ .mReadBytes a) → t.m.status = s.m.status) ∧
      ((∀ a v r, i ≠ .mWriteByte v ∧ i ≠ .mStartComm a r ∧ i ≠ .mWriteBytes a ∧ i ≠ .mReadBytes a) →
        t.m.lastAck = s.m.lastAck) ∧
      ((∀ l b a v, i ≠ .fShift b ∧ i ≠ .fRead ∧ i ≠ .lRead l ∧ i ≠ .mReadBit ∧ i ≠ .mReadByte b ∧
          i ≠ .mWriteByte v ∧ i ≠ .mStartComm a b ∧ i ≠ .qStatus) →
        t.m.result = s.m.result) ∧
      ((∀ b v a, i ≠ .fReset ∧ i ≠ .fShift b ∧ i ≠ .fLoad v ∧ i ≠ .mReadByte b ∧ i ≠ .mReadBytes a) →
        t.m.fifo = s.m.fifo) ∧
      ((∀ l d b a, i ≠ .lSetdir l d ∧ i ≠ .mReadByte b ∧ i ≠ .mReadBytes a) →
        t.m.sdaDir = s.m.sdaDir ∧ t.m.sclDir = s.m.sclDir) ∧
      ((∀ l b a v, i ≠ .lWrite l b ∧ i ≠ .mStart ∧ i ≠ .mStop ∧ i ≠ .mWriteBit b ∧ i ≠ .mReadBit ∧
          i ≠ .mWriteByte v ∧ i ≠ .mReadByte b ∧ i ≠ .mStartComm a b ∧ i ≠ .mWriteBytes a ∧ i ≠ .mReadBytes a) →
        t.m.sdaLatch = s.m.sdaLatch ∧ t.m.sclLatch = s.m.sclLatch)

/-- The callback record and the frame record only grow, but for a new configuration (10_state.md R51, R52). -/
def Obligations.RecordsOnlyGrow : Prop :=
  ∀ s t : State, (∀ c r, s.env.inputs ≠ .configure c :: r) → step s = .next t →
    ∃ cs fs, t.callbacks = s.callbacks ++ cs ∧ t.frames = s.frames ++ fs

/-! ### Invariants and headline results -/

/-- The invariant holds after reset (10_state.md R55; the configuration is the model's choice, entry 1). -/
def Obligations.InvariantAtReset : Prop := State.reset.Inv

/-- The invariant is kept by every step: the registry fits and its pins are distinct, the context is Interrupt between
steps only while a callback has not returned, every pending notification has a number below the next change's, the
buffer keeps its canonical form, and every instance stays in a state its rules reach (10_state.md R26, R34, R36;
44_sniffer.md R248; 60_exceptions.md R296, R299). -/
def Obligations.InvariantKeptByEveryStep : Prop := ∀ s t : State, s.Inv → step s = .next t → t.Inv

/-- Assumption A1: where every event is processed, no callback misbehaves and no SCL pin is on wire SDA, each line action
and each command ends with every event processed and all this as before (00_scope.md R13; entries 14, 22, 26). Each
pending event is processed by its own event step, which is what its event word does, in the order in which events are
taken. -/
def Obligations.EnginesReactBeforeTheNextCommand : Prop :=
  (∀ (s : State), s.reactive = true →
    (s.events = [] → settle s = s) ∧
    (s.events ≠ [] → ∃ e s', s.takeEvent = some (e, s') ∧ settle s = settle (event e.pin e.level s'))) ∧
  (∀ (s : State) (pin : Pin) (level : Level), Processing s → s.ownerStuck pin = false →
    exec (.evLine pin level) s = .next (event pin level s)) ∧
  (∀ s : State, s.calm = true →
    (∀ l v, (lineW l v s).calm = true) ∧ (∀ l d, (lineSetDir l d s).calm = true) ∧ ∀ n, (lineD n s).calm = true) ∧
  ∀ (i : Instr) (s t : State), i.isCommand = true → s.calm = true → exec i s = .next t → t.fault = none →
    t.calm = true

/-- A slave alone on the bus acknowledges the address byte exactly when it holds its address, and is then in the
direction the master asked for; otherwise it is Idle (42_master.md R158; 43_slave.md R193, R198, R201, R202). -/
def Obligations.AddressedSlaveAcknowledges : Prop :=
  ∀ (s : State) (v : Slave) (a : Addr) (r : Bool), AloneOnBus s v →
    ∃ t v', exec (.mStartComm a r) s = .next t ∧ t.calm = true ∧ t.registry = [.slave v'] ∧
      t.m.lastAck = decide (a = v.addr) ∧ t.m.result = zext1 (decide (a = v.addr)) ∧
      v'.proto = (if a = v.addr then (if r then .transmitting else .receiving) else .idle)

/-- The byte a master writes is the byte a receiving slave's callback gets, with the next byte index, and the master
reads its acknowledge (42_master.md R156; 43_slave.md R197, R201, R204, R207). -/
def Obligations.WrittenByteIsReceived : Prop :=
  ∀ (s : State) (v : Slave) (b : Byte), AloneOnBus s v → s.m.sclLatch = false →
    v.proto = .receiving → v.ack = .none → v.ackSlot = false → v.bitCounter.toNat % 8 = 0 →
      ∃ t v', exec (.mWriteByte b) s = .next t ∧ t.calm = true ∧ t.registry = [.slave v'] ∧
        t.m.lastAck = true ∧ t.m.result = 1 ∧
        t.callbacks = s.callbacks ++ [⟨0, .receive, b, (v.bitCounter + 8).toNat / 8⟩] ∧
        v'.proto = .receiving ∧ v'.ack = .none ∧ v'.ackSlot = false ∧ v'.fifo = b ∧ v'.sdaDrv = true ∧
        v'.bitCounter = v.bitCounter + 8
end

