-- ==== Sys2Proof/Laws/State.lean ====
section
/-! SUPPORT. One lemma for each field of each named update of the state, so that no later proof unfolds one. -/

namespace Sys2Proof.Machine

variable (s : State)

/-! ### `raise` -/

@[simp] theorem raise_params (c : FaultCode) (n : Nat) : (s.raise c n).params = s.params := rfl
@[simp] theorem raise_wiring (c : FaultCode) (n : Nat) : (s.raise c n).wiring = s.wiring := rfl
@[simp] theorem raise_m (c : FaultCode) (n : Nat) : (s.raise c n).m = s.m := rfl
@[simp] theorem raise_registry (c : FaultCode) (n : Nat) : (s.raise c n).registry = s.registry := rfl
@[simp] theorem raise_ctx (c : FaultCode) (n : Nat) : (s.raise c n).ctx = s.ctx := rfl
@[simp] theorem raise_fault (c : FaultCode) (n : Nat) : (s.raise c n).fault = some ⟨c, n⟩ := rfl
@[simp] theorem raise_frames (c : FaultCode) (n : Nat) : (s.raise c n).frames = s.frames := rfl
@[simp] theorem raise_callbacks (c : FaultCode) (n : Nat) : (s.raise c n).callbacks = s.callbacks := rfl
@[simp] theorem raise_snap (c : FaultCode) (n : Nat) : (s.raise c n).snap = s.snap := rfl
@[simp] theorem raise_events (c : FaultCode) (n : Nat) : (s.raise c n).events = s.events := rfl
@[simp] theorem raise_instant (c : FaultCode) (n : Nat) : (s.raise c n).instant = s.instant := rfl
@[simp] theorem raise_unsettled (c : FaultCode) (n : Nat) : (s.raise c n).unsettled = s.unsettled := rfl
@[simp] theorem raise_env (c : FaultCode) (n : Nat) : (s.raise c n).env = s.env := rfl

/-! ### `enterHandler` -/

@[simp] theorem enterHandler_params : (s.enterHandler).params = s.params := rfl
@[simp] theorem enterHandler_wiring : (s.enterHandler).wiring = s.wiring := rfl
@[simp] theorem enterHandler_m : (s.enterHandler).m = s.m := rfl
@[simp] theorem enterHandler_registry : (s.enterHandler).registry = s.registry := rfl
@[simp] theorem enterHandler_ctx : (s.enterHandler).ctx = .interrupt := rfl
@[simp] theorem enterHandler_fault : (s.enterHandler).fault = s.fault := rfl
@[simp] theorem enterHandler_frames : (s.enterHandler).frames = s.frames := rfl
@[simp] theorem enterHandler_callbacks : (s.enterHandler).callbacks = s.callbacks := rfl
@[simp] theorem enterHandler_snap : (s.enterHandler).snap = s.snap := rfl
@[simp] theorem enterHandler_events : (s.enterHandler).events = s.events := rfl
@[simp] theorem enterHandler_instant : (s.enterHandler).instant = s.instant := rfl
@[simp] theorem enterHandler_unsettled : (s.enterHandler).unsettled = s.unsettled := rfl
@[simp] theorem enterHandler_env : (s.enterHandler).env = s.env := rfl

/-! ### `leaveHandler` -/

@[simp] theorem leaveHandler_params : (s.leaveHandler).params = s.params := rfl
@[simp] theorem leaveHandler_wiring : (s.leaveHandler).wiring = s.wiring := rfl
@[simp] theorem leaveHandler_m : (s.leaveHandler).m = s.m := rfl
@[simp] theorem leaveHandler_registry : (s.leaveHandler).registry = s.registry := rfl
@[simp] theorem leaveHandler_ctx : (s.leaveHandler).ctx = if s.registry.any Engine.isStuck then .interrupt else .foreground := rfl
@[simp] theorem leaveHandler_fault : (s.leaveHandler).fault = s.fault := rfl
@[simp] theorem leaveHandler_frames : (s.leaveHandler).frames = s.frames := rfl
@[simp] theorem leaveHandler_callbacks : (s.leaveHandler).callbacks = s.callbacks := rfl
@[simp] theorem leaveHandler_snap : (s.leaveHandler).snap = s.snap := rfl
@[simp] theorem leaveHandler_events : (s.leaveHandler).events = s.events := rfl
@[simp] theorem leaveHandler_instant : (s.leaveHandler).instant = s.instant := rfl
@[simp] theorem leaveHandler_unsettled : (s.leaveHandler).unsettled = s.unsettled := rfl
@[simp] theorem leaveHandler_env : (s.leaveHandler).env = s.env := rfl

/-! ### `putEngine` -/

@[simp] theorem putEngine_params (i : Nat) (e : Engine) : (s.putEngine i e).params = s.params := rfl
@[simp] theorem putEngine_wiring (i : Nat) (e : Engine) : (s.putEngine i e).wiring = s.wiring := rfl
@[simp] theorem putEngine_m (i : Nat) (e : Engine) : (s.putEngine i e).m = s.m := rfl
@[simp] theorem putEngine_registry (i : Nat) (e : Engine) : (s.putEngine i e).registry = s.registry.set i e := rfl
@[simp] theorem putEngine_ctx (i : Nat) (e : Engine) : (s.putEngine i e).ctx = s.ctx := rfl
@[simp] theorem putEngine_fault (i : Nat) (e : Engine) : (s.putEngine i e).fault = s.fault := rfl
@[simp] theorem putEngine_frames (i : Nat) (e : Engine) : (s.putEngine i e).frames = s.frames := rfl
@[simp] theorem putEngine_callbacks (i : Nat) (e : Engine) : (s.putEngine i e).callbacks = s.callbacks := rfl
@[simp] theorem putEngine_snap (i : Nat) (e : Engine) : (s.putEngine i e).snap = s.snap := rfl
@[simp] theorem putEngine_events (i : Nat) (e : Engine) : (s.putEngine i e).events = s.events := rfl
@[simp] theorem putEngine_instant (i : Nat) (e : Engine) : (s.putEngine i e).instant = s.instant := rfl
@[simp] theorem putEngine_unsettled (i : Nat) (e : Engine) : (s.putEngine i e).unsettled = s.unsettled := rfl
@[simp] theorem putEngine_env (i : Nat) (e : Engine) : (s.putEngine i e).env = s.env := rfl

/-! ### `recordCall` -/

@[simp] theorem recordCall_params (i : Nat) (c : Call) : (s.recordCall i c).params = s.params := rfl
@[simp] theorem recordCall_wiring (i : Nat) (c : Call) : (s.recordCall i c).wiring = s.wiring := rfl
@[simp] theorem recordCall_m (i : Nat) (c : Call) : (s.recordCall i c).m = s.m := rfl
@[simp] theorem recordCall_registry (i : Nat) (c : Call) : (s.recordCall i c).registry = s.registry := rfl
@[simp] theorem recordCall_ctx (i : Nat) (c : Call) : (s.recordCall i c).ctx = s.ctx := rfl
@[simp] theorem recordCall_fault (i : Nat) (c : Call) : (s.recordCall i c).fault = s.fault := rfl
@[simp] theorem recordCall_frames (i : Nat) (c : Call) : (s.recordCall i c).frames = s.frames := rfl
@[simp] theorem recordCall_callbacks (i : Nat) (c : Call) : (s.recordCall i c).callbacks = s.callbacks ++ [⟨i, c.kind, c.byte, c.index⟩] := rfl
@[simp] theorem recordCall_snap (i : Nat) (c : Call) : (s.recordCall i c).snap = s.snap := rfl
@[simp] theorem recordCall_events (i : Nat) (c : Call) : (s.recordCall i c).events = s.events := rfl
@[simp] theorem recordCall_instant (i : Nat) (c : Call) : (s.recordCall i c).instant = s.instant := rfl
@[simp] theorem recordCall_unsettled (i : Nat) (c : Call) : (s.recordCall i c).unsettled = s.unsettled := rfl
@[simp] theorem recordCall_env (i : Nat) (c : Call) : (s.recordCall i c).env = s.env := rfl

/-! ### `emit` -/

@[simp] theorem emit_params (f : Option Frame) : (s.emit f).params = s.params := rfl
@[simp] theorem emit_wiring (f : Option Frame) : (s.emit f).wiring = s.wiring := rfl
@[simp] theorem emit_m (f : Option Frame) : (s.emit f).m = s.m := rfl
@[simp] theorem emit_registry (f : Option Frame) : (s.emit f).registry = s.registry := rfl
@[simp] theorem emit_ctx (f : Option Frame) : (s.emit f).ctx = s.ctx := rfl
@[simp] theorem emit_fault (f : Option Frame) : (s.emit f).fault = s.fault := rfl
@[simp] theorem emit_frames (f : Option Frame) : (s.emit f).frames = s.frames ++ f.toList := rfl
@[simp] theorem emit_callbacks (f : Option Frame) : (s.emit f).callbacks = s.callbacks := rfl
@[simp] theorem emit_snap (f : Option Frame) : (s.emit f).snap = s.snap := rfl
@[simp] theorem emit_events (f : Option Frame) : (s.emit f).events = s.events := rfl
@[simp] theorem emit_instant (f : Option Frame) : (s.emit f).instant = s.instant := rfl
@[simp] theorem emit_unsettled (f : Option Frame) : (s.emit f).unsettled = s.unsettled := rfl
@[simp] theorem emit_env (f : Option Frame) : (s.emit f).env = s.env := rfl

/-! ### `dropInput` -/

@[simp] theorem dropInput_params : (s.dropInput).params = s.params := rfl
@[simp] theorem dropInput_wiring : (s.dropInput).wiring = s.wiring := rfl
@[simp] theorem dropInput_m : (s.dropInput).m = s.m := rfl
@[simp] theorem dropInput_registry : (s.dropInput).registry = s.registry := rfl
@[simp] theorem dropInput_ctx : (s.dropInput).ctx = s.ctx := rfl
@[simp] theorem dropInput_fault : (s.dropInput).fault = s.fault := rfl
@[simp] theorem dropInput_frames : (s.dropInput).frames = s.frames := rfl
@[simp] theorem dropInput_callbacks : (s.dropInput).callbacks = s.callbacks := rfl
@[simp] theorem dropInput_snap : (s.dropInput).snap = s.snap := rfl
@[simp] theorem dropInput_events : (s.dropInput).events = s.events := rfl
@[simp] theorem dropInput_instant : (s.dropInput).instant = s.instant := rfl
@[simp] theorem dropInput_unsettled : (s.dropInput).unsettled = s.unsettled := rfl
@[simp] theorem dropInput_env : (s.dropInput).env = { s.env with inputs := s.env.inputs.tail } := rfl

/-! ### Conditional updates: the master alone may differ -/

@[simp] theorem upd_params (f : Master → Master) : (s.upd f).params = s.params := by
  simp only [State.upd]; split <;> rfl
@[simp] theorem upd_wiring (f : Master → Master) : (s.upd f).wiring = s.wiring := by
  simp only [State.upd]; split <;> rfl
@[simp] theorem upd_registry (f : Master → Master) : (s.upd f).registry = s.registry := by
  simp only [State.upd]; split <;> rfl
@[simp] theorem upd_ctx (f : Master → Master) : (s.upd f).ctx = s.ctx := by
  simp only [State.upd]; split <;> rfl
@[simp] theorem upd_fault (f : Master → Master) : (s.upd f).fault = s.fault := by
  simp only [State.upd]; split <;> rfl
@[simp] theorem upd_frames (f : Master → Master) : (s.upd f).frames = s.frames := by
  simp only [State.upd]; split <;> rfl
@[simp] theorem upd_callbacks (f : Master → Master) : (s.upd f).callbacks = s.callbacks := by
  simp only [State.upd]; split <;> rfl
@[simp] theorem upd_snap (f : Master → Master) : (s.upd f).snap = s.snap := by
  simp only [State.upd]; split <;> rfl
@[simp] theorem upd_events (f : Master → Master) : (s.upd f).events = s.events := by
  simp only [State.upd]; split <;> rfl
@[simp] theorem upd_instant (f : Master → Master) : (s.upd f).instant = s.instant := by
  simp only [State.upd]; split <;> rfl
@[simp] theorem upd_unsettled (f : Master → Master) : (s.upd f).unsettled = s.unsettled := by
  simp only [State.upd]; split <;> rfl
@[simp] theorem upd_env (f : Master → Master) : (s.upd f).env = s.env := by
  simp only [State.upd]; split <;> rfl

@[simp] theorem finish_params (l : Option Line) : (s.finish l).params = s.params := by
  simp only [State.finish, State.upd]; split <;> rfl
@[simp] theorem finish_wiring (l : Option Line) : (s.finish l).wiring = s.wiring := by
  simp only [State.finish, State.upd]; split <;> rfl
@[simp] theorem finish_registry (l : Option Line) : (s.finish l).registry = s.registry := by
  simp only [State.finish, State.upd]; split <;> rfl
@[simp] theorem finish_ctx (l : Option Line) : (s.finish l).ctx = s.ctx := by
  simp only [State.finish, State.upd]; split <;> rfl
@[simp] theorem finish_fault (l : Option Line) : (s.finish l).fault = s.fault := by
  simp only [State.finish, State.upd]; split <;> rfl
@[simp] theorem finish_frames (l : Option Line) : (s.finish l).frames = s.frames := by
  simp only [State.finish, State.upd]; split <;> rfl
@[simp] theorem finish_callbacks (l : Option Line) : (s.finish l).callbacks = s.callbacks := by
  simp only [State.finish, State.upd]; split <;> rfl
@[simp] theorem finish_snap (l : Option Line) : (s.finish l).snap = s.snap := by
  simp only [State.finish, State.upd]; split <;> rfl
@[simp] theorem finish_events (l : Option Line) : (s.finish l).events = s.events := by
  simp only [State.finish, State.upd]; split <;> rfl
@[simp] theorem finish_instant (l : Option Line) : (s.finish l).instant = s.instant := by
  simp only [State.finish, State.upd]; split <;> rfl
@[simp] theorem finish_unsettled (l : Option Line) : (s.finish l).unsettled = s.unsettled := by
  simp only [State.finish, State.upd]; split <;> rfl
@[simp] theorem finish_env (l : Option Line) : (s.finish l).env = s.env := by
  simp only [State.finish, State.upd]; split <;> rfl

@[simp] theorem memWrite_params (i : Nat) (v : Byte) : (s.memWrite i v).params = s.params := by
  simp only [State.memWrite]; split <;> rfl
@[simp] theorem memWrite_wiring (i : Nat) (v : Byte) : (s.memWrite i v).wiring = s.wiring := by
  simp only [State.memWrite]; split <;> rfl
@[simp] theorem memWrite_registry (i : Nat) (v : Byte) : (s.memWrite i v).registry = s.registry := by
  simp only [State.memWrite]; split <;> rfl
@[simp] theorem memWrite_ctx (i : Nat) (v : Byte) : (s.memWrite i v).ctx = s.ctx := by
  simp only [State.memWrite]; split <;> rfl
@[simp] theorem memWrite_fault (i : Nat) (v : Byte) : (s.memWrite i v).fault = s.fault := by
  simp only [State.memWrite]; split <;> rfl
@[simp] theorem memWrite_frames (i : Nat) (v : Byte) : (s.memWrite i v).frames = s.frames := by
  simp only [State.memWrite]; split <;> rfl
@[simp] theorem memWrite_callbacks (i : Nat) (v : Byte) : (s.memWrite i v).callbacks = s.callbacks := by
  simp only [State.memWrite]; split <;> rfl
@[simp] theorem memWrite_snap (i : Nat) (v : Byte) : (s.memWrite i v).snap = s.snap := by
  simp only [State.memWrite]; split <;> rfl
@[simp] theorem memWrite_events (i : Nat) (v : Byte) : (s.memWrite i v).events = s.events := by
  simp only [State.memWrite]; split <;> rfl
@[simp] theorem memWrite_instant (i : Nat) (v : Byte) : (s.memWrite i v).instant = s.instant := by
  simp only [State.memWrite]; split <;> rfl
@[simp] theorem memWrite_unsettled (i : Nat) (v : Byte) : (s.memWrite i v).unsettled = s.unsettled := by
  simp only [State.memWrite]; split <;> rfl
@[simp] theorem memWrite_env (i : Nat) (v : Byte) : (s.memWrite i v).env = s.env := by
  simp only [State.memWrite]; split <;> rfl

theorem upd_m {f : Master → Master} (h : s.live = true) : (s.upd f).m = f s.m := by
  simp only [State.upd, h, if_true]

theorem finish_m {l : Option Line} (h : s.live = true) : (s.finish l).m = s.m.settleAfter l := by
  simp only [State.finish, State.upd, h, if_true]

/-! ### Liveness does not look at the rest of the state -/

theorem live_iff : s.live = true ↔ s.fault = none ∧ s.ctx = .foreground ∧ s.unsettled = false := by
  simp [State.live, and_assoc]

/-- Two states with the same fault register, context and rest flag are live together. -/
theorem live_congr {s t : State} (hf : t.fault = s.fault) (hc : t.ctx = s.ctx) (hu : t.unsettled = s.unsettled) :
    t.live = s.live := by
  simp only [State.live, hf, hc, hu]

@[simp] theorem upd_live (f : Master → Master) : (s.upd f).live = s.live := live_congr (by simp) (by simp) (by simp)

@[simp] theorem finish_live (l : Option Line) : (s.finish l).live = s.live := live_congr (by simp) (by simp) (by simp)

@[simp] theorem memWrite_live (i : Nat) (v : Byte) : (s.memWrite i v).live = s.live :=
  live_congr (by simp) (by simp) (by simp)

/-! ### Propagation changes the notifications alone -/

@[simp] theorem propagate_params (t : State) : (propagate s t).params = t.params := by
  simp only [propagate]; split <;> rfl
@[simp] theorem propagate_wiring (t : State) : (propagate s t).wiring = t.wiring := by
  simp only [propagate]; split <;> rfl
@[simp] theorem propagate_m (t : State) : (propagate s t).m = t.m := by
  simp only [propagate]; split <;> rfl
@[simp] theorem propagate_registry (t : State) : (propagate s t).registry = t.registry := by
  simp only [propagate]; split <;> rfl
@[simp] theorem propagate_ctx (t : State) : (propagate s t).ctx = t.ctx := by
  simp only [propagate]; split <;> rfl
@[simp] theorem propagate_fault (t : State) : (propagate s t).fault = t.fault := by
  simp only [propagate]; split <;> rfl
@[simp] theorem propagate_frames (t : State) : (propagate s t).frames = t.frames := by
  simp only [propagate]; split <;> rfl
@[simp] theorem propagate_callbacks (t : State) : (propagate s t).callbacks = t.callbacks := by
  simp only [propagate]; split <;> rfl
@[simp] theorem propagate_snap (t : State) : (propagate s t).snap = t.snap := by
  simp only [propagate]; split <;> rfl
@[simp] theorem propagate_unsettled (t : State) : (propagate s t).unsettled = t.unsettled := by
  simp only [propagate]; split <;> rfl
@[simp] theorem propagate_env (t : State) : (propagate s t).env = t.env := by
  simp only [propagate]; split <;> rfl

@[simp] theorem propagate_live (t : State) : (propagate s t).live = t.live := live_congr (by simp) (by simp) (by simp)

/-- A wire looks at the outputs and at the wiring alone. -/
theorem wire_congr {s t : State} (hm : t.m = s.m) (he : t.env = s.env) (hw : t.wiring = s.wiring)
    (hr : t.registry = s.registry) (l : Line) : t.wire l = s.wire l := by
  simp only [State.wire, hm, he, hw, hr]

@[simp] theorem propagate_wire (t : State) (l : Line) : (propagate s t).wire l = t.wire l :=
  wire_congr (by simp) (by simp) (by simp) (by simp) l

/-- What propagation queues comes after what was pending (41_line_and_edge.md R131). -/
theorem propagate_events (t : State) :
    (propagate s t).events = t.events
      ++ ((if s.wire .sda = t.wire .sda then [] else t.notices .sda)
      ++ (if s.wire .scl = t.wire .scl then [] else t.notices .scl)) := by
  simp only [propagate]
  split
  · next h => simp [h.1, h.2]
  · rfl

/-- Propagation changes the pending events and the number of the next change, and nothing else: rewound to what they were,
the state is the one that was propagated (41_line_and_edge.md R131). -/
theorem propagate_rewind (s t : State) :
    { propagate s t with events := t.events, instant := t.instant } = t := by
  simp only [propagate]
  split <;> rfl

/-- What a step queues that ends with the propagation of a change is read off the wires before and after it. -/
theorem propagate_queues {s t u : State} (hu : u = propagate s t) (he : t.events = s.events)
    (hi : t.instant = s.instant) :
    u.events = (propagate s { u with events := s.events, instant := s.instant }).events ∧
    u.instant = (propagate s { u with events := s.events, instant := s.instant }).instant := by
  subst hu
  rw [← he, ← hi, propagate_rewind]
  exact ⟨rfl, rfl⟩

/-- "An output change that leaves Wire(l) unchanged queues nothing" (41_line_and_edge.md R131). -/
theorem propagate_quiet {s t : State} (h1 : t.wire .sda = s.wire .sda) (h2 : t.wire .scl = s.wire .scl) :
    propagate s t = t := by
  simp only [propagate, h1, h2, and_self, if_true]

end Sys2Proof.Machine
end

