-- ==== Sys2Proof/Laws/Events.lean ====
section
/-! SUPPORT. What an event step can do: it looks up one instance, runs its handler, and touches nothing of the master,
the parameters, the snapshot or the outside world. -/

namespace Sys2Proof.Machine

/-! ### Owners and selection -/

/-- The pin of an instance on the given side. -/
def Engine.pinOf (l : Line) (e : Engine) : Pin :=
  match l with
  | .sda => e.sdaPin
  | .scl => e.sclPin

/-- The owner of a pin has that pin. -/
theorem ownerFrom_spec {r : List Engine} {p : Pin} {k i : Nat} {l : Line} (h : ownerFrom k r p = some (i, l)) :
    k ≤ i ∧ ∃ e, r[i - k]? = some e ∧ e.pinOf l = p := by
  induction r generalizing k with
  | nil => simp [ownerFrom] at h
  | cons e r ih =>
    simp only [ownerFrom] at h
    split at h
    · next hp =>
      obtain ⟨rfl, rfl⟩ := by simpa using h
      exact ⟨le_refl _, e, by simp, hp⟩
    · split at h
      · next hp =>
        obtain ⟨rfl, rfl⟩ := by simpa using h
        exact ⟨le_refl _, e, by simp, hp⟩
      · obtain ⟨hk, e', he, hp⟩ := ih h
        refine ⟨by omega, e', ?_, hp⟩
        have : i - k = (i - (k + 1)) + 1 := by omega
        rw [this, List.getElem?_cons_succ]
        exact he

/-- The owner of a pin is an instance of the registry and has that pin (45_dispatch.md R264). -/
theorem owner_spec {s : State} {p : Pin} {i : Nat} {l : Line} (h : s.owner p = some (i, l)) :
    ∃ e, s.registry[i]? = some e ∧ e.pinOf l = p := by
  obtain ⟨-, e, he, hp⟩ := ownerFrom_spec h
  exact ⟨e, by simpa using he, hp⟩

/-- Two pins of one instance are stuck together. -/
theorem ownerStuck_congr {s : State} {p q : Pin} (h : (s.owner p).map Prod.fst = (s.owner q).map Prod.fst) :
    s.ownerStuck p = s.ownerStuck q := by
  simp only [State.ownerStuck]
  rcases hp : s.owner p with _ | ⟨i, l⟩ <;> rcases hq : s.owner q with _ | ⟨j, k⟩ <;> simp_all

/-- What is selected is the owner, not stuck, with the other level stored. -/
theorem selected_spec {s : State} {p : Pin} {level : Level} {i : Nat} {e : Engine} {l : Line}
    (h : s.selected p level = some (i, e, l)) :
    s.owner p = some (i, l) ∧ s.registry[i]? = some e ∧ e.isStuck = false ∧ e.lvl l ≠ level := by
  simp only [State.selected] at h
  split at h
  · cases h
  · next j l' ho =>
    split at h
    · cases h
    · next e' he =>
      split at h
      · cases h
      · next hc =>
        simp only [Option.some.injEq, Prod.mk.injEq] at h
        obtain ⟨rfl, rfl, rfl⟩ := h
        simp only [Bool.or_eq_true, decide_eq_true_eq, not_or, Bool.not_eq_true] at hc
        exact ⟨ho, he, hc.1, hc.2⟩

/-- A slave is selected by an edge of a pin it owns. -/
theorem SlaveAt.selected {s : State} {p : Pin} {l : Line} {i : Nat} {v : Slave} (h : SlaveAt s p l i v) {level : Level}
    (hl : v.lvl l ≠ level) : s.selected p level = some (i, .slave v, l) := by
  simp [State.selected, h.owner, h.engine, Engine.isStuck, h.moving, Engine.lvl, hl]

/-- A sniffer is selected by an edge of a pin it owns. -/
theorem SnifferAt.selected {s : State} {p : Pin} {l : Line} {i : Nat} {n : Sniffer} (h : SnifferAt s p l i n)
    {level : Level} (hl : n.lvl l ≠ level) : s.selected p level = some (i, .sniffer n, l) := by
  simp [State.selected, h.owner, h.engine, Engine.isStuck, Engine.lvl, hl]

/-! ### Handlers keep the configuration fields, the script and the stuck bit -/

@[simp] theorem slave_store_identity (l : Line) (b : Level) (v : Slave) :
    (Engine.slave (v.store l b)).identity = (Engine.slave v).identity := by cases l <;> rfl

@[simp] theorem slave_store_script (l : Line) (b : Level) (v : Slave) : (v.store l b).script = v.script := by
  cases l <;> rfl

@[simp] theorem slave_store_stuck (l : Line) (b : Level) (v : Slave) : (v.store l b).stuck = v.stuck := by
  cases l <;> rfl

@[simp] theorem slave_store_sdaDrv (l : Line) (b : Level) (v : Slave) : (v.store l b).sdaDrv = v.sdaDrv := by
  cases l <;> rfl

@[simp] theorem sniffer_store_identity (l : Line) (b : Level) (n : Sniffer) :
    (Engine.sniffer (n.store l b)).identity = (Engine.sniffer n).identity := by cases l <;> rfl

/-- What no slave handler changes: the configuration fields, the stored levels, the script and the stuck bit. -/
def Slave.fixed (v : Slave) : (BitVec 1 × Pin × Pin × Option (Addr × Byte × Byte)) × Level × Level × List CbReply × Bool :=
  ((Engine.slave v).identity, v.sdaLvl, v.sclLvl, v.script, v.stuck)

/-- A slave handler changes none of the fixed fields. -/
theorem slaveHandler_fixed (l : Line) (e : Edge) (v : Slave) : (slaveHandler l e v).1.fixed = v.fixed := by
  cases l <;> cases e <;> simp only [slaveHandler]
  · simp only [slaveSdaFall]; split <;> rfl
  · simp only [slaveSdaRise]; split <;> rfl
  · simp only [slaveSclFall]
    repeat' split
    all_goals first
      | rfl
      | (simp only [Slave.transmitPhase]; split <;> rfl)
  · simp only [slaveSclRise]
    repeat' split
    all_goals first
      | rfl
      | (simp only [Slave.addressBit, Slave.addressDone]; repeat' split
         all_goals rfl)
      | (simp only [Slave.receiveBit]; split <;> rfl)

/-- The rest of a handler after its callback changes none of the fixed fields. -/
theorem afterCallback_fixed (k : CbKind) (b : Byte) (v : Slave) : (afterCallback k b v).fixed = v.fixed := by
  cases k <;> rfl

/-- A sniffer handler keeps the configuration fields and the stored levels. -/
theorem snifferHandler_fixed (l : Line) (e : Edge) (tag : Byte) (n : Sniffer) :
    (Engine.sniffer (snifferHandler l e tag n).1).identity = (Engine.sniffer n).identity
      ∧ (snifferHandler l e tag n).1.sdaLvl = n.sdaLvl ∧ (snifferHandler l e tag n).1.sclLvl = n.sclLvl := by
  cases l <;> cases e <;> simp only [snifferHandler]
  · simp only [snifferSdaFall]; split <;> exact ⟨rfl, rfl, rfl⟩
  · simp only [snifferSdaRise]; split <;> exact ⟨rfl, rfl, rfl⟩
  · exact ⟨rfl, rfl, rfl⟩
  · have hc : ∀ m : Sniffer, (Engine.sniffer m.classify).identity = (Engine.sniffer m).identity
        ∧ m.classify.sdaLvl = m.sdaLvl ∧ m.classify.sclLvl = m.sclLvl := by
      intro m; simp only [Sniffer.classify]; split <;> exact ⟨rfl, rfl, rfl⟩
    have hg : ∀ m : Sniffer, (Engine.sniffer m.groupBit).identity = (Engine.sniffer m).identity
        ∧ m.groupBit.sdaLvl = m.sdaLvl ∧ m.groupBit.sclLvl = m.sclLvl := by
      intro m; simp only [Sniffer.groupBit]; split
      · exact hc _
      · exact ⟨rfl, rfl, rfl⟩
    have hk : ∀ m : Sniffer, (Engine.sniffer (m.clock tag).1).identity = (Engine.sniffer m).identity
        ∧ (m.clock tag).1.sdaLvl = m.sdaLvl ∧ (m.clock tag).1.sclLvl = m.sclLvl := by
      intro m; simp only [Sniffer.clock]; repeat' split
      · exact hg m
      · exact ⟨rfl, rfl, rfl⟩
      · exact ⟨rfl, rfl, rfl⟩
    simp only [snifferSclRise]
    split <;> first | exact hk n | exact ⟨rfl, rfl, rfl⟩

/-! ### What an event step leaves alone -/

/-- What no event step changes (45_dispatch.md R266). -/
structure EventFrame (s t : State) : Prop where
  params    : t.params = s.params
  wiring    : t.wiring = s.wiring
  m         : t.m = s.m
  snap      : t.snap = s.snap
  unsettled : t.unsettled = s.unsettled
  env       : t.env = s.env
  registry  : t.registry.map Engine.identity = s.registry.map Engine.identity

theorem EventFrame.refl (s : State) : EventFrame s s := ⟨rfl, rfl, rfl, rfl, rfl, rfl, rfl⟩

theorem EventFrame.trans {s t u : State} (h : EventFrame s t) (k : EventFrame t u) : EventFrame s u :=
  ⟨k.params.trans h.params, k.wiring.trans h.wiring, k.m.trans h.m, k.snap.trans h.snap, k.unsettled.trans h.unsettled,
    k.env.trans h.env, k.registry.trans h.registry⟩

/-- Replacing an instance by one of the same identity keeps the identities. -/
theorem map_identity_set {r : List Engine} {i : Nat} {e e' : Engine} (h : r[i]? = some e)
    (hi : e'.identity = e.identity) : (r.set i e').map Engine.identity = r.map Engine.identity := by
  rw [List.map_set, hi]
  obtain ⟨hlt, rfl⟩ := List.getElem?_eq_some_iff.1 h
  rw [← List.getElem_map Engine.identity (h := by simpa using hlt), List.set_getElem_self]

/-- The invocation of a callback: what it leaves alone. -/
theorem invoke_frame (i : Nat) (v w : Slave) (c : Call) (s : State) (h : s.registry[i]? = some (.slave w))
    (hv : (Engine.slave v).identity = (Engine.slave w).identity) : EventFrame s (invoke i v c s) := by
  have hk : ∀ b (u : Slave), (Engine.slave u).identity = (Engine.slave w).identity →
      (Engine.slave (afterCallback c.kind b u)).identity = (Engine.slave w).identity := fun b u hu =>
    (congrArg Prod.fst (afterCallback_fixed c.kind b u)).trans hu
  simp only [invoke]
  split
  · exact ⟨rfl, rfl, rfl, rfl, rfl, rfl, map_identity_set h (hk _ _ hv)⟩
  · exact ⟨rfl, rfl, rfl, rfl, rfl, rfl, map_identity_set h (hk _ _ hv)⟩
  · exact ⟨rfl, rfl, rfl, rfl, rfl, rfl, map_identity_set h hv⟩
  · exact ⟨rfl, rfl, rfl, rfl, rfl, rfl, map_identity_set h hv⟩

/-- Propagation is part of a step that leaves the frame alone. -/
theorem propagate_frame (s t : State) : EventFrame t (propagate s t) := by
  constructor <;> simp

/-- A slave's step: what it leaves alone. -/
theorem runSlave_frame {l : Line} {e : Edge} {i : Nat} {v w : Slave} {s : State}
    (h : s.registry[i]? = some (.slave w)) (hv : (Engine.slave v).identity = (Engine.slave w).identity) :
    EventFrame s (runSlave (slaveHandler l e) i v s) := by
  have hf := congrArg Prod.fst (slaveHandler_fixed l e v)
  simp only [Slave.fixed] at hf
  simp only [runSlave]
  split
  · next v' hh =>
    rw [hh] at hf
    exact EventFrame.trans (s := s) (t := (s.enterHandler.putEngine i (.slave v')).leaveHandler)
      ⟨rfl, rfl, rfl, rfl, rfl, rfl, map_identity_set h (hf.trans hv)⟩ (propagate_frame s _)
  · next v' c hh =>
    rw [hh] at hf
    exact (EventFrame.trans (s := s) (t := s.enterHandler) ⟨rfl, rfl, rfl, rfl, rfl, rfl, rfl⟩
      (invoke_frame i v' w c s.enterHandler h (hf.trans hv))).trans (propagate_frame s _)

/-- A sniffer's step: what it leaves alone. -/
theorem runSniffer_frame {l : Line} {e : Edge} {i : Nat} {n w : Sniffer} {s : State}
    (h : s.registry[i]? = some (.sniffer w)) (hv : (Engine.sniffer n).identity = (Engine.sniffer w).identity) :
    EventFrame s (runSniffer (snifferHandler l e) i n s) :=
  ⟨rfl, rfl, rfl, rfl, rfl, rfl, map_identity_set h ((snifferHandler_fixed l e _ n).1.trans hv)⟩

/-- An event step: what it leaves alone (45_dispatch.md R266). -/
theorem event_frame (p : Pin) (b : Level) (s : State) : EventFrame s (event p b s) := by
  simp only [event]
  split
  · exact EventFrame.refl s
  · next i v l h => exact runSlave_frame (selected_spec h).2.1 (slave_store_identity l b v)
  · next i n l h => exact runSniffer_frame (selected_spec h).2.1 (sniffer_store_identity l b n)

/-! ### Taking an event -/

/-- What taking an event does: it is pending and eligible, it leaves the list, and at most the scheduling choices
change besides. -/
theorem takeEvent_spec {s s' : State} {e : Pending} (h : s.takeEvent = some (e, s')) :
    e ∈ s.events ∧ s.eligible e = true ∧
      ∃ cs n, s' = { s with events := s.events.erase e, env := { s.env with choices := cs, draws := n } } := by
  simp only [State.takeEvent] at h
  split at h
  · cases h
  · next e' he =>
    simp only [Option.some.injEq, Prod.mk.injEq] at h
    obtain ⟨rfl, rfl⟩ := h
    have hm := List.mem_of_getElem? he
    refine ⟨(List.mem_filter.1 hm).1, (List.mem_filter.1 hm).2, ?_⟩
    simp only [State.choose]
    split
    · exact ⟨s.env.choices, s.env.draws, rfl⟩
    · split
      · next c r hc => exact ⟨r, s.env.draws, rfl⟩
      · next hc => exact ⟨s.env.choices, s.env.draws + 1, rfl⟩

/-- Nothing pending, nothing taken. -/
theorem takeEvent_nil {s : State} (h : s.events = []) : s.takeEvent = none := by
  simp [State.takeEvent, h, State.choose]

/-- The choice among `n > 0` alternatives is one of them. -/
theorem choose_lt {s : State} {n : Nat} (h : 0 < n) : (s.choose n).1 < n := by
  simp only [State.choose]
  split
  · exact h
  · split <;> exact Nat.mod_lt _ h

/-- No event is taken only if none is eligible. -/
theorem takeEvent_none {s : State} (h : s.takeEvent = none) : s.events.filter s.eligible = [] := by
  simp only [State.takeEvent] at h
  split at h
  · next hn =>
    by_contra hne
    have := choose_lt (s := s) (List.length_pos_iff.2 hne)
    rw [List.getElem?_eq_none_iff] at hn
    omega
  · cases h

/-- A list with an event has an earliest one. -/
theorem exists_earliest {es : List Pending} (h : es ≠ []) : ∃ e ∈ es, ∀ e' ∈ es, e.stamp ≤ e'.stamp := by
  induction es with
  | nil => exact absurd rfl h
  | cons x xs ih =>
    by_cases hx : xs = []
    · subst hx; exact ⟨x, List.mem_cons_self, by simp⟩
    · obtain ⟨y, hy, hmin⟩ := ih hx
      by_cases hxy : x.stamp ≤ y.stamp
      · exact ⟨x, List.mem_cons_self, List.forall_mem_cons.2 ⟨le_refl _, fun e' he' => le_trans hxy (hmin e' he')⟩⟩
      · exact ⟨y, List.mem_cons_of_mem _ hy, List.forall_mem_cons.2 ⟨by omega, hmin⟩⟩

/-- Where an event of an instance that is not stuck is pending, one is taken: the earliest of that instance may be. -/
theorem takeEvent_of_moving {s : State} {e : Pending} (he : e ∈ s.events) (hm : s.ownerStuck e.pin = false) :
    s.takeEvent ≠ none := by
  intro hn
  have hf := takeEvent_none hn
  have hin : e ∈ s.events.filter fun e' => decide ((s.owner e'.pin).map Prod.fst = (s.owner e.pin).map Prod.fst) :=
    List.mem_filter.2 ⟨he, by simp⟩
  obtain ⟨x, hx, hmin⟩ := exists_earliest (List.ne_nil_of_mem hin)
  simp only [List.mem_filter, decide_eq_true_eq] at hx hmin
  have hel : s.eligible x = true := by
    simp only [State.eligible, Bool.and_eq_true, Bool.not_eq_true', List.all_eq_true, decide_eq_true_eq]
    exact ⟨(ownerStuck_congr hx.2).trans hm, fun e' he' ho => hmin e' ⟨he', ho.trans hx.2⟩⟩
  have : x ∈ s.events.filter s.eligible := List.mem_filter.2 ⟨hx.1, hel⟩
  rw [hf] at this
  cases this

/-! ### Processing every event -/

/-- What holds before the events are processed, and is kept by taking an event, by an event step and by giving up, holds
after them. -/
theorem settle_keeps {P : State → Prop} (htake : ∀ s e s', s.takeEvent = some (e, s') → P s → P s')
    (hev : ∀ s p b, P s → P (event p b s)) (hun : ∀ s, P s → P { s with unsettled := true }) {s : State} (h : P s) :
    P (settle s) := by
  have hl : ∀ n s, P s → P (settleLoop n s) := by
    intro n
    induction n with
    | zero =>
      intro s h
      simp only [settleLoop]
      split
      · exact hun s h
      · exact h
    | succ n ih =>
      intro s h
      simp only [settleLoop]
      split
      · exact h
      · split
        · exact h
        · next e s' he => exact ih _ (hev _ _ _ (htake _ _ _ he h))
  exact hl _ s h

/-- With nothing pending, nothing happens. -/
theorem settle_nil {s : State} (h : s.events = []) : settle s = s := by
  simp only [settle]
  cases hn : s.settleBound with
  | zero => simp [settleLoop, takeEvent_nil h]
  | succ n => simp [settleLoop, takeEvent_nil h]

/-- What processing every event leaves alone. -/
structure SettleFrame (s t : State) : Prop where
  params   : t.params = s.params
  wiring   : t.wiring = s.wiring
  m        : t.m = s.m
  snap     : t.snap = s.snap
  inputs   : t.env.inputs = s.env.inputs
  hostRead : t.env.hostRead = s.env.hostRead
  yields   : t.env.yields = s.env.yields
  ext      : t.env.extSda = s.env.extSda ∧ t.env.extScl = s.env.extScl
  registry : t.registry.map Engine.identity = s.registry.map Engine.identity

theorem SettleFrame.refl (s : State) : SettleFrame s s := ⟨rfl, rfl, rfl, rfl, rfl, rfl, rfl, ⟨rfl, rfl⟩, rfl⟩

theorem SettleFrame.trans {s t u : State} (h : SettleFrame s t) (k : SettleFrame t u) : SettleFrame s u :=
  ⟨k.params.trans h.params, k.wiring.trans h.wiring, k.m.trans h.m, k.snap.trans h.snap, k.inputs.trans h.inputs,
    k.hostRead.trans h.hostRead, k.yields.trans h.yields, ⟨k.ext.1.trans h.ext.1, k.ext.2.trans h.ext.2⟩,
    k.registry.trans h.registry⟩

theorem EventFrame.settle {s t : State} (h : EventFrame s t) : SettleFrame s t :=
  ⟨h.params, h.wiring, h.m, h.snap, by rw [h.env], by rw [h.env], by rw [h.env], ⟨by rw [h.env], by rw [h.env]⟩,
    h.registry⟩

theorem settle_frame (s : State) : SettleFrame s (settle s) := by
  refine settle_keeps (P := SettleFrame s) ?_ ?_ ?_ (SettleFrame.refl s)
  · intro t e t' h hf
    obtain ⟨-, -, cs, n, rfl⟩ := takeEvent_spec h
    exact hf.trans ⟨rfl, rfl, rfl, rfl, rfl, rfl, rfl, ⟨rfl, rfl⟩, rfl⟩
  · exact fun t p b hf => hf.trans (event_frame p b t).settle
  · exact fun t hf => hf.trans ⟨rfl, rfl, rfl, rfl, rfl, rfl, rfl, ⟨rfl, rfl⟩, rfl⟩

end Sys2Proof.Machine
end

