-- ==== Sys2Proof/Laws/Memory.lean ====
section
/-! SUPPORT. The payload buffer (20_memory.md R62): a read after a write, and the form every write keeps. -/

namespace Sys2Proof.Machine

/-- What is written is read back, and every other index reads as before (20_memory.md R62). -/
theorem read_write (m : List Host.Cell) (i j : Nat) (v : Byte) :
    Memory.read (Memory.write m i v) j = if i = j then some v else Memory.read m j := by
  induction m with
  | nil => simp [Memory.write, Memory.read]
  | cons c r ih =>
    by_cases h1 : i < c.1
    · simp [Memory.write, h1, Memory.read]
    · by_cases h2 : i = c.1
      · subst h2
        simp only [Memory.write, lt_irrefl, if_true, if_false, Memory.read]
        split <;> rfl
      · simp only [Memory.write, h1, h2, if_false, Memory.read, ih]
        by_cases h3 : c.1 = j
        · have : i ≠ j := by omega
          simp [h3, this]
        · simp [h3]

/-- Where an index stands first in a written buffer, it is the written one or the old first. -/
theorem wf_cons_write {a : Host.Cell} {m : List Host.Cell} {i : Nat} {v : Byte} (ha : a.1 < i)
    (hm : Memory.wf (a :: m) = true) (hw : Memory.wf (Memory.write m i v) = true) :
    Memory.wf (a :: Memory.write m i v) = true := by
  cases m with
  | nil => simp [Memory.write, Memory.wf, ha]
  | cons c r =>
    simp only [Memory.wf, Bool.and_eq_true, decide_eq_true_eq] at hm
    by_cases h1 : i < c.1
    · simp only [Memory.write, h1, if_true] at hw ⊢
      simp only [Memory.wf, Bool.and_eq_true, decide_eq_true_eq] at hw ⊢
      exact ⟨ha, hw⟩
    · by_cases h2 : i = c.1
      · simp only [Memory.write, h2, lt_irrefl, if_true, if_false] at hw ⊢
        simp only [Memory.wf, Bool.and_eq_true, decide_eq_true_eq]
        exact ⟨by omega, hw⟩
      · simp only [Memory.write, h1, h2, if_false] at hw ⊢
        simp only [Memory.wf, Bool.and_eq_true, decide_eq_true_eq]
        exact ⟨hm.1, hw⟩

/-- The rest of a well-formed buffer is well formed. -/
theorem wf_tail {a : Host.Cell} {m : List Host.Cell} (h : Memory.wf (a :: m) = true) : Memory.wf m = true := by
  cases m with
  | nil => rfl
  | cons c r => simp only [Memory.wf, Bool.and_eq_true] at h; exact h.2

/-- A write keeps the form of the buffer. -/
theorem wf_write {m : List Host.Cell} (i : Nat) (v : Byte) (h : Memory.wf m = true) :
    Memory.wf (Memory.write m i v) = true := by
  induction m with
  | nil => rfl
  | cons c r ih =>
    have hr := ih (wf_tail h)
    by_cases h1 : i < c.1
    · simp [Memory.write, h1, Memory.wf, h]
    · by_cases h2 : i = c.1
      · subst h2
        simp only [Memory.write, lt_irrefl, if_true, if_false]
        cases r with
        | nil => rfl
        | cons d r' => simpa [Memory.wf] using h
      · simp only [Memory.write, h1, h2, if_false]
        exact wf_cons_write (by omega) h hr

/-- A write adds no index but its own. -/
theorem mem_write {m : List Host.Cell} {i : Nat} {v : Byte} {c : Host.Cell} (h : c ∈ Memory.write m i v) :
    c = (i, v) ∨ c ∈ m := by
  induction m with
  | nil => simpa [Memory.write] using h
  | cons d r ih =>
    by_cases h1 : i < d.1
    · simpa [Memory.write, h1] using h
    · by_cases h2 : i = d.1
      · simp only [Memory.write, h2, lt_irrefl, if_true, if_false, List.mem_cons] at h
        rcases h with h | h
        · exact .inl (by rw [h, h2])
        · exact .inr (List.mem_cons_of_mem _ h)
      · simp only [Memory.write, h1, h2, if_false, List.mem_cons] at h
        rcases h with h | h
        · exact .inr (h ▸ List.mem_cons_self)
        · exact (ih h).imp_right (List.mem_cons_of_mem _)

/-- A read looks at the parameters and the buffer alone. -/
theorem memRead_congr {s t : State} (hp : t.params = s.params) (hb : t.m.buf = s.m.buf) (a : Nat) :
    t.memRead a = s.memRead a := by
  simp only [State.memRead, hp, hb]

/-- The host's and the master's write of one byte, read back (20_memory.md R62). -/
theorem memRead_memWrite (s : State) (i j : Nat) (v : Byte) (h : i < s.params.bufSize) :
    (s.memWrite i v).memRead j = if i = j then some v else s.memRead j := by
  simp only [State.memRead, State.memWrite, h, if_true]
  by_cases hj : j < s.params.bufSize
  · simp [hj, read_write]
  · have : i ≠ j := by omega
    simp [hj, this]

end Sys2Proof.Machine
end

