-- ==== Sys2Proof/Laws/Settle.lean ====
section
/-! SUPPORT. Assumption A1 (00_scope.md R13): on a reactive state every pending event is processed, within the bound of
`settle`. Each event step lowers `load`: an event of an SCL pin may change one output, which notifies at most two pins of
each instance, and an event of an SDA pin can only release one. -/

namespace Sys2Proof.Machine

/-! ### Owners look at the identities alone -/

/-- The identity of an instance holds its pins. -/
theorem identity_pins {e e' : Engine} (h : e'.identity = e.identity) :
    e'.sdaPin = e.sdaPin ∧ e'.sclPin = e.sclPin := by
  cases e <;> cases e' <;> simp_all [Engine.identity, Engine.sdaPin, Engine.sclPin]

theorem ownerFrom_congr {r r' : List Engine} (h : r'.map Engine.identity = r.map Engine.identity) (k : Nat) (p : Pin) :
    ownerFrom k r' p = ownerFrom k r p := by
  induction r generalizing r' k with
  | nil => simp only [List.map_nil, List.map_eq_nil_iff] at h; rw [h]
  | cons e r ih =>
    cases r' with
    | nil => simp at h
    | cons e' r' =>
      simp only [List.map_cons, List.cons.injEq] at h
      have hp := identity_pins h.1
      simp only [ownerFrom, hp.1, hp.2, ih h.2]

theorem owner_congr {s t : State} (h : t.registry.map Engine.identity = s.registry.map Engine.identity) (p : Pin) :
    t.owner p = s.owner p := ownerFrom_congr h 0 p

/-! ### Reactive states -/

theorem reactive_iff (s : State) :
    s.reactive = true ↔ s.live = true ∧ ∀ e ∈ s.registry, e.obedient = true ∧ e.straight s.wiring = true := by
  simp [State.reactive]

theorem calm_iff (s : State) : s.calm = true ↔ s.reactive = true ∧ s.events = [] := by
  simp [State.calm]

theorem calm_reactive {s : State} (h : s.calm = true) : s.reactive = true := ((calm_iff s).1 h).1

theorem reactive_live {s : State} (h : s.reactive = true) : s.live = true := ((reactive_iff s).1 h).1

theorem calm_live {s : State} (h : s.calm = true) : s.live = true := reactive_live (calm_reactive h)

theorem reactive_congr {s t : State} (hl : t.live = s.live) (hr : t.registry = s.registry) (hw : t.wiring = s.wiring) :
    t.reactive = s.reactive := by
  simp only [State.reactive, hl, hr, hw]

theorem obedient_not_stuck {e : Engine} (h : e.obedient = true) : e.isStuck = false := by
  cases e <;> simp_all [Engine.obedient, Engine.isStuck]

theorem reactive_any_stuck {s : State} (h : s.reactive = true) : s.registry.any Engine.isStuck = false := by
  simp only [List.any_eq_false, Bool.not_eq_true]
  exact fun e he => obedient_not_stuck (((reactive_iff s).1 h).2 e he).1

/-- Straightness looks at the identity alone. -/
theorem straight_congr {e e' : Engine} (h : e'.identity = e.identity) (w : List (Pin × Line)) :
    e'.straight w = e.straight w := by
  have hp : e'.sdaPin = e.sdaPin ∧ e'.sclPin = e.sclPin := identity_pins h
  simp only [Engine.straight, hp.2]

/-- Replacing an instance by an obedient one of the same identity keeps a live state reactive. -/
theorem reactive_set {s t : State} {i : Nat} {e e' : Engine} (h : s.reactive = true) (he : s.registry[i]? = some e)
    (hi : e'.identity = e.identity) (ho : e'.obedient = true) (hl : t.live = true) (hw : t.wiring = s.wiring)
    (hr : t.registry = s.registry.set i e') : t.reactive = true := by
  rw [reactive_iff] at h ⊢
  refine ⟨hl, fun x hx => ?_⟩
  rw [hr] at hx
  rw [hw]
  rcases List.mem_or_eq_of_mem_set hx with hx | rfl
  · exact h.2 x hx
  · exact ⟨ho, by rw [straight_congr hi]; exact (h.2 e (List.mem_of_getElem? he)).2⟩

theorem any_stuck_set {r : List Engine} {i : Nat} {e : Engine} (h : r.any Engine.isStuck = false)
    (he : e.isStuck = false) : (r.set i e).any Engine.isStuck = false := by
  simp only [List.any_eq_false, Bool.not_eq_true] at h ⊢
  intro x hx
  rcases List.mem_or_eq_of_mem_set hx with hx | rfl
  · exact h x hx
  · exact he

/-! ### The load -/

/-- The weight of an event of the given line in a registry of `n` instances. -/
def lineWeight (n : Nat) : Line → Nat
  | .sda => 1
  | .scl => 4 * n + 1

/-- What a pending event may still cause: the pins it may notify, twice over, if it is on an SCL pin. -/
def State.weight (s : State) (e : Pending) : Nat :=
  match s.owner e.pin with
  | some (_, .scl) => 4 * s.registry.length + 1
  | _ => 1

/-- The instance pulls its SDA pin low. -/
def Engine.pulls : Engine → Bool
  | .slave v => !v.sdaDrv
  | .sniffer _ => false

/-- The events to come, at most. -/
def State.load (s : State) : Nat :=
  (s.events.map s.weight).sum + 2 * s.registry.length * s.registry.countP Engine.pulls

theorem weight_pos (s : State) (e : Pending) : 1 ≤ s.weight e := by
  simp only [State.weight]; split <;> omega

theorem weight_le (s : State) (e : Pending) : s.weight e ≤ 4 * s.registry.length + 1 := by
  simp only [State.weight]; split <;> omega

theorem load_le_bound (s : State) : s.load ≤ s.settleBound := by
  have h1 : (s.events.map s.weight).sum ≤ (4 * s.registry.length + 1) * s.events.length := by
    generalize s.events = es
    induction es with
    | nil => simp
    | cons e es ih =>
      have := weight_le s e
      simp only [List.map_cons, List.sum_cons, List.length_cons, Nat.mul_add, Nat.mul_one]
      omega
  have h2 : 2 * s.registry.length * s.registry.countP Engine.pulls ≤ 2 * s.registry.length * s.registry.length :=
    Nat.mul_le_mul_left _ List.countP_le_length
  simp only [State.load, State.settleBound]
  omega

theorem weight_congr {s t : State} (h : t.registry.map Engine.identity = s.registry.map Engine.identity) :
    t.weight = s.weight := by
  have hn : t.registry.length = s.registry.length := by simpa using congrArg List.length h
  funext e
  simp only [State.weight, owner_congr h, hn]

/-- Taking an event lowers the load by its weight. -/
theorem takeEvent_load {s s' : State} {e : Pending} (h : s.takeEvent = some (e, s')) :
    s'.load + s.weight e = s.load := by
  obtain ⟨hm, -, cs, n, rfl⟩ := takeEvent_spec h
  have := List.sum_map_erase s.weight hm
  have hw : State.weight { s with events := s.events.erase e, env := { s.env with choices := cs, draws := n } } = s.weight :=
    weight_congr rfl
  simp only [State.load, hw]
  omega

/-- No instance drives SCL (10_state.md R32, R37). -/
theorem drives_scl (w : List (Pin × Line)) (e : Engine) : e.drives w .scl = true := by cases e <;> rfl

/-- A notification of wire SDA on a straight registry has weight 1, and there are at most two for each instance. -/
theorem notices_sda_weight {s : State} (h : ∀ e ∈ s.registry, e.straight s.wiring = true) :
    ((s.notices .sda).map s.weight).sum ≤ 2 * s.registry.length := by
  have hw : ∀ x ∈ s.notices .sda, s.weight x ≤ 1 := by
    intro x hx
    simp only [State.notices, List.mem_flatMap, List.mem_map] at hx
    obtain ⟨e, -, p, hp, rfl⟩ := hx
    simp only [Engine.pinsOn, List.mem_filter, decide_eq_true_eq] at hp
    simp only [State.weight]
    split
    · next i ho =>
      exfalso
      obtain ⟨e', he', hpin⟩ := owner_spec ho
      have := h e' (List.mem_of_getElem? he')
      simp only [Engine.straight, decide_eq_true_eq] at this
      simp only [Engine.pinOf] at hpin
      exact this (hpin ▸ hp.2)
    · exact le_refl 1
  have hl : (s.notices .sda).length ≤ 2 * s.registry.length := by
    simp only [State.notices, List.length_flatMap, List.length_map]
    generalize s.registry = r
    induction r with
    | nil => simp
    | cons e r ih =>
      have : (e.pinsOn s.wiring .sda).length ≤ 2 := by
        simpa [Engine.pinsOn] using
          List.length_filter_le (fun p => decide (wireOf s.wiring p = some .sda)) [e.sdaPin, e.sclPin]
      simp only [List.map_cons, List.sum_cons, List.length_cons]
      omega
  refine le_trans ?_ hl
  generalize s.notices .sda = ns at hw
  induction ns with
  | nil => simp
  | cons x ns ih =>
    have h1 := hw x List.mem_cons_self
    have h2 := ih fun y hy => hw y (List.mem_cons_of_mem _ hy)
    simp only [List.map_cons, List.sum_cons, List.length_cons]
    omega

/-! ### A slave's step on a reactive state -/

/-- What a slave's step does on a reactive state: the slave becomes one whose fixed fields but for the script are those
of `v`, the wires that changed are notified, and the state stays reactive. -/
theorem runSlave_reactive {l : Line} {e : Edge} {i : Nat} {v w : Slave} {s : State} (hs : s.reactive = true)
    (he : s.registry[i]? = some (.slave w)) (hv : (Engine.slave v).identity = (Engine.slave w).identity)
    (hsc : v.script = w.script) (hst : v.stuck = w.stuck) :
    ∃ (v' : Slave) (t : State), runSlave (slaveHandler l e) i v s = propagate s t ∧ t.events = s.events ∧
      t.instant = s.instant ∧ t.m = s.m ∧ t.env = s.env ∧ t.wiring = s.wiring ∧ t.registry = s.registry.set i (.slave v') ∧
      t.reactive = true ∧ (l = .sda → v'.sdaDrv = true ∨ v'.sdaDrv = v.sdaDrv) := by
  have hob : ((Engine.slave w).obedient = true) := (((reactive_iff s).1 hs).2 _ (List.mem_of_getElem? he)).1
  have hlv := (live_iff s).1 (reactive_live hs)
  simp only [Engine.obedient, Bool.and_eq_true, Bool.not_eq_true', List.all_eq_true] at hob
  have hns := reactive_any_stuck hs
  have hfix := slaveHandler_fixed l e v
  have hdrv : l = .sda → ((slaveHandler l e v).1.sdaDrv = true ∨ (slaveHandler l e v).1.sdaDrv = v.sdaDrv) ∧
      ∀ c, (slaveHandler l e v).2 = some c → ∀ b u, (afterCallback c.kind b u).sdaDrv = u.sdaDrv := by
    rintro rfl
    cases e <;> simp only [slaveHandler, slaveSdaFall, slaveSdaRise]
    all_goals
      split
      · exact ⟨.inl rfl, fun c hc b u => by cases hc; rfl⟩
      · exact ⟨.inr rfl, fun c hc => by cases hc⟩
  -- a state of the right shape with an obedient slave in place is reactive
  have hmk : ∀ (x : Slave) (t : State), x.stuck = false → (∀ r ∈ x.script, r ∈ w.script) →
      (Engine.slave x).identity = (Engine.slave w).identity → t.fault = s.fault → t.unsettled = s.unsettled →
      t.wiring = s.wiring → t.registry = s.registry.set i (.slave x) →
      t.ctx = (if t.registry.any Engine.isStuck then Ctx.interrupt else Ctx.foreground) → t.reactive = true := by
    intro x t hx hxs hid hf hu hw hr hc
    have hany : t.registry.any Engine.isStuck = false := by rw [hr]; exact any_stuck_set hns hx
    refine reactive_set hs he hid ?_ ((live_iff t).2 ⟨hf ▸ hlv.1, ?_, hu ▸ hlv.2.2⟩) hw hr
    · simp only [Engine.obedient, hx, Bool.not_false, Bool.true_and, List.all_eq_true]
      exact fun r hr => hob.2 r (hxs r hr)
    · rw [hc, hany]; rfl
  simp only [Slave.fixed, Prod.mk.injEq] at hfix
  simp only [runSlave]
  split
  · next v' hh =>
    rw [hh] at hfix hdrv
    refine ⟨v', _, rfl, rfl, rfl, rfl, rfl, rfl, rfl, ?_, fun hl => (hdrv hl).1⟩
    refine hmk v' _ ?_ ?_ (hfix.1.trans hv) rfl rfl rfl rfl rfl
    · rw [hfix.2.2.2.2, hst]; exact hob.1
    · rw [hfix.2.2.2.1, hsc]; exact fun r hr => hr
  · next v' c hh =>
    rw [hh] at hfix hdrv
    have hscr : v'.script = w.script := hfix.2.2.2.1.trans hsc
    have hstk : v'.stuck = false := by rw [hfix.2.2.2.2, hst]; exact hob.1
    have hid := hfix.1.trans hv
    have hafter : ∀ b (u : Slave), (afterCallback c.kind b u).fixed = u.fixed := afterCallback_fixed c.kind
    have hkeep : ∀ b, l = .sda → ∀ u : Slave, u.sdaDrv = v'.sdaDrv →
        (afterCallback c.kind b u).sdaDrv = true ∨ (afterCallback c.kind b u).sdaDrv = v.sdaDrv := by
      intro b hl u hu
      rw [(hdrv hl).2 c rfl, hu]
      exact (hdrv hl).1
    simp only [invoke]
    split
    · have hf := hafter (Config.callbackByte i c.index (s.enterHandler.recordCall i c).callbacks) v'
      simp only [Slave.fixed, Prod.mk.injEq] at hf
      refine ⟨_, _, rfl, rfl, rfl, rfl, rfl, rfl, rfl, ?_, fun hl => hkeep _ hl v' rfl⟩
      refine hmk _ _ ?_ ?_ (hf.1.trans hid) rfl rfl rfl rfl rfl
      · rw [hf.2.2.2.2]; exact hstk
      · rw [hf.2.2.2.1, hscr]; exact fun r hr => hr
    · next b r hr =>
      have hf := hafter b { v' with script := r }
      simp only [Slave.fixed, Prod.mk.injEq] at hf
      refine ⟨_, _, rfl, rfl, rfl, rfl, rfl, rfl, rfl, ?_, fun hl => hkeep _ hl { v' with script := r } rfl⟩
      refine hmk _ _ ?_ ?_ (hf.1.trans hid) rfl rfl rfl rfl rfl
      · rw [hf.2.2.2.2]; exact hstk
      · rw [hf.2.2.2.1]
        exact fun x hx => by rw [← hscr, hr]; exact List.mem_cons_of_mem _ hx
    · next x r hr =>
      have := hob.2 (.issues x) (by rw [← hscr, hr]; exact List.mem_cons_self)
      simp at this
    · next r hr =>
      have := hob.2 .hangs (by rw [← hscr, hr]; exact List.mem_cons_self)
      simp at this

/-- A sniffer's step keeps a reactive state reactive, and changes no output. -/
theorem runSniffer_reactive {l : Line} {e : Edge} {i : Nat} {n w : Sniffer} {s : State} (hs : s.reactive = true)
    (he : s.registry[i]? = some (.sniffer w)) (hv : (Engine.sniffer n).identity = (Engine.sniffer w).identity) :
    (runSniffer (snifferHandler l e) i n s).reactive = true ∧
      (runSniffer (snifferHandler l e) i n s).load = s.load := by
  have hlv := (live_iff s).1 (reactive_live hs)
  have hid := (snifferHandler_fixed l e s.params.sniffTag n).1.trans hv
  constructor
  · refine reactive_set hs he hid rfl ((live_iff _).2 ⟨hlv.1, ?_, hlv.2.2⟩) rfl rfl
    have : (s.registry.set i (.sniffer (snifferHandler l e s.params.sniffTag n).1)).any Engine.isStuck = false :=
      any_stuck_set (reactive_any_stuck hs) rfl
    simp only [runSniffer, leaveHandler_ctx, emit_registry, putEngine_registry, enterHandler_registry, this]
    rfl
  · have hw : (runSniffer (snifferHandler l e) i n s).weight = s.weight := weight_congr (runSniffer_frame he hv).registry
    obtain ⟨hi, hei⟩ := List.getElem?_eq_some_iff.1 he
    have hc : (s.registry.set i (.sniffer (snifferHandler l e s.params.sniffTag n).1)).countP Engine.pulls
        = s.registry.countP Engine.pulls := by
      rw [List.countP_set hi, hei]
      simp [Engine.pulls]
    simp only [State.load, hw]
    simp only [runSniffer, leaveHandler_events, emit_events, putEngine_events, enterHandler_events, leaveHandler_registry,
      emit_registry, putEngine_registry, enterHandler_registry, List.length_set, hc]

/-- A slave's step costs at most what its event's weight pays for. -/
theorem runSlave_load {l : Line} {e : Edge} {i : Nat} {v w : Slave} {s : State} (hs : s.reactive = true)
    (he : s.registry[i]? = some (.slave w)) (hv : (Engine.slave v).identity = (Engine.slave w).identity)
    (hsc : v.script = w.script) (hst : v.stuck = w.stuck) (hd : v.sdaDrv = w.sdaDrv) :
    (runSlave (slaveHandler l e) i v s).reactive = true ∧
      (runSlave (slaveHandler l e) i v s).load
        < s.load + lineWeight s.registry.length l := by
  have hfr := (runSlave_frame (l := l) (e := e) he hv).registry
  obtain ⟨v', t, hrun, hev, -, hm, henv, hw, hr, hre, hsda⟩ := runSlave_reactive (l := l) (e := e) hs he hv hsc hst
  rw [hrun] at hfr ⊢
  simp only [propagate_registry] at hfr
  have hreact : (propagate s t).reactive = true := by
    rw [reactive_congr (s := t) (by simp) (by simp) (by simp)]; exact hre
  refine ⟨hreact, ?_⟩
  have hstr' : ∀ x ∈ t.registry, x.straight t.wiring = true := fun x hx => (((reactive_iff t).1 hre).2 x hx).2
  have hscl : s.wire .scl = t.wire .scl := by
    have hall : ∀ r : List Engine, r.all (Engine.drives s.wiring .scl) = true :=
      fun _ => List.all_eq_true.2 fun x _ => drives_scl _ x
    simp only [State.wire, hall, hm, henv, hw]
  have hlen : t.registry.length = s.registry.length := by rw [hr, List.length_set]
  have hwt : (propagate s t).weight = s.weight := weight_congr (by simpa using hfr)
  have hwt' : t.weight = s.weight := weight_congr hfr
  obtain ⟨hi, hei⟩ := List.getElem?_eq_some_iff.1 he
  have hcount : t.registry.countP Engine.pulls + (if w.sdaDrv then 0 else 1)
      = s.registry.countP Engine.pulls + (if v'.sdaDrv then 0 else 1) := by
    have hle : (if w.sdaDrv then 0 else 1) ≤ s.registry.countP Engine.pulls := by
      split
      · exact Nat.zero_le _
      · next hwd =>
        exact List.countP_pos_iff.2 ⟨_, List.mem_of_getElem? he, by simp [Engine.pulls, hwd]⟩
    rw [hr, List.countP_set hi, hei]
    simp only [Engine.pulls]
    generalize s.registry.countP Engine.pulls = c at hle ⊢
    rcases Bool.eq_false_or_eq_true w.sdaDrv with hw' | hw' <;>
      rcases Bool.eq_false_or_eq_true v'.sdaDrv with hv' | hv' <;> simp [hw', hv'] at hle ⊢ <;> omega
  have hquiet : v'.sdaDrv = w.sdaDrv → s.wire .sda = t.wire .sda := by
    intro hsame
    have hset : ∀ r : List Engine, r[i]? = some (.slave w) →
        (r.set i (.slave v')).all (Engine.drives s.wiring .sda) = r.all (Engine.drives s.wiring .sda) := by
      intro r hri
      obtain ⟨hlt, hreq⟩ := List.getElem?_eq_some_iff.1 hri
      have hdr : Engine.drives s.wiring .sda (.slave v') = Engine.drives s.wiring .sda (.slave w) := by
        have hpin : v'.sdaPin = w.sdaPin := by
          have h1 : (t.registry.map Engine.identity)[i]? = (s.registry.map Engine.identity)[i]? := by rw [hfr]
          rw [hr, List.getElem?_map, List.getElem?_map, List.getElem?_set_self hi, he] at h1
          simp only [Option.map_some, Option.some.injEq, Engine.identity, Prod.mk.injEq] at h1
          exact h1.2.1
        simp only [Engine.drives, hpin, hsame]
      have := congrArg (List.all · id) (List.map_set (f := Engine.drives s.wiring .sda) (l := r) (i := i) (a := .slave v'))
      simp only [List.all_map] at this
      rw [Function.id_comp] at this
      rw [this, hdr, ← hreq, ← List.getElem_map (Engine.drives s.wiring .sda) (h := by simpa using hlt),
        List.set_getElem_self, List.all_map, Function.id_comp]
    simp only [State.wire, hm, henv, hw, hr, hset s.registry he]
  have hload : (propagate s t).load ≤ (s.events.map s.weight).sum
      + (if s.wire .sda = t.wire .sda then 0 else 2 * s.registry.length)
      + 2 * s.registry.length * t.registry.countP Engine.pulls := by
    simp only [State.load, hwt, propagate_registry, hlen, propagate_events, hscl, if_true, List.append_nil, hev,
      List.map_append, List.sum_append]
    have := notices_sda_weight (s := t) hstr'
    rw [hwt', hlen] at this
    split <;> simp <;> omega
  have hs' : s.load = (s.events.map s.weight).sum + 2 * s.registry.length * s.registry.countP Engine.pulls := rfl
  clear hi hei he hwt hwt' hfr hstr' hr hlen hscl hrun hev
  generalize (s.events.map s.weight).sum = E at *
  generalize t.registry.countP Engine.pulls = c' at *
  generalize s.registry.countP Engine.pulls = c at *
  generalize s.registry.length = n at *
  cases hl : l with
  | scl =>
    simp only [lineWeight]
    have hc : c' ≤ c + 1 := by split at hcount <;> split at hcount <;> omega
    have := Nat.mul_le_mul_left (2 * n) hc
    rw [Nat.mul_add, Nat.mul_one] at this
    split at hload <;> omega
  | sda =>
    simp only [lineWeight]
    by_cases hsame : v'.sdaDrv = w.sdaDrv
    · rw [if_pos (hquiet hsame)] at hload
      rw [hsame] at hcount
      have : c' = c := by omega
      subst this
      omega
    · have h1 : v'.sdaDrv = true := by
        rcases hsda hl with h | h
        · exact h
        · exact absurd (h.trans hd) hsame
      have h2 : w.sdaDrv = false := by
        cases hw' : w.sdaDrv with
        | false => rfl
        | true => exact absurd (h1.trans hw'.symm) hsame
      simp only [h1, h2, if_true, Bool.false_eq_true, if_false] at hcount
      have hc : c = c' + 1 := by omega
      subst hc
      rw [Nat.mul_add, Nat.mul_one] at hs'
      split at hload <;> omega

/-- Taking an event and processing it keeps a reactive state reactive and lowers the load. -/
theorem event_load {s s' : State} {e : Pending} (hs : s.reactive = true) (h : s.takeEvent = some (e, s')) :
    (event e.pin e.level s').reactive = true ∧ (event e.pin e.level s').load < s.load := by
  have hload := takeEvent_load h
  have hpos := weight_pos s e
  obtain ⟨-, -, cs, n, hs'⟩ := takeEvent_spec h
  have hr' : s'.reactive = true :=
    (reactive_congr (s := s) (by rw [hs']; rfl) (by rw [hs']) (by rw [hs'])).trans hs
  have hreg : s'.registry = s.registry := by rw [hs']
  simp only [event]
  split
  · exact ⟨hr', by omega⟩
  · next i v l hsel =>
    obtain ⟨ho, he, hst, -⟩ := selected_spec hsel
    obtain ⟨h1, h2⟩ := runSlave_load (l := l) (e := edgeOf e.level) (v := v.store l e.level) hr' he
      (slave_store_identity _ _ _) (slave_store_script _ _ _) (slave_store_stuck _ _ _) (slave_store_sdaDrv _ _ _)
    refine ⟨h1, lt_of_lt_of_le h2 ?_⟩
    have hw : s.weight e = lineWeight s.registry.length l := by
      simp only [State.weight, ← owner_congr (s := s) (t := s') (by rw [hreg]), ho]
      cases l <;> rfl
    rw [hreg, ← hw]
    omega
  · next i m l hsel =>
    obtain ⟨-, he, -, -⟩ := selected_spec hsel
    obtain ⟨h1, h2⟩ := runSniffer_reactive (l := l) (e := edgeOf e.level) (n := m.store l e.level) hr' he
      (sniffer_store_identity _ _ _)
    exact ⟨h1, by omega⟩

/-- On a reactive state with an event pending, one is taken. -/
theorem takeEvent_some {s : State} (hs : s.reactive = true) (he : s.events ≠ []) : s.takeEvent ≠ none := by
  obtain ⟨e, he⟩ := List.exists_mem_of_ne_nil _ he
  refine takeEvent_of_moving he ?_
  simp only [State.ownerStuck]
  split
  · rfl
  · next i l ho =>
    obtain ⟨x, hx, -⟩ := owner_spec ho
    rw [hx]
    exact obedient_not_stuck (((reactive_iff s).1 hs).2 x (List.mem_of_getElem? hx)).1

/-- Nothing is pending where the load is 0. -/
theorem events_of_load {s : State} (h : s.load = 0) : s.events = [] := by
  by_contra hne
  obtain ⟨e, es, he⟩ := List.exists_cons_of_ne_nil hne
  have := weight_pos s e
  simp only [State.load, he, List.map_cons, List.sum_cons] at h
  omega

/-- On a reactive state, as many steps as the load process every pending event, and more steps do nothing more. -/
theorem settleLoop_enough {n : Nat} {s : State} (hs : s.reactive = true) (hn : s.load ≤ n) :
    (settleLoop n s).calm = true ∧ ∀ m, s.load ≤ m → settleLoop m s = settleLoop n s := by
  induction n generalizing s with
  | zero =>
    have hnil := events_of_load (Nat.le_zero.1 hn)
    have hz : ∀ m, settleLoop m s = s := by
      intro m
      cases m <;> simp [settleLoop, takeEvent_nil hnil]
    exact ⟨by rw [hz]; exact (calm_iff s).2 ⟨hs, hnil⟩, fun m _ => by rw [hz, hz]⟩
  | succ n ih =>
    have hf : s.fault.isSome = false := by simp [((live_iff s).1 (reactive_live hs)).1]
    cases ht : s.takeEvent with
    | none =>
      have hz : ∀ m, settleLoop m s = s := by
        intro m
        cases m <;> simp [settleLoop, ht]
      have hnil : s.events = [] := by
        by_contra hne
        exact takeEvent_some hs hne ht
      exact ⟨by rw [hz]; exact (calm_iff s).2 ⟨hs, hnil⟩, fun m _ => by rw [hz, hz]⟩
    | some r =>
      obtain ⟨h1, h2⟩ := event_load hs ht
      obtain ⟨h3, h4⟩ := ih h1 (by omega)
      refine ⟨by simpa only [settleLoop, hf, ht, Bool.false_eq_true, if_false] using h3, fun m hm => ?_⟩
      cases m with
      | zero => omega
      | succ m => simpa only [settleLoop, hf, ht, Bool.false_eq_true, if_false] using h4 m (by omega)

/-- Assumption A1 (00_scope.md R13): on a reactive state every pending event is processed, and the state stays
reactive. -/
theorem settle_calm {s : State} (h : s.reactive = true) : (settle s).calm = true :=
  (settleLoop_enough h (load_le_bound s)).1

end Sys2Proof.Machine
end

