-- ==== Sys2Proof/Laws/LineActions.lean ====
section
/-! SUPPORT. The line actions and the sequences built from them: what each does to the master on a calm state, what each
leaves alone on every state, and the induction over a sequence, packaged once (`Kept`). -/

namespace Sys2Proof.Machine

/-! ### External actions -/

theorem external_frame (a : ExtAct) (s : State) :
    (external a s).params = s.params ∧ (external a s).wiring = s.wiring ∧ (external a s).m = s.m ∧
      (external a s).registry = s.registry ∧ (external a s).snap = s.snap ∧ (external a s).live = s.live ∧
      (external a s).env.inputs = s.env.inputs ∧ (external a s).env.hostRead = s.env.hostRead ∧
      (external a s).env.yields = s.env.yields := by
  cases a with
  | drive x y => simp [external]; exact live_congr rfl rfl rfl
  | event w =>
    simp only [external]
    split <;> exact ⟨rfl, rfl, rfl, rfl, rfl, rfl, rfl, rfl, rfl⟩

/-- What holds before external actions and is kept by one of them and by processing every event, holds after them. -/
theorem runExternal_keeps {P : State → Prop} (hext : ∀ a s, s.live = true → P s → P (settle (external a s)))
    (as : List ExtAct) {s : State} (h : P s) : P (runExternal as s) := by
  induction as generalizing s with
  | nil => exact h
  | cons a as ih =>
    simp only [runExternal]
    split
    · next hl => exact ih (hext a s hl h)
    · exact ih h

/-! ### Calm states -/

/-- A change of registers that decide nothing about events keeps a state calm. -/
theorem calm_congr {s t : State} (hl : t.live = s.live) (hr : t.registry = s.registry) (hw : t.wiring = s.wiring)
    (he : t.events = s.events) : t.calm = s.calm := by
  simp only [State.calm, reactive_congr hl hr hw, he]

@[simp] theorem upd_calm (f : Master → Master) (s : State) : (s.upd f).calm = s.calm :=
  calm_congr (by simp) (by simp) (by simp) (by simp)

@[simp] theorem finish_calm (l : Option Line) (s : State) : (s.finish l).calm = s.calm :=
  calm_congr (by simp) (by simp) (by simp) (by simp)

@[simp] theorem memWrite_calm (i : Nat) (v : Byte) (s : State) : (s.memWrite i v).calm = s.calm :=
  calm_congr (by simp) (by simp) (by simp) (by simp)

theorem runExternal_calm (as : List ExtAct) {s : State} (h : s.calm = true) : (runExternal as s).calm = true := by
  refine runExternal_keeps (P := fun s => s.calm = true) (fun a s _ h => ?_) as h
  obtain ⟨-, hw, -, hr, -, hl, -⟩ := external_frame a s
  exact settle_calm ((reactive_congr hl hr hw).trans (calm_reactive h))

theorem runExternal_m (as : List ExtAct) (s : State) : (runExternal as s).m = s.m := by
  refine runExternal_keeps (P := fun t => t.m = s.m) (fun a t _ h => ?_) as rfl
  rw [(settle_frame _).m, (external_frame a t).2.2.1, h]

/-- Nothing happens any more once the block has stopped (60_exceptions.md R281). -/
theorem agents_dead {s : State} (h : s.live = false) : agents s = s := by
  simp only [agents, h, Bool.false_eq_true, if_false]

theorem agents_calm {s : State} (h : s.calm = true) : (agents s).calm = true := by
  simp only [agents, calm_live h, if_true]
  exact runExternal_calm _ ((calm_congr (s := s) rfl rfl rfl rfl).trans h)

@[simp] theorem agents_m (s : State) : (agents s).m = s.m := by
  simp only [agents]
  split
  · exact runExternal_m _ _
  · rfl

/-- With no external action to come, nothing happens. -/
theorem agents_idle {s : State} (hy : s.env.yields = []) : agents s = s := by
  cases hl : s.live with
  | false => exact agents_dead hl
  | true =>
    obtain ⟨p, w, m, r, c, f, fr, cb, sn, ev, ins, un, env⟩ := s
    obtain ⟨a, b, i, y, ch, d, hr⟩ := env
    simp only at hy
    subst hy
    simp only [agents, hl, if_true]
    rfl

/-- A drive of a live state (42_master.md R150). -/
theorem drive_live (f : Master → Master) {s : State} (h : s.live = true) :
    drive f s = settle (propagate s { s with m := { f s.m with actions := s.m.actions + 1 } }) := by
  simp only [drive, h, if_true]

/-- Nothing more happens once the block has stopped (60_exceptions.md R281). -/
theorem drive_dead (f : Master → Master) {s : State} (h : s.live = false) : drive f s = s := by
  simp only [drive, h, Bool.false_eq_true, if_false]

/-- A drive of a reactive state leaves it calm: assumption A1 (00_scope.md R13). -/
theorem drive_calm (f : Master → Master) {s : State} (h : s.reactive = true) : (drive f s).calm = true := by
  rw [drive_live f (reactive_live h)]
  apply settle_calm
  rw [reactive_congr (s := s) (by rw [propagate_live]; rfl) (by simp) (by simp)]
  exact h

/-- What a drive does to the master's registers. -/
theorem drive_m (f : Master → Master) {s : State} (h : s.live = true) :
    (drive f s).m = { f s.m with actions := s.m.actions + 1 } := by
  rw [drive_live f h, (settle_frame _).m]
  simp

theorem act_calm (f : Master → Master) {s : State} (h : s.calm = true) : (act f s).calm = true :=
  drive_calm f (calm_reactive (agents_calm h))

theorem act_m (f : Master → Master) {s : State} (h : s.calm = true) :
    (act f s).m = { f s.m with actions := s.m.actions + 1 } := by
  rw [act, drive_m f (calm_live (agents_calm h)), agents_m]

theorem lineW_calm (l : Line) (v : Level) {s : State} (h : s.calm = true) : (lineW l v s).calm = true := act_calm _ h

theorem lineW_m (l : Line) (v : Level) {s : State} (h : s.calm = true) :
    (lineW l v s).m = { s.m.setLatch l v with actions := s.m.actions + 1 } := act_m _ h

theorem lineSetDir_calm (l : Line) (d : Dir) {s : State} (h : s.calm = true) : (lineSetDir l d s).calm = true :=
  act_calm _ h

theorem lineSetDir_m (l : Line) (d : Dir) {s : State} (h : s.calm = true) :
    (lineSetDir l d s).m = { s.m.setDir l d with actions := s.m.actions + 1 } := act_m _ h

theorem lineD_calm (n : Nat) {s : State} (h : s.calm = true) : (lineD n s).calm = true :=
  agents_calm ((upd_calm _ s).trans h)

theorem lineD_m (n : Nat) {s : State} (h : s.calm = true) :
    (lineD n s).m = { s.m with actions := s.m.actions + 1, delays := s.m.delays + n } := by
  simp only [lineD, agents_m, State.upd, calm_live h, if_true]

/-- With no external action to come, a delay changes the counts alone (41_line_and_edge.md R123). -/
theorem lineD_idle (n : Nat) {s : State} (h : s.live = true) (hy : s.env.yields = []) :
    lineD n s = { s with m := { s.m with actions := s.m.actions + 1, delays := s.m.delays + n } } := by
  rw [lineD, agents_idle (by simpa using hy)]
  simp only [State.upd, h, if_true]

/-! ### What every line action leaves alone -/

/-- What the master's actions leave alone: everything of the foreground but the master's running registers. -/
structure ActionFrame (s t : State) : Prop where
  params   : t.params = s.params
  wiring   : t.wiring = s.wiring
  snap     : t.snap = s.snap
  inputs   : t.env.inputs = s.env.inputs
  hostRead : t.env.hostRead = s.env.hostRead
  registry : t.registry.map Engine.identity = s.registry.map Engine.identity
  cfg      : t.m.cfg = s.m.cfg
  len      : t.m.len = s.m.len
  settle   : t.m.settleSda = s.m.settleSda ∧ t.m.settleScl = s.m.settleScl
  dead     : s.live = false → t.live = false

theorem ActionFrame.refl (s : State) : ActionFrame s s := ⟨rfl, rfl, rfl, rfl, rfl, rfl, rfl, rfl, ⟨rfl, rfl⟩, id⟩

theorem ActionFrame.trans {s t u : State} (h : ActionFrame s t) (k : ActionFrame t u) : ActionFrame s u :=
  ⟨k.params.trans h.params, k.wiring.trans h.wiring, k.snap.trans h.snap, k.inputs.trans h.inputs,
    k.hostRead.trans h.hostRead, k.registry.trans h.registry, k.cfg.trans h.cfg, k.len.trans h.len,
    ⟨k.settle.1.trans h.settle.1, k.settle.2.trans h.settle.2⟩, fun hd => k.dead (h.dead hd)⟩

/-- A register update that touches neither configuration, length nor settle flags. -/
theorem upd_frame (f : Master → Master) (s : State)
    (hf : (f s.m).cfg = s.m.cfg ∧ (f s.m).len = s.m.len ∧ (f s.m).settleSda = s.m.settleSda
      ∧ (f s.m).settleScl = s.m.settleScl) : ActionFrame s (s.upd f) := by
  refine ⟨by simp, by simp, by simp, by simp, by simp, by simp, ?_, ?_, ?_, by simp⟩ <;>
    (simp only [State.upd]; split) <;> simp [hf]

theorem runExternal_frame (as : List ExtAct) (s : State) : ActionFrame s (runExternal as s) := by
  cases hl : s.live with
  | false =>
    have : runExternal as s = s := by
      induction as with
      | nil => rfl
      | cons a as ih => simpa only [runExternal, hl, Bool.false_eq_true, if_false] using ih
    rw [this]; exact ActionFrame.refl s
  | true =>
    refine runExternal_keeps (P := ActionFrame s) (fun a t _ h => ?_) as (ActionFrame.refl s)
    obtain ⟨hp, hw, hm, hr, hs, -, hi, hh, -⟩ := external_frame a t
    have k := settle_frame (external a t)
    exact h.trans ⟨k.params.trans hp, k.wiring.trans hw, k.snap.trans hs, k.inputs.trans hi, k.hostRead.trans hh,
      by rw [k.registry, hr], by rw [k.m, hm], by rw [k.m, hm], by rw [k.m, hm]; exact ⟨rfl, rfl⟩, fun hd => by simp_all⟩

theorem agents_frame (s : State) : ActionFrame s (agents s) := by
  simp only [agents]
  split
  · next hl =>
    refine ActionFrame.trans (s := s) ?_ (runExternal_frame _ _)
    exact ⟨rfl, rfl, rfl, rfl, rfl, rfl, rfl, rfl, ⟨rfl, rfl⟩, by simp [hl]⟩
  · exact ActionFrame.refl s

theorem drive_frame (f : Master → Master) (s : State)
    (hf : ∀ m : Master, (f m).cfg = m.cfg ∧ (f m).len = m.len ∧ (f m).settleSda = m.settleSda
      ∧ (f m).settleScl = m.settleScl) : ActionFrame s (drive f s) := by
  cases hl : s.live with
  | false => rw [drive_dead f hl]; exact ActionFrame.refl s
  | true =>
    have k := settle_frame (propagate s { s with m := { f s.m with actions := s.m.actions + 1 } })
    rw [← drive_live f hl] at k
    have hm := drive_m f hl
    obtain ⟨h1, h2, h3, h4⟩ := hf s.m
    exact ⟨by simpa using k.params, by simpa using k.wiring, by simpa using k.snap, by simpa using k.inputs,
      by simpa using k.hostRead, by simpa using k.registry, by rw [hm]; exact h1, by rw [hm]; exact h2,
      by rw [hm]; exact ⟨h3, h4⟩, by simp [hl]⟩

theorem act_frame (f : Master → Master) (s : State)
    (hf : ∀ m : Master, (f m).cfg = m.cfg ∧ (f m).len = m.len ∧ (f m).settleSda = m.settleSda
      ∧ (f m).settleScl = m.settleScl) : ActionFrame s (act f s) :=
  (agents_frame s).trans (drive_frame f _ hf)

theorem lineW_frame (l : Line) (v : Level) (s : State) : ActionFrame s (lineW l v s) :=
  act_frame _ s fun _ => by cases l <;> exact ⟨rfl, rfl, rfl, rfl⟩

theorem lineSetDir_frame (l : Line) (d : Dir) (s : State) : ActionFrame s (lineSetDir l d s) :=
  act_frame _ s fun _ => by cases l <;> exact ⟨rfl, rfl, rfl, rfl⟩

theorem lineD_frame (n : Nat) (s : State) : ActionFrame s (lineD n s) :=
  (upd_frame _ s ⟨rfl, rfl, rfl, rfl⟩).trans (agents_frame _)

/-! ### The induction over a sequence -/

/-- A property that the latches, the delays and the phase keep: what a sequence of W and D does. -/
structure KeptLines (P : State → Prop) : Prop where
  lineW : ∀ l v s, P s → P (lineW l v s)
  lineD : ∀ n s, P s → P (lineD n s)
  phase : ∀ p s, P s → P (setPhase p s)

/-- A property that a read of an acknowledge keeps as well: what the writing sequences do. -/
structure KeptWrites (P : State → Prop) : Prop extends KeptLines P where
  lastAck : ∀ b s, P s → P (setLastAck b s)

/-- A property that a change of direction and the master's Fifo8 keep as well: what `read_byte` does. -/
structure KeptReads (P : State → Prop) : Prop extends KeptLines P where
  lineSetDir : ∀ l d s, P s → P (lineSetDir l d s)
  fifo       : ∀ v s, P s → P (setFifo v s)

/-- A property that every line action and every register update of a running sequence keeps. -/
structure Kept (P : State → Prop) : Prop extends KeptWrites P, KeptReads P where
  result : ∀ v s, P s → P (setResult v s)
  status : ∀ b s, P s → P (setStatus (statusOf b) s)

/-- What one attempt keeps, the retry keeps (42_master.md R163). -/
theorem attempts_keeps {P : State → Prop} {f : State → State × Bool} (hf : ∀ s, P s → P (f s).1) (n : Nat) {s : State} (h : P s) :
    P (attempts f n s).1 := by
  induction n generalizing s with
  | zero => exact h
  | succ n ih =>
    simp only [Machine.attempts]
    split
    · exact hf s h
    · exact ih (hf s h)

section
variable {P : State → Prop} (k : KeptLines P)
include k

theorem KeptLines.startCondition {s : State} (h : P s) : P (startCondition s) :=
  k.phase _ _ (k.lineD _ _ (k.lineW _ _ _ (k.lineD _ _ (k.lineW _ _ _ (k.lineD _ _ (k.lineW _ _ _ (k.lineW _ _ _ h)))))))

theorem KeptLines.stopCondition {s : State} (h : P s) : P (stopCondition s) :=
  k.phase _ _ (k.lineD _ _ (k.lineW _ _ _ (k.lineD _ _ (k.lineW _ _ _ (k.lineW _ _ _ h)))))

theorem KeptLines.writeBit (b : Bool) {s : State} (h : P s) : P (writeBit b s) :=
  k.lineD _ _ (k.lineW _ _ _ (k.lineD _ _ (k.lineW _ _ _ (k.lineW _ _ _ h))))

theorem KeptLines.writeBits (bs : List Bool) {s : State} (h : P s) : P (writeBits bs s) := by
  induction bs generalizing s with
  | nil => exact h
  | cons b bs ih => exact ih (k.writeBit b h)

theorem KeptLines.clockHigh {s : State} (h : P s) : P (clockHigh s) := k.lineD _ _ (k.lineW _ _ _ h)

theorem KeptLines.clockLow {s : State} (h : P s) : P (clockLow s) := k.lineD _ _ (k.lineW _ _ _ h)

theorem KeptLines.readBit {s : State} (h : P s) : P (readBit s).1 := k.clockLow (k.clockHigh (k.lineW _ _ _ h))

end

section
variable {P : State → Prop} (k : KeptWrites P)
include k

theorem KeptWrites.readAck {s : State} (h : P s) : P (readAck s).1 := k.lastAck _ _ (k.readBit h)

theorem KeptWrites.writeByte (v : Byte) {s : State} (h : P s) : P (writeByte v s).1 := k.readAck (k.writeBits _ h)

theorem KeptWrites.startCommunication (a : Addr) (r : Bool) {s : State} (h : P s) : P (startCommunication a r s).1 := by
  simp only [Machine.startCommunication]
  exact k.phase _ _ (k.readAck (k.writeBit r (k.writeBits _ (k.phase _ _ (k.startCondition h)))))

theorem KeptWrites.addressPhase (a : Addr) (r : Bool) {s : State} (h : P s) : P (addressPhase a r s).1 :=
  attempts_keeps (fun _ h => k.startCommunication a r h) _ h

theorem KeptWrites.writePayload (vs : List Byte) {r : State × Bool} (h : P r.1) : P (writePayload vs r).1 := by
  induction vs generalizing r with
  | nil => exact h
  | cons v vs ih =>
    have h1 := attempts_keeps (P := P) (f := Machine.writeByte v) (fun _ h => k.writeByte v h) Config.maxAttempts h
    simp only [Machine.writePayload]
    generalize Machine.attempts (Machine.writeByte v) Config.maxAttempts r.1 = r1 at h1 ⊢
    exact ih h1

end

section
variable {P : State → Prop} (k : KeptReads P)
include k

theorem KeptReads.readShift {s : State} (h : P s) : P (readShift s) := k.clockLow (k.fifo _ _ (k.clockHigh h))

theorem KeptReads.readShifts (n : Nat) {s : State} (h : P s) : P (readShifts n s) := by
  induction n generalizing s with
  | zero => exact h
  | succ n ih => exact ih (k.readShift h)

theorem KeptReads.readByte (z : Bool) {s : State} (h : P s) : P (readByte z s) := by
  have h1 := k.lineSetDir .sda .out _ (k.readShifts 8 (k.fifo 0 _ (k.lineSetDir .sda .inp _ h)))
  simp only [Machine.readByte]
  split
  · exact k.stopCondition h1
  · exact k.writeBit _ h1

end

section
variable {P : State → Prop} (k : Kept P)
include k

theorem Kept.writeBytes (a : Addr) (vs : List Byte) {s : State} (h : P s) : P (writeBytes a vs s) :=
  k.status _ _ (k.stopCondition (k.writePayload vs (k.addressPhase a false h)))

theorem Kept.readInto (hw : ∀ i v s, P s → P (s.memWrite i v)) (i : Nat) (z : Bool) {s : State} (h : P s) :
    P (readInto i z s) := by
  have h1 := k.readByte z h
  simp only [Machine.readInto]
  split
  · exact hw _ _ _ h1
  · exact h1

theorem Kept.readPayload (hw : ∀ i v s, P s → P (s.memWrite i v)) (i n : Nat) {s : State} (h : P s) :
    P (readPayload i n s) := by
  induction n generalizing s i with
  | zero => exact h
  | succ n ih => exact ih (i + 1) (k.readInto hw i _ h)

theorem Kept.readBytes (hw : ∀ i v s, P s → P (s.memWrite i v)) (a : Addr) {s : State} (h : P s) :
    P (readBytes a s) := by
  simp only [Machine.readBytes]
  refine k.status _ _ ?_
  split
  · exact k.stopCondition (k.addressPhase a true h)
  · exact k.readPayload hw 0 _ (k.addressPhase a true h)

end

/-- Every sequence keeps a calm state calm. -/
theorem calm_kept : Kept fun s => s.calm = true where
  lineW l v _ h := lineW_calm l v h
  lineD n _ h := lineD_calm n h
  phase _ s h := (upd_calm _ s).trans h
  lastAck _ s h := (upd_calm _ s).trans h
  lineSetDir l d _ h := lineSetDir_calm l d h
  fifo _ s h := (upd_calm _ s).trans h
  result _ s h := (upd_calm _ s).trans h
  status _ s h := (upd_calm _ s).trans h

/-- Every sequence leaves alone what its actions leave alone. -/
theorem frame_kept (s : State) : Kept (ActionFrame s) where
  lineW l v t h := h.trans (lineW_frame l v t)
  lineD n t h := h.trans (lineD_frame n t)
  phase _ t h := h.trans (upd_frame _ t ⟨rfl, rfl, rfl, rfl⟩)
  lastAck _ t h := h.trans (upd_frame _ t ⟨rfl, rfl, rfl, rfl⟩)
  lineSetDir l d t h := h.trans (lineSetDir_frame l d t)
  fifo _ t h := h.trans (upd_frame _ t ⟨rfl, rfl, rfl, rfl⟩)
  result _ t h := h.trans (upd_frame _ t ⟨rfl, rfl, rfl, rfl⟩)
  status _ t h := h.trans (upd_frame _ t ⟨rfl, rfl, rfl, rfl⟩)

/-! ### One register of the master through a sequence -/

section
variable {α : Type} {g : Master → α} {x : α}

/-- A register update that leaves `g` alone. -/
theorem upd_field {f : Master → Master} (hf : ∀ m, g (f m) = g m) (s : State) (h : g s.m = x) : g (s.upd f).m = x := by
  simp only [State.upd]
  split
  · exact (hf s.m).trans h
  · exact h

/-- A line action that leaves `g` alone. -/
theorem act_field {f : Master → Master} (hf : ∀ m n, g { f m with actions := n } = g m) (s : State) (h : g s.m = x) :
    g (act f s).m = x := by
  rw [act]
  cases hl : (agents s).live with
  | false => rw [drive_dead f hl, agents_m]; exact h
  | true => rw [drive_m f hl, agents_m]; exact (hf _ _).trans h

/-- A delay leaves every register but the two counts alone. -/
theorem lineD_field (hf : ∀ m a d, g { m with actions := a, delays := d } = g m) (n : Nat) (s : State) (h : g s.m = x) :
    g (lineD n s).m = x := by
  rw [lineD, agents_m]
  exact upd_field (fun m => hf m _ _) s h

/-- A register that is no latch, no count and not the phase. -/
theorem keptLines_field (hw : ∀ m l v n, g { m.setLatch l v with actions := n } = g m)
    (hd : ∀ m a d, g { m with actions := a, delays := d } = g m) (hp : ∀ m p, g { m with phase := p } = g m) :
    KeptLines fun s => g s.m = x :=
  ⟨fun l v => act_field fun m n => hw m l v n, fun n => lineD_field hd n, fun p => upd_field fun m => hp m p⟩

end

/-- The buffer is touched by `memWrite` alone. -/
theorem buf_kept (b : List Host.Cell) : Kept fun s => s.m.buf = b where
  toKeptLines := keptLines_field (g := Master.buf) (fun _ l _ _ => by cases l <;> rfl) (fun _ _ _ => rfl) fun _ _ => rfl
  lastAck _ := upd_field (g := Master.buf) fun _ => rfl
  lineSetDir l _ := act_field (g := Master.buf) fun _ _ => by cases l <;> rfl
  fifo _ := upd_field (g := Master.buf) fun _ => rfl
  result _ := upd_field (g := Master.buf) fun _ => rfl
  status _ := upd_field (g := Master.buf) fun _ => rfl

/-! ### The frame of a command -/

/-- A command word that a live block takes: its body, then its end. -/
theorem runWord_live {w : PortWord} {l : Option Line} {body : State → State} {s : State} (h : s.live = true) :
    runWord w l body s = .next ((body s).finish l) := by
  obtain ⟨hf, hc, hu⟩ := (live_iff s).1 h
  simp [runWord, hf, hc, hu]

/-- A stopped block takes no command word (10_state.md R50). -/
theorem runWord_stopped {w : PortWord} {l : Option Line} {body : State → State} {s : State} {f : FaultRec}
    (h : s.fault = some f) : runWord w l body s = .fault (.blockStopped f.code f.info) := by
  simp [runWord, h]

/-- A command word in interrupt context raises F5 (60_exceptions.md R286, R291). -/
theorem runWord_interrupt {w : PortWord} {l : Option Line} {body : State → State} {s : State} (hf : s.fault = none)
    (hu : s.unsettled = false) (hc : s.ctx = .interrupt) :
    runWord w l body s = .next (s.raise .interruptContext w.toNat) := by
  simp [runWord, hf, hc, hu]

/-- What a command word answers, if it answers a next state: F5, or its body and its end. -/
theorem runWord_next {w : PortWord} {l : Option Line} {body : State → State} {s t : State}
    (h : runWord w l body s = .next t) :
    s.fault = none ∧ s.unsettled = false ∧
      ((s.ctx = .interrupt ∧ t = s.raise .interruptContext w.toNat) ∨
        (s.live = true ∧ t = (body s).finish l)) := by
  simp only [runWord] at h
  split at h
  · cases h
  · next hf =>
    split at h
    · cases h
    · next hu =>
      have hu' : s.unsettled = false := by simpa using hu
      split at h
      · next hc =>
        cases h
        exact ⟨hf, hu', .inl ⟨hc, rfl⟩⟩
      · next hc =>
        cases h
        refine ⟨hf, hu', .inr ⟨(live_iff s).2 ⟨hf, ?_, hu'⟩, rfl⟩⟩
        cases hcc : s.ctx with
        | foreground => rfl
        | interrupt => exact absurd hcc hc

theorem runCommand_live {i : Instr} {l : Option Line} {body : State → State} {s : State} (h : s.live = true) :
    runCommand i l body s = .next ((body s).finish l) := runWord_live h

theorem runCommand_stopped {i : Instr} {l : Option Line} {body : State → State} {s : State} {f : FaultRec}
    (h : s.fault = some f) : runCommand i l body s = .fault (.blockStopped f.code f.info) := runWord_stopped h

theorem runCommand_interrupt {i : Instr} {l : Option Line} {body : State → State} {s : State} (hf : s.fault = none)
    (hu : s.unsettled = false) (hc : s.ctx = .interrupt) :
    runCommand i l body s = .next (s.raise .interruptContext (encode i).toNat) := runWord_interrupt hf hu hc

theorem runCommand_next {i : Instr} {l : Option Line} {body : State → State} {s t : State}
    (h : runCommand i l body s = .next t) :
    s.fault = none ∧ s.unsettled = false ∧
      ((s.ctx = .interrupt ∧ t = s.raise .interruptContext (encode i).toNat) ∨
        (s.live = true ∧ t = (body s).finish l)) := runWord_next h

/-- What an event row answers, if it answers a next state. -/
theorem runEvent_next {f : State → State} {s t : State} (h : runEvent f s = .next t) :
    s.fault = none ∧ s.unsettled = false ∧ t = f s := by
  simp only [runEvent] at h
  split at h
  · cases h
  · next hf =>
    split at h
    · cases h
    · next hu => cases h; exact ⟨hf, by simpa using hu, rfl⟩

/-- A block that processes events takes an event step. -/
theorem runEvent_processing {f : State → State} {s : State} (h : Processing s) : runEvent f s = .next (f s) := by
  simp [runEvent, h.fault, h.settled]

end Sys2Proof.Machine
end

