-- ==== Sys2Proof/Laws/PerInstr.lean ====
section
/-! SUPPORT. Per-instruction lemmas: the family OpcodeByte says that the word of an instruction holds its opcode byte and
its operand byte (30_encoding.md R81, R82). -/

namespace Sys2Proof.Laws.OpcodeByte

/-- Bits 15:8 of the word are the opcode, bits 7:0 the operand. -/
def Statement (i : Instr) : Prop := unitOp (encode i) = i.opcode ∧ imm (encode i) = i.operand

/-- The two bytes of a word that is put together from them. -/
theorem halves (a b : Byte) : unitOp (a ++ b) = a ∧ imm (a ++ b) = b := by
  have h : ∀ k, (a ++ b : PortWord).getLsbD k = if k < 8 then b.getLsbD k else a.getLsbD (k - 8) := fun k => by
    rw [show (a ++ b : PortWord).getLsbD k = (a ++ b).getLsbD k from rfl, BitVec.getLsbD_append]
  constructor
  · refine BitVec.eq_of_getLsbD_eq fun i hi => ?_
    simp [unitOp, h, hi]
  · refine BitVec.eq_of_getLsbD_eq fun i hi => ?_
    simp [imm, h, hi]

theorem fReset : Statement .fReset := halves _ _
theorem fShift (b : Bool) : Statement (.fShift b) := halves _ _
theorem fLoad (v : Byte) : Statement (.fLoad v) := halves _ _
theorem fRead : Statement .fRead := halves _ _
theorem lRead (l : Line) : Statement (.lRead l) := halves _ _
theorem lWrite (l : Line) (v : Level) : Statement (.lWrite l v) := halves _ _
theorem lSetdir (l : Line) (d : Dir) : Statement (.lSetdir l d) := halves _ _
theorem lDelay (n : Nat) : Statement (.lDelay n) := halves _ _
theorem mStart : Statement .mStart := halves _ _
theorem mStop : Statement .mStop := halves _ _
theorem mWriteBit (b : Bool) : Statement (.mWriteBit b) := halves _ _
theorem mReadBit : Statement .mReadBit := halves _ _
theorem mWriteByte (v : Byte) : Statement (.mWriteByte v) := halves _ _
theorem mReadByte (z : Bool) : Statement (.mReadByte z) := halves _ _
theorem mStartComm (a : Addr) (r : Bool) : Statement (.mStartComm a r) := halves _ _
theorem mSetlen (n : Nat) : Statement (.mSetlen n) := halves _ _
theorem mWriteBytes (a : Addr) : Statement (.mWriteBytes a) := halves _ _
theorem mReadBytes (a : Addr) : Statement (.mReadBytes a) := halves _ _
theorem qSnap (i : Nat) : Statement (.qSnap i) := halves _ _
theorem qStatus : Statement .qStatus := halves _ _
theorem evLine (pin : Pin) (level : Level) : Statement (.evLine pin level) := halves _ _
theorem slvSdaFall (pin : Pin) : Statement (.slvSdaFall pin) := halves _ _
theorem slvSdaRise (pin : Pin) : Statement (.slvSdaRise pin) := halves _ _
theorem slvSclRise (pin : Pin) : Statement (.slvSclRise pin) := halves _ _
theorem slvSclFall (pin : Pin) : Statement (.slvSclFall pin) := halves _ _
theorem snfSdaFall (pin : Pin) : Statement (.snfSdaFall pin) := halves _ _
theorem snfSdaRise (pin : Pin) : Statement (.snfSdaRise pin) := halves _ _
theorem snfSclRise (pin : Pin) : Statement (.snfSclRise pin) := halves _ _
theorem snfSclFall (pin : Pin) : Statement (.snfSclFall pin) := halves _ _

end Sys2Proof.Laws.OpcodeByte
end

