-- ==== Sys2Proof/Laws/Sequences.lean ====
section
/-! SUPPORT. What each of the master's sequences does to the master's registers on a calm state, said once
(42_master.md R152 to R158, R164). -/

namespace Sys2Proof.Machine

/-- The state is calm and its master's registers are `m`. -/
structure At (s : State) (m : Master) : Prop where
  calm   : s.calm = true
  master : s.m = m

theorem At.of {s : State} (h : s.calm = true) : At s s.m := ⟨h, rfl⟩

theorem At.congr {s : State} {m m' : Master} (h : At s m) (e : m = m') : At s m' := e ▸ h

section
variable {s : State} {m : Master} (h : At s m)
include h

theorem At.lineW (l : Line) (v : Level) : At (lineW l v s) { m.setLatch l v with actions := m.actions + 1 } :=
  ⟨lineW_calm l v h.calm, by rw [lineW_m l v h.calm, h.master]⟩

theorem At.lineSetDir (l : Line) (d : Dir) :
    At (lineSetDir l d s) { m.setDir l d with actions := m.actions + 1 } :=
  ⟨lineSetDir_calm l d h.calm, by rw [lineSetDir_m l d h.calm, h.master]⟩

theorem At.lineD (n : Nat) : At (lineD n s) { m with actions := m.actions + 1, delays := m.delays + n } :=
  ⟨lineD_calm n h.calm, by rw [lineD_m n h.calm, h.master]⟩

theorem At.upd (f : Master → Master) : At (s.upd f) (f m) :=
  ⟨by simpa using h.calm, by simp only [State.upd, calm_live h.calm, if_true, h.master]⟩

theorem At.setPhase (p : Proto) : At (setPhase p s) { m with phase := p } := h.upd _

theorem At.setLastAck (b : Bool) : At (setLastAck b s) { m with lastAck := b } := h.upd _

theorem At.setResult (v : Byte) : At (setResult v s) { m with result := v } := h.upd _

theorem At.setStatus (st : Status) : At (setStatus st s) { m with status := st } := h.upd _

theorem At.setFifo (v : Byte) : At (setFifo v s) { m with fifo := v } := h.upd _

theorem At.finish (l : Option Line) :
    At (s.finish l) { m with settleSda := decide (l = some .sda), settleScl := decide (l = some .scl) } := h.upd _

theorem At.startCondition :
    At (startCondition s)
      { m with sdaLatch := false, sclLatch := false, phase := .started, actions := m.actions + 7,
               delays := m.delays + 3 } :=
  (((((((h.lineW .sda true).lineW .scl true).lineD 1).lineW .sda false).lineD 1).lineW .scl false).lineD 1).setPhase
    .started

theorem At.stopCondition :
    At (stopCondition s)
      { m with sdaLatch := true, sclLatch := true, phase := .stopped, actions := m.actions + 5,
               delays := m.delays + 2 } :=
  (((((h.lineW .sda false).lineW .scl true).lineD 1).lineW .sda true).lineD 1).setPhase .stopped

theorem At.writeBit (b : Bool) :
    At (writeBit b s)
      { m with sdaLatch := b, sclLatch := false, actions := m.actions + 5, delays := m.delays + 2 } :=
  ((((h.lineW .sda b).lineW .scl true).lineD 1).lineW .scl false).lineD 1

theorem At.readBit :
    At (readBit s).1
      { m with sdaLatch := true, sclLatch := false, actions := m.actions + 5, delays := m.delays + 2 } :=
  ((((h.lineW .sda true).lineW .scl true).lineD 1).lineW .scl false).lineD 1

theorem At.readAck :
    At (readAck s).1
      { m with sdaLatch := true, sclLatch := false, lastAck := (readAck s).2, actions := m.actions + 5,
               delays := m.delays + 2 } :=
  h.readBit.setLastAck _

/-- Bits written in turn: five line actions each. -/
theorem At.writeBits (bs : List Bool) :
    ∃ x y, At (writeBits bs s)
      { m with sdaLatch := x, sclLatch := y, actions := m.actions + 5 * bs.length,
               delays := m.delays + 2 * bs.length } := by
  induction bs generalizing s m with
  | nil => exact ⟨m.sdaLatch, m.sclLatch, h⟩
  | cons b bs ih =>
    obtain ⟨x, y, h1⟩ := ih (h.writeBit b)
    refine ⟨x, y, h1.congr ?_⟩
    simp only [List.length_cons, Master.mk.injEq, true_and]
    omega

theorem At.writeByte (v : Byte) :
    At (writeByte v s).1
      { m with sdaLatch := true, sclLatch := false, lastAck := (writeByte v s).2, actions := m.actions + 45,
               delays := m.delays + 18 } := by
  obtain ⟨x, y, h1⟩ := h.writeBits (bitsMsbFirst v)
  simp only [Machine.writeByte]
  refine h1.readAck.congr ?_
  simp only [bitsMsbFirst, List.length_cons, List.length_nil]

theorem At.startCommunication (a : Addr) (r : Bool) :
    At (startCommunication a r s).1
      { m with sdaLatch := true, sclLatch := false, lastAck := (startCommunication a r s).2,
               phase := phaseAfterAddress r, actions := m.actions + 52, delays := m.delays + 21 } := by
  obtain ⟨x, y, h1⟩ := (h.startCondition.setPhase .addressPhase).writeBits (addrBits a)
  have h2 := (h1.writeBit r).readAck.setPhase (phaseAfterAddress r)
  simp only [Machine.startCommunication]
  refine h2.congr ?_
  simp only [addrBits, List.length_cons, List.length_nil]

theorem At.readShift :
    At (readShift s)
      { m with sclLatch := false, fifo := Fifo.shiftIn m.fifo ((clockHigh s).wire .sda), actions := m.actions + 4,
               delays := m.delays + 2 } := by
  have h1 := (h.lineW .scl true).lineD 1
  have hf : (clockHigh s).m.fifo = m.fifo := by
    rw [clockHigh, h1.master]; rfl
  have h2 := ((h1.setFifo (Fifo.shiftIn m.fifo ((clockHigh s).wire .sda))).lineW .scl false).lineD 1
  simp only [Machine.readShift, hf]
  exact h2

omit h in
theorem readShifts_succ (n : Nat) (s : State) : readShifts (n + 1) s = readShift (readShifts n s) := by
  induction n generalizing s with
  | zero => rfl
  | succ n ih => rw [readShifts, ih, readShifts]

/-- The samples of `n` clocks, taken in the high phase of each (42_master.md R157). -/
theorem At.readShifts (n : Nat) :
    At (readShifts n s)
      { m with sclLatch := if n = 0 then m.sclLatch else false,
               fifo := ((List.range n).map fun k => (clockHigh (readShifts k s)).wire .sda).foldl Fifo.shiftIn m.fifo,
               actions := m.actions + 4 * n, delays := m.delays + 2 * n } := by
  induction n with
  | zero => exact h
  | succ n ih =>
    rw [readShifts_succ]
    refine ih.readShift.congr ?_
    simp only [List.range_succ, List.map_append, List.map_cons, List.map_nil, List.foldl_append, List.foldl_cons,
      List.foldl_nil, Nat.add_eq_zero_iff, one_ne_zero, and_false, if_false, Master.mk.injEq, true_and]
    omega

/-- `read_byte` (42_master.md R157). -/
theorem At.readByte (z : Bool) {s0 : State} (h0 : s0 = Machine.setFifo 0 (Machine.lineSetDir .sda .inp s)) :
    At (readByte z s)
      { m with fifo := ((List.range 8).map fun k => (clockHigh (Machine.readShifts k s0)).wire .sda).foldl
                 Fifo.shiftIn 0,
               sdaDir := .out, sdaLatch := z, sclLatch := z, phase := if z then .stopped else m.phase,
               actions := m.actions + 39, delays := m.delays + 18 } := by
  subst h0
  have h1 := (((h.lineSetDir .sda .inp).setFifo 0).readShifts 8).lineSetDir .sda .out
  cases z with
  | true =>
    simp only [Machine.readByte, if_true]
    refine h1.stopCondition.congr ?_
    simp only [Master.setDir]
  | false =>
    simp only [Machine.readByte, Bool.false_eq_true, if_false]
    refine (h1.writeBit false).congr ?_
    simp only [Master.setDir]

/-! ### Retried steps -/

/-- A step of `A` line actions and `D` delays that leaves the acknowledge it answers, retried (42_master.md R163): each
attempt has its whole cost, and a failed one leaves the step to the next. -/
theorem At.attempts {f : State → State × Bool} {p : Option Proto} {A D : Nat}
    (hf : ∀ (s : State) (m : Master), At s m → At (f s).1
      { m with sdaLatch := true, sclLatch := false, lastAck := (f s).2, phase := p.getD m.phase,
               actions := m.actions + A, delays := m.delays + D }) (n : Nat) :
    ∃ k, 1 ≤ k ∧ k ≤ n + 1 ∧ ((attempts f (n + 1) s).2 = false → k = n + 1) ∧
      At (attempts f (n + 1) s).1
        { m with sdaLatch := true, sclLatch := false, lastAck := (attempts f (n + 1) s).2, phase := p.getD m.phase,
                 actions := m.actions + A * k, delays := m.delays + D * k } := by
  have h1 := hf s m h
  induction n generalizing s m with
  | zero =>
    refine ⟨1, by omega, by omega, fun _ => rfl, ?_⟩
    cases hr : (f s).2 <;> rw [hr] at h1 <;> simpa [Machine.attempts, hr] using h1
  | succ n ih =>
    cases hr : (f s).2 with
    | true =>
      rw [hr] at h1
      exact ⟨1, by omega, by omega, by simp [Machine.attempts, hr], by simpa [Machine.attempts, hr] using h1⟩
    | false =>
      obtain ⟨k, hk, hn, hl, h2⟩ := ih h1 (hf _ _ h1)
      have e : Machine.attempts f (n + 1 + 1) s = Machine.attempts f (n + 1) (f s).1 := by
        rw [Machine.attempts]; simp [hr]
      rw [e]
      refine ⟨k + 1, by omega, by omega, fun hx => by rw [hl hx], h2.congr ?_⟩
      have hp : p.getD (p.getD m.phase) = p.getD m.phase := by cases p <;> rfl
      simp only [hp, Nat.mul_add, Master.mk.injEq, true_and, Nat.mul_one]
      omega

theorem At.addressPhase (a : Addr) (r : Bool) :
    ∃ k, 1 ≤ k ∧ k ≤ 3 ∧ ((addressPhase a r s).2 = false → k = 3) ∧
      At (addressPhase a r s).1
        { m with sdaLatch := true, sclLatch := false, lastAck := (addressPhase a r s).2,
                 phase := phaseAfterAddress r, actions := m.actions + 52 * k, delays := m.delays + 21 * k } :=
  h.attempts (p := some (phaseAfterAddress r)) (fun _ _ h => h.startCommunication a r) 2

theorem At.byteAttempts (v : Byte) :
    ∃ k, 1 ≤ k ∧ k ≤ 3 ∧ ((Machine.attempts (Machine.writeByte v) Config.maxAttempts s).2 = false → k = 3) ∧
      At (Machine.attempts (Machine.writeByte v) Config.maxAttempts s).1
        { m with sdaLatch := true, sclLatch := false,
                 lastAck := (Machine.attempts (Machine.writeByte v) Config.maxAttempts s).2,
                 actions := m.actions + 45 * k, delays := m.delays + 18 * k } :=
  h.attempts (p := none) (fun _ _ h => h.writeByte v) 2

omit h in
/-- The payload of a write: each byte has one to three attempts, and the answer is false only where some step used all
three (42_master.md R160, R163, R164). -/
theorem At.writePayload (vs : List Byte) (ok : Bool) (h : At s m) :
    ∃ ks : List Nat, ks.length = vs.length ∧ (∀ x ∈ ks, 1 ≤ x ∧ x ≤ 3) ∧
      ((writePayload vs (s, ok)).2 = false → ok = false ∨ 3 ∈ ks) ∧
      ∃ x y b, At (writePayload vs (s, ok)).1
        { m with sdaLatch := x, sclLatch := y, lastAck := b, actions := m.actions + 45 * ks.sum,
                 delays := m.delays + 18 * ks.sum } := by
  induction vs generalizing s m ok with
  | nil => exact ⟨[], rfl, by simp, fun h => .inl h, m.sdaLatch, m.sclLatch, m.lastAck, h⟩
  | cons v vs ih =>
    obtain ⟨k, h1, h2, h3, h4⟩ := h.byteAttempts v
    obtain ⟨ks, g1, g2, g3, x, y, b, g4⟩ := ih (ok && (Machine.attempts (Machine.writeByte v) Config.maxAttempts s).2) h4
    refine ⟨k :: ks, by simp [g1], ?_, fun hx => ?_, x, y, b, g4.congr ?_⟩
    · intro z hz
      rcases List.mem_cons.1 hz with rfl | hz
      · exact ⟨h1, h2⟩
      · exact g2 z hz
    · rcases g3 hx with hx | hx
      · rcases Bool.and_eq_false_iff.1 hx with hx | hx
        · exact .inl hx
        · exact .inr (by simp [h3 hx])
      · exact .inr (List.mem_cons_of_mem _ hx)
    · simp only [List.sum_cons, Nat.mul_add, Master.mk.injEq, true_and]
      omega

/-- A payload byte read into the buffer (42_master.md R161). -/
theorem At.readInto (i : Nat) (z : Bool) (hi : i < s.params.bufSize) :
    ∃ v, At (readInto i z s)
        { m with fifo := v, buf := Memory.write m.buf i v, sdaDir := .out, sdaLatch := z, sclLatch := z,
                 phase := if z then .stopped else m.phase, actions := m.actions + 39, delays := m.delays + 18 } ∧
      (Machine.readInto i z s).params = s.params := by
  have h1 := h.readByte z rfl
  have hp : (Machine.readByte z s).params = s.params :=
    ((frame_kept s).readByte z (ActionFrame.refl s)).params
  refine ⟨(Machine.readByte z s).m.fifo, ?_, ?_⟩
  · simp only [Machine.readInto, calm_live h1.calm, if_true]
    refine ⟨by simpa using h1.calm, ?_⟩
    have hb : i < (Machine.readByte z s).params.bufSize := by rw [hp]; exact hi
    simp only [State.memWrite, hb, if_true, h1.master]
  · simp only [Machine.readInto, calm_live h1.calm, if_true, memWrite_params, hp]

end

/-! ### Commands built from a sequence -/

/-- What a sequence leaves alone, its command leaves alone. -/
theorem commandFrame_finish {s t : State} (h : ActionFrame s t) (hb : t.m.buf = s.m.buf) (l : Option Line) :
    CommandFrame s (t.finish l) := by
  have hm : (t.finish l).m.cfg = t.m.cfg ∧ (t.finish l).m.buf = t.m.buf := by
    simp only [State.finish, State.upd]
    split <;> exact ⟨rfl, rfl⟩
  exact ⟨⟨by simpa using h.params, by simpa using h.wiring, hm.1.trans h.cfg, by simpa using h.registry⟩,
    by simpa using h.snap, by simpa using h.inputs, by simpa using h.hostRead,
    memRead_congr (by simpa using h.params) (hm.2.trans hb)⟩

/-- A command whose body is a sequence that keeps what every line action keeps, on a calm state. -/
theorem runs_of_kept {i : Instr} {l : Option Line} {body : State → State} {s : State} {m : Master}
    (hx : ∀ s, exec i s = runCommand i l body s) (hk : ∀ P : State → Prop, Kept P → P s → P (body s))
    (hs : s.calm = true) (ha : At (body s) m) :
    exec i s = .next ((body s).finish l) ∧
      ∃ t, Runs i s t ∧ t.m = { m with settleSda := decide (l = some .sda), settleScl := decide (l = some .scl) } := by
  have e : exec i s = .next ((body s).finish l) := by rw [hx, runCommand_live (calm_live hs)]
  have f := ha.finish l
  exact ⟨e, _, ⟨e, commandFrame_finish (hk _ (frame_kept s) (ActionFrame.refl s)) (hk _ (buf_kept s.m.buf) rfl) l,
    f.calm⟩, f.master⟩

end Sys2Proof.Machine
end

