-- ==== Sys2Proof/Laws/Step.lean ====
section
/-! SUPPORT. What a step can do, said once: it takes a configuration, or nothing in a stopped block, or a pending event,
or the next input, or waits, or lets an external agent act. -/

namespace Sys2Proof.Machine

/-- A configuration is taken whatever the block's condition (70_reset_and_hazards.md R320). -/
theorem step_configure {s : State} {c : Configuration} {r : List Input} (h : s.env.inputs = .configure c :: r) :
    step s = .next (configure c s.dropInput) := by
  simp [step, h, takeInput]

/-- Where no configuration is presented next, a step asks first whether the block is stopped. -/
theorem step_other {s : State} (h : ∀ c r, s.env.inputs ≠ .configure c :: r) :
    step s =
      match s.fault with
      | some f => .fault (.blockStopped f.code f.info)
      | none =>
        if s.unsettled then .fault .neverSettles
        else
          match s.takeEvent with
          | some (e, s') => takePending e s'
          | none =>
            if s.ctx = .interrupt then
              match s.env.inputs with
              | .external a :: _ => .next (external a s.dropInput)
              | _ => .fault .callbackNeverReturned
            else
              match s.env.inputs with
              | [] => .next s
              | i :: _ => takeInput i s.dropInput := by
  unfold step
  rcases hi : s.env.inputs with _ | ⟨i, r⟩
  · rfl
  · cases i with
    | configure c => exact absurd hi (h c r)
    | _ => rfl

/-- What a step answers, if it answers a next state. -/
theorem step_next {s t : State} (h : step s = .next t) :
    (∃ c r, s.env.inputs = .configure c :: r ∧ t = configure c s.dropInput) ∨
    (s.fault = none ∧ s.unsettled = false ∧
      ((∃ e s', s.takeEvent = some (e, s') ∧ exec (handlerOf s' e.pin e.level) s' = .next t) ∨
        (s.live = true ∧ s.takeEvent = none ∧
          (s.env.inputs = [] ∧ t = s ∨
            ∃ i r, s.env.inputs = i :: r ∧ takeInput i s.dropInput = .next t)) ∨
        (s.ctx = .interrupt ∧ ∃ a r, s.env.inputs = .external a :: r ∧ t = external a s.dropInput))) := by
  by_cases hc : ∃ c r, s.env.inputs = .configure c :: r
  · obtain ⟨c, r, hi⟩ := hc
    rw [step_configure hi] at h
    cases h
    exact .inl ⟨c, r, hi, rfl⟩
  · rw [step_other (fun c r hi => hc ⟨c, r, hi⟩)] at h
    split at h
    · cases h
    · next hf =>
      split at h
      · cases h
      · next hu =>
        have hu' : s.unsettled = false := by simpa using hu
        split at h
        · next e s' he => exact .inr ⟨hf, hu', .inl ⟨e, s', he, h⟩⟩
        · next he =>
          split at h
          · next hx =>
            split at h
            · next a r hi => cases h; exact .inr ⟨hf, hu', .inr (.inr ⟨hx, a, r, hi, rfl⟩)⟩
            · cases h
          · next hx =>
            have hl : s.live = true := (live_iff s).2 ⟨hf, by cases hh : s.ctx with
              | foreground => rfl
              | interrupt => exact absurd hh hx, hu'⟩
            refine .inr ⟨hf, hu', .inr (.inl ⟨hl, he, ?_⟩)⟩
            split at h
            · next hi => cases h; exact .inl ⟨hi, rfl⟩
            · next i r hi => exact .inr ⟨i, r, hi, h⟩

end Sys2Proof.Machine
end

