-- ==== Sys2Proof/Tests/Slice0.lean ====
section
/-! SUPPORT. Tests: the refusals of WellFormed, words written out from 30_encoding.md, single steps whose expected
results are those of 95_test_vectors.md (the vector stands in each comment), and for each statement of
Sys2Proof/Certificates/Slice0/Obligations.lean a witness that meets its hypotheses together. -/

namespace Sys2Proof.Tests

open Sys2Proof.Machine

/-! ### Small states -/

/-- The slave of CFG0 in the notation of 95_test_vectors.md section 0: (proto, ack, slot, cnt, fifo, drv | sda, scl). -/
def slv (proto : Proto) (ack : AckPhase) (slot : Bool) (cnt : BitVec 32) (fifo : Byte) (drv sda scl : Level)
    (script : List CbReply) : Slave :=
  ⟨2, 3, 0x42, 0x84, 0x85, proto, ack, slot, cnt, fifo, sda, scl, drv, script, false⟩

/-- The sniffer of CFG0: (proto, ack, pos, fifo, predicted, addr) and its stored levels. -/
def snf (proto : Proto) (ack : AckPhase) (pos : BitVec 4) (fifo : Byte) (predicted : Proto) (addr : Addr)
    (sda scl : Level) : Sniffer :=
  ⟨4, 5, proto, ack, pos, fifo, predicted, addr, sda, scl⟩

/-- The slave at reset. -/
def idleSlv : Slave := slv .idle .none false 0 0 true true true []

/-- The sniffer at reset. -/
def idleSnf : Sniffer := snf .idle .none 0 0 .idle 0 true true

/-- A block with the given instances and SNIFF_TAG = 0xA5. -/
def block (es : List Engine) : State := { State.reset with params := ⟨4, 256, 0xA5⟩, registry := es }

/-- The block with one slave. -/
def one (v : Slave) : State := block [.slave v]

/-- The block with one sniffer. -/
def watch (n : Sniffer) : State := block [.sniffer n]

/-- The block with no instance. -/
def bare : State := block []

/-- The block with the given changes of the master's registers. -/
def State.withM (f : Master → Master) (s : State) : State := { s with m := f s.m }

/-- The block with the given inputs. -/
def State.given (ins : List Input) (s : State) : State := { s with env := { s.env with inputs := ins } }

/-- What a step's next state shows, none where it answers no next state. -/
def after {α : Type} (o : Host.Outcome State Fault Refusal) (f : State → α) : Option α :=
  match o with
  | .next t => some (f t)
  | _ => none

/-- The fault register's code and info, by the code's number. -/
def faultOf (s : State) : Option FaultRec := s.fault

/-! ### WellFormed: each check refuses an ill-formed term -/

theorem test_wf_refuses_delay_256 : (Instr.lDelay 256).wf = false := by decide
theorem test_wf_refuses_setlen_256 : (Instr.mSetlen 256).wf = false := by decide
theorem test_wf_refuses_snap_256 : (Instr.qSnap 256).wf = false := by decide
theorem test_wf_admits_the_greatest_counts :
    (Instr.lDelay 255).wf = true ∧ (Instr.mSetlen 255).wf = true ∧ (Instr.qSnap 255).wf = true := by decide

/-! ### Words written out: bits 15:12 unit, 11:8 operation, 7:0 operand (30_encoding.md R81 to R86) -/

theorem test_decode_fifo :
    decode 0b0000_0000_0000_0000 = .ok .fReset ∧
    decode 0b0000_0001_0000_0001 = .ok (.fShift true) ∧
    decode 0b0000_0010_1001_1001 = .ok (.fLoad 0x99) ∧
    decode 0b0000_0011_0000_0000 = .ok .fRead := by decide

theorem test_decode_line :
    decode 0b0001_0000_0000_0001 = .ok (.lRead .scl) ∧
    decode 0b0001_0001_0000_0010 = .ok (.lWrite .sda true) ∧
    decode 0b0001_0001_0000_0001 = .ok (.lWrite .scl false) ∧
    decode 0b0001_0010_0000_0010 = .ok (.lSetdir .sda .out) ∧
    decode 0b0001_0010_0000_0001 = .ok (.lSetdir .scl .inp) ∧
    decode 0b0001_0011_1111_1111 = .ok (.lDelay 255) := by decide

theorem test_decode_master :
    decode 0b0010_0000_0000_0000 = .ok .mStart ∧
    decode 0b0010_0001_0000_0000 = .ok .mStop ∧
    decode 0b0010_0010_0000_0001 = .ok (.mWriteBit true) ∧
    decode 0b0010_0011_0000_0000 = .ok .mReadBit ∧
    decode 0b0010_0100_0010_1010 = .ok (.mWriteByte 0x2A) ∧
    decode 0b0010_0101_0000_0001 = .ok (.mReadByte true) ∧
    decode 0b0010_0110_1000_0101 = .ok (.mStartComm 0x42 true) ∧
    decode 0b0010_0111_0001_0001 = .ok (.mSetlen 17) ∧
    decode 0b0010_1000_1000_0100 = .ok (.mWriteBytes 0x42) ∧
    decode 0b0010_1001_1000_0100 = .ok (.mReadBytes 0x42) := by decide

theorem test_decode_query_and_event :
    decode 0b0100_0000_0000_0001 = .ok (.qSnap 1) ∧
    decode 0b0100_0001_0000_0000 = .ok .qStatus ∧
    decode 0b0011_0000_0000_0100 = .ok (.evLine 2 false) ∧
    decode 0b0011_0000_0000_0111 = .ok (.evLine 3 true) ∧
    decode 0b0011_0000_1111_1110 = .ok (.evLine 127 false) := by decide

/-- V-X3 to V-X6, V-M16, V-L14, V-F10. -/
theorem test_decode_refuses_reserved_words :
    decode 0x0500 = .error .reservedOp ∧ decode 0x2A00 = .error .reservedOp ∧ decode 0x4200 = .error .reservedOp ∧
    decode 0x5000 = .error .reservedOp ∧ decode 0x2001 = .error .mustBeZero ∧ decode 0x4101 = .error .mustBeZero ∧
    decode 0x2885 = .error .mustBeZero ∧ decode 0x1104 = .error .mustBeZero ∧ decode 0x0102 = .error .mustBeZero ∧
    decode 0x3100 = .error .notAnEvent ∧ decodeCommand 0x3004 = .error .reservedOp := by decide

/-- A table word's bits are numbered from the least significant one. -/
theorem test_decodeTableWord :
    decodeTableWord 16 0x2684 = some (.mStartComm 0x42 false) ∧ decodeTableWord 16 0x0500 = none := by decide

/-! ### Fifo8 -/

/-- V-F1. -/
theorem test_fShift :
    after (exec (.fShift false) (State.withM (fun m => { m with fifo := 0x81 }) bare)) (fun t => (t.m.fifo, t.m.result))
      = some (0x02, 0x01) := by decide

/-- V-F3. -/
theorem test_fShift_in :
    after (exec (.fShift true) bare) (fun t => (t.m.fifo, t.m.result)) = some (0x01, 0x00) := by decide

/-- V-F4. -/
theorem test_fReset :
    after (exec .fReset (State.withM (fun m => { m with fifo := 0x5A, result := 7 }) bare))
      (fun t => (t.m.fifo, t.m.result)) = some (0x00, 7) := by decide

/-- V-F6. -/
theorem test_fLoad : after (exec (.fLoad 0x99) bare) (fun t => (t.m.fifo, t.m.result)) = some (0x99, 0) := by decide

/-- V-F7. -/
theorem test_fRead :
    after (exec .fRead (State.withM (fun m => { m with fifo := 0x3C }) bare)) (fun t => (t.m.fifo, t.m.result))
      = some (0x3C, 0x3C) := by decide

/-! ### Lines -/

/-- V-L6: the master reads the wire, not its latch. -/
theorem test_lRead :
    after (exec (.lRead .sda) (one { idleSlv with sdaDrv := false })) (fun t => (t.m.result, t.m.sdaLatch))
      = some (0x00, true) := by decide

/-- V-L1: a start condition. -/
theorem test_lWrite :
    after (exec (.lWrite .sda false) (one idleSlv)) (fun t => (t.m.sdaLatch, t.wire .sda, t.registry, t.callbacks))
      = some (false, false, [.slave (slv .started .none false 0 0x00 true false true [])], [⟨0, .start, 0, 0⟩]) := by
  decide

/-- V-L3. -/
theorem test_lWrite_same_level :
    after (exec (.lWrite .sda true) (one idleSlv)) (fun t => (t.events, t.callbacks, t.registry))
      = some ([], [], [.slave idleSlv]) := by decide

/-- V-L7 and V-L8: a latch of 0 with the direction in, then the direction out. -/
theorem test_lSetdir :
    after (exec (.lSetdir .sda .out) (State.withM (fun m => { m with sdaDir := .inp, sdaLatch := false }) (one idleSlv)))
      (fun t => (t.wire .sda, t.callbacks, t.m.settleSda, t.m.settleScl))
      = some (false, [⟨0, .start, 0, 0⟩], true, false) := by decide

/-- V-L9. -/
theorem test_lDelay :
    after (exec (.lDelay 0) (one idleSlv)) (fun t => (t.registry, t.callbacks, t.m.sdaLatch, t.m.delays))
      = some ([.slave idleSlv], [], true, 0) := by decide

/-- V-D1 to V-D7 (41_line_and_edge.md R125). -/
theorem test_delayUnit :
    delayUnitOf 100000 = 10 ∧ delayUnitOf 400000 = 2 ∧ delayUnitOf 1 = 1000000 ∧ delayUnitOf 1000000 = 1 ∧
    delayUnitOf 2000000 = 1 ∧ delayUnitOf 3 = 333333 := by decide

/-- Only what is attached to a wire drives it, and a slave drives SDA only (41_line_and_edge.md R130): a slave with
crossed pins that pulls low, and a master that pulls low with both pins attached to nothing. -/
theorem test_wire_attached :
    (State.wire { one { idleSlv with sdaDrv := false } with wiring := [(2, .scl), (3, .sda)] } .sda = true ∧
      State.wire { one { idleSlv with sdaDrv := false } with wiring := [(2, .scl), (3, .sda)] } .scl = true) ∧
    (∀ l, State.wire (State.withM (fun m => { m with sdaLatch := false, sclLatch := false })
      { bare with wiring := [] }) l = true) ∧
    ∀ l, State.wire (State.withM (fun m => { m with sdaLatch := false, sclLatch := false }) bare) l = false := by
  refine ⟨by decide, ?_, ?_⟩ <;> (intro l; cases l <;> decide)

/-! ### The master -/

/-- V-M1. -/
theorem test_mStart :
    after (exec .mStart bare) (fun t => (t.wire .sda, t.wire .scl, t.m.phase, t.m.actions))
      = some (false, false, .started, 7) := by decide

/-- An external agent pulls SCL low between the first two drives of the start sequence (00_scope.md R13), so that SDA
falls while SCL is low: no slave sees a start (43_slave.md R192). -/
theorem test_external_action_between_two_drives :
    after (exec .mStart { one idleSlv with env := { Env.reset with yields := [[], [.drive true false]] } })
      (fun t => (t.callbacks, t.wire .scl, t.m.phase)) = some ([], false, .started) := by decide

/-- V-M3: on an idle bus the stop sequence begins with a start. -/
theorem test_mStop :
    after (exec .mStop (one idleSlv)) (fun t => (t.callbacks, t.m.phase, t.m.actions))
      = some ([⟨0, .start, 0, 0⟩, ⟨0, .stop, 0, 0⟩], .stopped, 5) := by decide

/-- V-M5. -/
theorem test_mWriteBit :
    after (exec (.mWriteBit true) (State.withM (fun m => { m with sdaLatch := false, sclLatch := false }) bare))
      (fun t => (t.wire .sda, t.wire .scl, t.m.actions)) = some (true, false, 5) := by decide

/-- V-M6. -/
theorem test_mReadBit :
    after (exec .mReadBit (State.withM (fun m => { m with sdaLatch := false, sclLatch := false }) bare))
      (fun t => (t.m.result, t.wire .sda, t.wire .scl)) = some (0x01, true, false) := by decide

/-- V-M8. -/
theorem test_mWriteByte :
    after (exec (.mWriteByte 0x2A) (State.withM (fun m => { m with sdaLatch := false, sclLatch := false }) bare))
      (fun t => (t.m.lastAck, t.m.result, t.m.actions)) = some (false, 0x00, 45) := by
  set_option maxRecDepth 20000 in decide

/-- V-M9. -/
theorem test_mReadByte :
    after (exec (.mReadByte true) (State.withM (fun m => { m with sdaLatch := false, sclLatch := false }) bare))
      (fun t => (t.m.result, t.m.fifo, t.m.phase, t.m.actions)) = some (0xFF, 0xFF, .stopped, 39) := by
  set_option maxRecDepth 20000 in decide

/-- V-M10. -/
theorem test_mStartComm :
    after (exec (.mStartComm 0x42 false) (one idleSlv)) (fun t => (t.m.lastAck, t.m.result, t.m.phase, t.callbacks))
      = some (true, 0x01, .transmitting, [⟨0, .start, 0, 0⟩]) := by
  set_option maxRecDepth 20000 in decide

/-- V-M11. -/
theorem test_mStartComm_absent :
    after (exec (.mStartComm 0x10 true) (one idleSlv)) (fun t => (t.m.lastAck, t.m.phase))
      = some (false, .receiving) := by
  set_option maxRecDepth 20000 in decide

/-- V-M12. -/
theorem test_mSetlen_bad :
    after (exec (.mSetlen 17) { bare with params := ⟨4, 16, 0⟩ }) faultOf = some (some ⟨.badLength, 17⟩) := by decide

/-- V-M13. -/
theorem test_mSetlen : after (exec (.mSetlen 255) bare) (fun t => (t.m.len, t.fault)) = some (255, none) := by decide

/-- V-M15. -/
theorem test_mWriteBytes_unwritten :
    after (exec (.mWriteBytes 0x42) (State.withM (fun m => { m with len := 2, buf := [(0, 1)] }) (one idleSlv)))
      (fun t => (t.fault, t.callbacks, t.m.actions)) = some (some ⟨.unwrittenBuffer, 1⟩, [], 0) := by decide

/-- Program 1, word 3. -/
theorem test_mWriteBytes :
    after (exec (.mWriteBytes 0x42) (State.withM (fun m => { m with len := 1, buf := [(0, 0x2A)] }) (one idleSlv)))
      (fun t => (t.callbacks, t.m.status, t.m.actions))
      = some ([⟨0, .start, 0, 0⟩, ⟨0, .receive, 0x2A, 1⟩, ⟨0, .stop, 0x54, 1⟩], .ok, 102) := by
  set_option maxRecDepth 20000 in decide

/-- Program 2, word 2. -/
theorem test_mReadBytes :
    after (exec (.mReadBytes 0x42) (State.withM (fun m => { m with len := 1 })
        (one { idleSlv with script := [.returns 0, .returns 0x99] })))
      (fun t => (t.memRead 0, t.m.status, t.callbacks))
      = some (some 0x99, .ok, [⟨0, .start, 0, 0⟩, ⟨0, .request, 0, 1⟩, ⟨0, .stop, 0, 1⟩]) := by
  set_option maxRecDepth 20000 in decide

/-- V-M18: the slave drives 0, so that the stop sequence makes no stop condition. -/
theorem test_mReadBytes_of_none :
    after (exec (.mReadBytes 0x42) (one { idleSlv with script := [.returns 0, .returns 0x2A] }))
      (fun t => (t.registry, t.m.phase))
      = some ([.slave (slv .transmitting .none false 1 0x54 false false true [])], .stopped) := by
  set_option maxRecDepth 20000 in decide

/-! ### Queries -/

/-- V-C9. -/
theorem test_qSnap :
    after (exec (.qSnap 1) (block [.slave idleSlv, .sniffer idleSnf])) State.snap
      = some (some (.sniffer .idle .none 0 0x00 .idle 0 true true)) := by decide

/-- V-C10. -/
theorem test_qSnap_bad :
    after (exec (.qSnap 2) (block [.slave idleSlv, .sniffer idleSnf])) faultOf = some (some ⟨.badInstance, 2⟩) := by
  decide

/-- V-M19. -/
theorem test_qStatus :
    after (exec .qStatus (State.withM (fun m => { m with phase := .stopped, status := .ackFailed }) bare))
      (fun t => t.m.result) = some 0x51 := by decide

/-! ### The event word and the slave's handlers -/

/-- V-L10: the stored level, no edge. -/
theorem test_evLine_same_level :
    after (exec (.evLine 2 true) (one idleSlv)) (fun t => (t.registry, t.callbacks)) = some ([.slave idleSlv], []) := by
  decide

/-- V-S21: a start in the middle of a byte. -/
theorem test_evLine :
    after (exec (.evLine 2 false) (one (slv .transmitting .none false 5 0xC0 true true true []))) State.registry
      = some ([.slave (slv .started .none false 0 0x00 true false true [])]) := by decide

/-- V-S1. -/
theorem test_slvSdaFall :
    after (exec (.slvSdaFall 2) (one idleSlv)) (fun t => (t.registry, t.callbacks))
      = some ([.slave (slv .started .none false 0 0x00 true false true [])], [⟨0, .start, 0, 0⟩]) := by decide

/-- V-S2. -/
theorem test_slvSdaFall_clock_low :
    after (exec (.slvSdaFall 2) (one (slv .receiving .none false 3 0x05 true true false [])))
      (fun t => (t.registry, t.callbacks))
      = some ([.slave (slv .receiving .none false 3 0x05 true false false [])], []) := by decide

/-- V-S13. -/
theorem test_slvSdaRise :
    after (exec (.slvSdaRise 2) (one (slv .receiving .none false 9 0x54 true false true [])))
      (fun t => (t.registry, t.callbacks))
      = some ([.slave (slv .idle .none false 0 0x00 true true true [])], [⟨0, .stop, 0x54, 1⟩]) := by decide

/-- V-S8. -/
theorem test_slvSclRise_receive :
    after (exec (.slvSclRise 3) (one (slv .receiving .none false 7 0x15 true false false [])))
      (fun t => (t.registry, t.callbacks))
      = some ([.slave (slv .receiving .awaitingReceiveAck false 8 0x2A true false true [])], [⟨0, .receive, 0x2A, 1⟩]) := by
  decide

/-- V-S19: a failed acknowledge rewinds the counter. -/
theorem test_slvSclRise_nack :
    after (exec (.slvSclRise 3) (one (slv .transmitting .awaitingTransmitAck true 8 0x00 true true false []))) State.registry
      = some ([.slave (slv .transmitting .none true 0 0x00 true true true [])]) := by decide

/-- V-S15. -/
theorem test_slvSclFall_request :
    after (exec (.slvSclFall 3) (one (slv .transmitting .none true 0 0x00 false false true [.returns 0x99])))
      (fun t => (t.registry, t.callbacks))
      = some ([.slave (slv .transmitting .none false 1 0x32 true false false [])], [⟨0, .request, 0x00, 1⟩]) := by
  decide

/-- V-S9. -/
theorem test_slvSclFall_ack :
    after (exec (.slvSclFall 3) (one (slv .receiving .awaitingReceiveAck false 8 0x2A true false true []))) State.registry
      = some ([.slave (slv .receiving .none true 8 0x2A false false false [])]) := by decide

/-! ### The sniffer's handlers -/

/-- V-N7. -/
theorem test_snfSdaFall :
    after (exec (.snfSdaFall 4) (watch (snf .receiving .none 4 0x0B .receiving 0x42 true true))) (fun t => (t.registry, t.frames))
      = some ([.sniffer (snf .started .none 0 0x00 .idle 0 false true)], []) := by decide

/-- V-N13, the stop. -/
theorem test_snfSdaRise :
    after (exec (.snfSdaRise 4) (watch (snf .receiving .none 1 0x54 .receiving 0x42 false true))) (fun t => (t.registry, t.frames))
      = some ([.sniffer (snf .idle .none 0 0x00 .idle 0 true true)], []) := by decide

/-- V-N2. -/
theorem test_snfSclRise_address :
    after (exec (.snfSclRise 5) (watch (snf .started .none 7 0x42 .idle 0 true false))) (fun t => (t.registry, t.frames))
      = some ([.sniffer (snf .started .awaitingReceiveAck 8 0x85 .transmitting 0x42 true true)], []) := by decide

/-- V-N5. -/
theorem test_snfSclRise_record :
    after (exec (.snfSclRise 5) (watch (snf .receiving .awaitingReceiveAck 8 0x2A .receiving 0x42 true false))) (fun t => (t.registry, t.frames))
      = some ([.sniffer (snf .receiving .none 0 0x2A .receiving 0x42 true true)], [0xA584442A]) := by decide

/-- V-N9. -/
theorem test_snfSclFall :
    after (exec (.snfSclFall 5) (watch (snf .receiving .none 4 0x0B .receiving 0x42 true true))) (fun t => t.registry)
      = some [.sniffer (snf .receiving .none 4 0x0B .receiving 0x42 true false)] := by decide

/-! ### Faults, configuration and steps -/

/-- V-X1: a callback issues M.START. -/
theorem test_callback_issues_a_command :
    after (exec (.slvSdaFall 2) (one { idleSlv with script := [.issues 0x2000] }))
      (fun t => (t.fault, t.registry, t.ctx))
      = some (some ⟨.interruptContext, 0x2000⟩, [.slave (slv .started .none false 0 0x00 true false true [])], .interrupt) := by
  decide

/-- V-X2: F5 before F7. -/
theorem test_interrupt_context_comes_first :
    after (exec (.slvSdaFall 2) (one { idleSlv with script := [.issues 0x0500] })) faultOf
      = some (some ⟨.interruptContext, 0x0500⟩) := by decide

/-- V-X3, V-X4. -/
theorem test_reserved_command :
    after (takeCommand 0x0500 bare) faultOf = some (some ⟨.reservedCommand, 0x0500⟩) ∧
    after (takeCommand 0x3004 bare) faultOf = some (some ⟨.reservedCommand, 0x3004⟩) := by decide

/-- CFG0 (95_test_vectors.md section 0). -/
def cfg0 : Configuration :=
  ⟨some ⟨0, 1, 100000⟩, [.slave 2 3 0x42 [], .sniffer 4 5],
    [(0, .sda), (2, .sda), (4, .sda), (1, .scl), (3, .scl), (5, .scl)]⟩

/-- The reset state is what CFG0 configures. -/
theorem test_reset_is_cfg0 :
    (configure cfg0 bare).m = State.reset.m ∧ (configure cfg0 bare).registry = State.reset.registry ∧
    (configure cfg0 bare).wiring = State.reset.wiring ∧ (configure cfg0 bare).fault = none := by decide

/-- V-C1 to V-C6. -/
theorem test_configuration_checks :
    (configure cfg0 { bare with params := ⟨1, 256, 0⟩ }).fault = some ⟨.registryFull, 2⟩ ∧
    (configure ⟨none, [.slave 2 2 0x42 []], []⟩ bare).fault = some ⟨.pinConflict, 2⟩ ∧
    (configure ⟨some ⟨0, 1, 1⟩, [.sniffer 0 5], []⟩ bare).fault = some ⟨.pinConflict, 0⟩ ∧
    (configure ⟨none, [.slave 2 3 200 []], []⟩ bare).fault = some ⟨.badAddress, 200⟩ ∧
    (configure ⟨some ⟨0, 1, 0⟩, [], []⟩ bare).fault = some ⟨.badFrequency, 0⟩ ∧
    (configure ⟨none, [.slave 2 2 200 [], .sniffer 2 2], []⟩ { bare with params := ⟨1, 256, 0⟩ }).fault
      = some ⟨.registryFull, 2⟩ := by decide

/-- V-L12: an external agent pulls both wires low at once, and the slave takes the two events in either order. -/
theorem test_simultaneous_changes :
    after (step (State.given [.external (.drive false false)] (one idleSlv)))
      (fun t => ([0, 1].map fun c => (State.takeEvent { t with env := { t.env with choices := [c] } }).map
        fun r => (r.1.pin, r.1.level))) = some [some (2, false), some (3, false)] := by decide

/-- V-X8: the host reads a byte that was never written. -/
theorem test_host_read_of_an_unwritten_byte :
    after (step { bare with env := { bare.env with inputs := [.memRead 5] } }) faultOf
      = some (some ⟨.unwrittenBuffer, 5⟩) := by decide

/-- A word presented after reset is what the very next step runs. -/
theorem test_withFetchWord :
    after (step (State.reset.withFetchWord 16 0x0299)) (fun t => (t.m.fifo, t.env.inputs)) = some (0x99, []) := by
  decide

/-! ### Witnesses: each statement's hypotheses hold together, and each of its clauses has an input -/

/-- The block of CFG0 with fixed parameters. -/
def cfgBlock : State := block [.slave idleSlv, .sniffer idleSnf]

/-- The block in interrupt context. -/
def State.preempted (s : State) : State := { s with ctx := .interrupt }

theorem processing_block (es : List Engine) : Processing (block es) := ⟨rfl, rfl⟩

theorem slaveAt_sda (v : Slave) (h : v.sdaPin = 2 ∧ v.stuck = false) : SlaveAt (one v) 2 .sda 0 v :=
  ⟨by simp [State.owner, ownerFrom, one, block, Engine.sdaPin, h.1], rfl, h.2⟩

theorem slaveAt_scl (v : Slave) (h : v.sdaPin = 2 ∧ v.sclPin = 3 ∧ v.stuck = false) : SlaveAt (one v) 3 .scl 0 v :=
  ⟨by simp [State.owner, ownerFrom, one, block, Engine.sdaPin, Engine.sclPin, h.1, h.2.1], rfl, h.2.2⟩

theorem snifferAt_sda (n : Sniffer) (h : n.sdaPin = 4) : SnifferAt (watch n) 4 .sda 0 n :=
  ⟨by simp [State.owner, ownerFrom, watch, block, Engine.sdaPin, h], rfl⟩

theorem snifferAt_scl (n : Sniffer) (h : n.sdaPin = 4 ∧ n.sclPin = 5) : SnifferAt (watch n) 5 .scl 0 n :=
  ⟨by simp [State.owner, ownerFrom, watch, block, Engine.sdaPin, Engine.sclPin, h.1, h.2], rfl⟩

theorem witness_DecodeOfEncode :
    (Instr.lDelay 255).wf = true ∧ (Instr.lDelay 255).isCommand = true ∧ (Instr.slvSclFall 3).wf = true ∧
    (Instr.slvSclFall 3).isCommand = false := by decide

theorem witness_EncodeOfDecode : decode 0x40FF = .ok (.qSnap 255) := by decide

theorem witness_ReservedCommandRaisesF7 :
    (ReservedWord 0x0500 ∧ ReservedWord 0x2885 ∧ ¬ ReservedWord 0x2884 ∧ isEventUnit 0x3004 = true) ∧
    cfgBlock.live = true ∧ (State.preempted cfgBlock).fault = none ∧ (State.preempted cfgBlock).unsettled = false ∧
    (State.preempted cfgBlock).ctx = .interrupt :=
  ⟨by simp [ReservedWord, commandTable, unitOp, imm, isEventUnit], by decide⟩

theorem witness_UnknownEventIgnored :
    unitOp 0x3104 ≠ 0x30 ∧ unitOp 0x2004 ≠ 0x30 ∧ Processing cfgBlock ∧ cfgBlock.owner 9 = none :=
  ⟨by decide, by decide, processing_block _, by decide⟩

theorem witness_StepRunsDecodedCommand :
    (State.given [.command 0x2684] cfgBlock).live = true ∧ (State.given [.command 0x2684] cfgBlock).events = [] ∧
    (State.given [.command 0x2684] cfgBlock).env.inputs = .command 0x2684 :: [] ∧
    decodeCommand 0x2684 = .ok (.mStartComm 0x42 false) := by decide

theorem witness_StepTakesEvents :
    (∃ e ∈ [(⟨0, 2, false⟩ : Pending)],
      State.ownerStuck { one idleSlv with events := [⟨0, 2, false⟩] } e.pin = false) ∧
    (∃ e s', Processing { one idleSlv with events := [⟨0, 2, false⟩] } ∧
      (∀ c r, (one idleSlv).env.inputs ≠ .configure c :: r) ∧
      State.takeEvent { one idleSlv with events := [⟨0, 2, false⟩] } = some (e, s')) ∧
    (State.given [.external (.event 0x3004)] cfgBlock).live = true ∧
    (State.given [.external (.event 0x3004)] cfgBlock).events = [] ∧ decodeEvent 0x3004 = .ok (.evLine 2 false) :=
  ⟨by decide, ⟨_, _, ⟨rfl, rfl⟩, (by intro c r h; cases h), rfl⟩, by decide, by decide, by decide⟩

theorem witness_ConfigurationResets :
    cfg0.check bare.params = none ∧ cfg0.engines[0]? = some (.slave 2 3 0x42 []) ∧
    cfg0.engines[1]? = some (.sniffer 4 5) ∧ (configure cfg0 bare).registry.length = 2 ∧
    wireOf (configure cfg0 bare).wiring 2 = some .sda := by decide

theorem witness_ConfigurationChecksInOrder :
    bare.params.regCap < (Configuration.engines ⟨none, List.replicate 5 (.sniffer 4 5), []⟩).length ∧
    cfg0.engines.length ≤ bare.params.regCap ∧ ¬ (Configuration.pins ⟨none, [.slave 2 2 0x42 []], []⟩).Nodup ∧
    (Configuration.pins ⟨some ⟨0, 1, 0⟩, [.slave 2 3 128 []], []⟩).Nodup ∧ cfg0.pins.Nodup ∧
    (∀ a b addr script, EngineDesc.slave a b addr script ∈ cfg0.engines → addr ≤ 127) ∧
    (∀ d, cfg0.master = some d → d.freqHz ≠ 0) ∧
    (cfg0.engines.length = Params.regCap ⟨2, 256, 0⟩ ∧ cfg0.check ⟨2, 256, 0⟩ = none) ∧
    (Configuration.pins ⟨none, [.slave 2 3 127 []], []⟩).Nodup ∧
    Configuration.check bare.params ⟨none, [.slave 2 3 127 []], []⟩ = none := by
  refine ⟨by decide, by decide, by decide, by decide, by decide, ?_, ?_, by decide⟩
  · intro a b addr script h
    simp only [cfg0, List.mem_cons, EngineDesc.slave.injEq, List.not_mem_nil, or_false, reduceCtorEq] at h
    omega
  · intro d h
    simp only [cfg0, Option.some.injEq] at h
    subst h
    decide

theorem witness_DelayUnitDerivedOnce :
    cfg0.master = some ⟨0, 1, 100000⟩ ∧ cfg0.check bare.params = none ∧
    (MasterDesc.freqHz ⟨0, 1, 0⟩ = 0) ∧ ∃ t, step cfgBlock = .next t ∧ ∀ c r, cfgBlock.env.inputs ≠ .configure c :: r :=
  ⟨by decide, by decide, rfl, cfgBlock, rfl, by intro c r h; cases h⟩

theorem witness_ConfigurationIsFixed :
    ∃ t, step (State.given [.command 0x2711] cfgBlock) = .next t ∧
      ∀ c r, (State.given [.command 0x2711] cfgBlock).env.inputs ≠ .configure c :: r :=
  ⟨_, rfl, by intro c r h; cases h⟩

theorem witness_FaultIsSticky :
    (cfgBlock.raise .badLength 17).fault = some ⟨.badLength, 17⟩ ∧
    (∀ c r, (cfgBlock.raise .badLength 17).env.inputs ≠ .configure c :: r) ∧
    (State.given [.configure cfg0] (cfgBlock.raise .badLength 17)).env.inputs = .configure cfg0 :: [] :=
  ⟨rfl, (by intro c r h; cases h), rfl⟩

theorem witness_InterruptContextRefusesCommands :
    (Instr.mStart).isCommand = true ∧
    ((State.preempted cfgBlock).fault = none ∧ (State.preempted cfgBlock).unsettled = false ∧
      (State.preempted cfgBlock).ctx = .interrupt) ∧
    Processing (one { idleSlv with script := [.issues 0x2000] }) ∧
    SlaveAt (one { idleSlv with script := [.issues 0x2000] }) 2 .sda 0 { idleSlv with script := [.issues 0x2000] } ∧
    Slave.lvl { idleSlv with script := [.issues 0x2000] } .sda ≠ false ∧
    (slaveHandler .sda (edgeOf false) (Slave.store .sda false { idleSlv with script := [.issues 0x2000] })).2
      = some ⟨.start, 0, 0⟩ :=
  ⟨by decide, by decide, processing_block _, slaveAt_sda _ ⟨rfl, rfl⟩, by decide, by decide⟩

theorem witness_CallbackThatNeverReturns :
    (Processing (State.given [.command 0x2000] (State.preempted cfgBlock)) ∧
      (State.given [.command 0x2000] (State.preempted cfgBlock)).ctx = .interrupt ∧
      ∀ e ∈ (State.given [.command 0x2000] (State.preempted cfgBlock)).events,
        State.ownerStuck (State.given [.command 0x2000] (State.preempted cfgBlock)) e.pin = true) ∧
    Processing (one { idleSlv with script := [.hangs] }) ∧
    SlaveAt (one { idleSlv with script := [.hangs] }) 2 .sda 0 { idleSlv with script := [.hangs] } ∧
    Slave.lvl { idleSlv with script := [.hangs] } .sda ≠ false ∧
    (slaveHandler .sda (edgeOf false) (Slave.store .sda false { idleSlv with script := [.hangs] })).2
      = some ⟨.start, 0, 0⟩ ∧
    (one { idleSlv with script := [.hangs] }).owner 2 = some (0, .sda) ∧
    (one { idleSlv with script := [.hangs] }).owner 3 = some (0, .scl) :=
  ⟨⟨⟨rfl, rfl⟩, rfl, by decide⟩, processing_block _, slaveAt_sda _ ⟨rfl, rfl⟩, by decide, by decide, by decide⟩

/-- The slave the next eight statements speak of is at its pin, in the states of V-S2, V-S1, V-S13, V-S7, V-S3 to V-S5,
V-S8, V-S18, V-S9, V-S17, V-S11, V-S15 and V-S16. -/
theorem witness_SlaveIgnoresDataWhileClockLow :
    Processing (one (slv .receiving .none false 3 0x05 true true false [])) ∧
    SlaveAt (one (slv .receiving .none false 3 0x05 true true false [])) 2 .sda 0
      (slv .receiving .none false 3 0x05 true true false []) ∧
    SlaveAt (one (slv .receiving .none false 3 0x05 true false false [])) 2 .sda 0
      (slv .receiving .none false 3 0x05 true false false []) :=
  ⟨processing_block _, slaveAt_sda _ ⟨rfl, rfl⟩, slaveAt_sda _ ⟨rfl, rfl⟩⟩

theorem witness_SlaveStartAlwaysWins :
    Processing (one (slv .transmitting .none false 5 0xC0 true true true [])) ∧
    SlaveAt (one (slv .transmitting .none false 5 0xC0 true true true [])) 2 .sda 0
      (slv .transmitting .none false 5 0xC0 true true true []) ∧
    (Engine.slave (slv .transmitting .none false 5 0xC0 true true true [])).obedient = true :=
  ⟨processing_block _, slaveAt_sda _ ⟨rfl, rfl⟩, by decide⟩

theorem witness_SlaveStop :
    Processing (one (slv .receiving .none false 9 0x54 true false true [])) ∧
    SlaveAt (one (slv .receiving .none false 9 0x54 true false true [])) 2 .sda 0
      (slv .receiving .none false 9 0x54 true false true []) ∧
    (Engine.slave (slv .receiving .none false 9 0x54 true false true [])).obedient = true :=
  ⟨processing_block _, slaveAt_sda _ ⟨rfl, rfl⟩, by decide⟩

theorem witness_SlaveIgnoresClock :
    SlaveAt (one (slv .receiving .none true 8 0x2A false false false [])) 3 .scl 0
      (slv .receiving .none true 8 0x2A false false false []) ∧
    SlaveAt (one (slv .transmitting .awaitingTransmitAck true 8 0 true true true [])) 3 .scl 0
      (slv .transmitting .awaitingTransmitAck true 8 0 true true true []) ∧
    Processing (one (slv .receiving .none true 8 0x2A false false false [])) ∧
    Processing (one (slv .transmitting .awaitingTransmitAck true 8 0 true true true [])) :=
  ⟨slaveAt_scl _ ⟨rfl, rfl, rfl⟩, slaveAt_scl _ ⟨rfl, rfl, rfl⟩, processing_block _, processing_block _⟩

theorem witness_SlaveAddressBit :
    SlaveAt (one (slv .started .none false 7 0x42 true false false [])) 3 .scl 0
      (slv .started .none false 7 0x42 true false false []) ∧
    Processing (one (slv .started .none false 7 0x42 true false false [])) ∧ (6 : BitVec 32) + 1 ≠ 8 ∧
    (7 : BitVec 32) + 1 = 8 ∧ Fifo.shiftIn 0x42 false = 0x84 ∧ Fifo.shiftIn 0x42 true = 0x85 ∧
    Fifo.shiftIn 0x10 false ≠ 0x84 ∧ Fifo.shiftIn 0x10 false ≠ 0x85 :=
  ⟨slaveAt_scl _ ⟨rfl, rfl, rfl⟩, processing_block _, by decide, by decide, by decide, by decide, by decide, by decide⟩

theorem witness_SlaveReceiveBit :
    SlaveAt (one (slv .receiving .none false 7 0x15 true false false [])) 3 .scl 0
      (slv .receiving .none false 7 0x15 true false false []) ∧
    Processing (one (slv .receiving .none false 7 0x15 true false false [])) ∧
    (Engine.slave (slv .receiving .none false 7 0x15 true false false [])).obedient = true ∧
    ((0xFFFFFFFF : BitVec 32) + 1).toNat % 8 = 0 ∧ ((8 : BitVec 32) + 1).toNat % 8 ≠ 0 :=
  ⟨slaveAt_scl _ ⟨rfl, rfl, rfl⟩, processing_block _, by decide, by decide, by decide⟩

theorem witness_SlaveSamplesMasterAck :
    SlaveAt (one (slv .transmitting .awaitingTransmitAck true 8 0 true false false [])) 3 .scl 0
      (slv .transmitting .awaitingTransmitAck true 8 0 true false false []) ∧
    Processing (one (slv .transmitting .awaitingTransmitAck true 8 0 true false false [])) :=
  ⟨slaveAt_scl _ ⟨rfl, rfl, rfl⟩, processing_block _⟩

theorem witness_SlaveAcknowledgeEdges :
    SlaveAt (one (slv .receiving .awaitingReceiveAck false 8 0x2A true false true [])) 3 .scl 0
      (slv .receiving .awaitingReceiveAck false 8 0x2A true false true []) ∧
    SlaveAt (one (slv .transmitting .awaitingReceiveAck false 0 0 true true true [])) 3 .scl 0
      (slv .transmitting .awaitingReceiveAck false 0 0 true true true []) ∧
    SlaveAt (one (slv .transmitting .awaitingTransmitAck false 8 0 true true true [])) 3 .scl 0
      (slv .transmitting .awaitingTransmitAck false 8 0 true true true []) ∧
    SlaveAt (one (slv .receiving .none true 8 0x2A false false true [])) 3 .scl 0
      (slv .receiving .none true 8 0x2A false false true []) :=
  ⟨slaveAt_scl _ ⟨rfl, rfl, rfl⟩, slaveAt_scl _ ⟨rfl, rfl, rfl⟩, slaveAt_scl _ ⟨rfl, rfl, rfl⟩,
    slaveAt_scl _ ⟨rfl, rfl, rfl⟩⟩

theorem witness_SlaveTransmitsBit :
    SlaveAt (one (slv .transmitting .none true 0 0 false false true [.returns 0x99])) 3 .scl 0
      (slv .transmitting .none true 0 0 false false true [.returns 0x99]) ∧
    SlaveAt (one (slv .transmitting .none false 7 0x80 false false true [])) 3 .scl 0
      (slv .transmitting .none false 7 0x80 false false true []) ∧
    (Engine.slave (slv .transmitting .none true 0 0 false false true [.returns 0x99])).obedient = true :=
  ⟨slaveAt_scl _ ⟨rfl, rfl, rfl⟩, slaveAt_scl _ ⟨rfl, rfl, rfl⟩, by decide⟩

/-- V-N7, V-N13, V-N2, V-N4, V-N6, V-N5, V-N9, V-N8. -/
theorem witness_SnifferStartAndStop :
    SnifferAt (watch (snf .receiving .none 4 0x0B .receiving 0x42 true true)) 4 .sda 0
      (snf .receiving .none 4 0x0B .receiving 0x42 true true) ∧
    SnifferAt (watch (snf .receiving .none 1 0x54 .receiving 0x42 false true)) 4 .sda 0
      (snf .receiving .none 1 0x54 .receiving 0x42 false true) :=
  ⟨snifferAt_sda _ rfl, snifferAt_sda _ rfl⟩

theorem witness_SnifferGroupBit :
    SnifferAt (watch (snf .started .none 7 0x42 .idle 0 true false)) 5 .scl 0 (snf .started .none 7 0x42 .idle 0 true false) ∧
    SnifferAt (watch (snf .receiving .none 7 0x15 .receiving 0x42 false false)) 5 .scl 0
      (snf .receiving .none 7 0x15 .receiving 0x42 false false) ∧
    SnifferAt (watch (snf .transmitting .none 6 0x4C .transmitting 0x42 true false)) 5 .scl 0
      (snf .transmitting .none 6 0x4C .transmitting 0x42 true false) ∧
    (7 : BitVec 4).toNat < 8 ∧ ¬ (7 : BitVec 4).toNat < 7 ∧ (6 : BitVec 4).toNat < 7 :=
  ⟨snifferAt_scl _ ⟨rfl, rfl⟩, snifferAt_scl _ ⟨rfl, rfl⟩, snifferAt_scl _ ⟨rfl, rfl⟩, by decide, by decide, by decide⟩

theorem witness_SnifferRecord :
    SnifferAt (watch (snf .receiving .awaitingReceiveAck 8 0x2A .receiving 0x42 true false)) 5 .scl 0
      (snf .receiving .awaitingReceiveAck 8 0x2A .receiving 0x42 true false) :=
  snifferAt_scl _ ⟨rfl, rfl⟩

theorem witness_SnifferIgnoresClock :
    SnifferAt (watch (snf .receiving .none 4 0x0B .receiving 0x42 true true)) 5 .scl 0
      (snf .receiving .none 4 0x0B .receiving 0x42 true true) ∧
    SnifferAt (watch (snf .idle .none 0 0 .idle 0 true false)) 5 .scl 0 (snf .idle .none 0 0 .idle 0 true false) :=
  ⟨snifferAt_scl _ ⟨rfl, rfl⟩, snifferAt_scl _ ⟨rfl, rfl⟩⟩

theorem witness_SnifferIsReadOnly :
    SnifferAt (watch idleSnf) 4 .sda 0 idleSnf ∧ ∃ t, exec (.evLine 4 false) (watch idleSnf) = .next t :=
  ⟨snifferAt_sda _ rfl, _, rfl⟩

theorem witness_EventChangesOneInstance :
    Processing cfgBlock ∧ cfgBlock.ownerStuck 2 = false ∧ cfgBlock.owner 2 = some (0, .sda) ∧
    cfgBlock.owner 5 = some (1, .scl) ∧ cfgBlock.owner 9 = none ∧ cfgBlock.ownerStuck 9 = false :=
  ⟨processing_block _, by decide, by decide, by decide, by decide, by decide⟩

theorem witness_WireIsTheAndOfOutputs :
    cfgBlock.m.cfg.isSome = true ∧
    ∀ e ∈ cfgBlock.registry, wireOf cfgBlock.wiring e.sdaPin = some .sda ∧ wireOf cfgBlock.wiring e.sclPin = some .scl := by
  decide

theorem witness_WireChangesAreNotified :
    State.wire cfgBlock .sda ≠ State.wire (State.withM (fun m => { m with sdaLatch := false }) cfgBlock) .sda ∧
    State.wire cfgBlock .scl = State.wire (State.withM (fun m => { m with sdaLatch := false }) cfgBlock) .scl ∧
    (cfgBlock.registry.flatMap fun e => [e.sdaPin, e.sclPin]).Nodup ∧
    (State.given [.external (.drive false false)] cfgBlock).live = true ∧
    (State.given [.external (.drive false false)] cfgBlock).events = [] ∧
    after (step (State.given [.external (.drive false false)] cfgBlock))
      (fun t => (t.events.length, t.events.all fun e => !t.ownerStuck e.pin)) = some (4, true) := by decide

/-- CFG0's block is calm and has a master, so that every statement about such a state has one; so is it with a payload of one written
byte, and with a payload of two bytes of which the second is not written. -/
theorem witness_calm :
    cfgBlock.calm = true ∧ cfgBlock.m.cfg.isSome = true ∧ bare.calm = true ∧ cfgBlock.live = true ∧
    (State.withM (fun m => { m with len := 1, buf := [(0, 0x2A)] }) cfgBlock).calm = true ∧
    (State.withM (fun m => { m with len := 2, buf := [(0, 0x2A)] }) cfgBlock).calm = true := by decide

theorem witness_LineRead :
    cfgBlock.live = true ∧ cfgBlock.m.settleFlag .sda = false ∧
    (State.withM (fun m => { m with settleSda := true }) cfgBlock).m.settleFlag .sda = true := by decide

theorem witness_LineWrite :
    cfgBlock.calm = true ∧ cfgBlock.m.latch .sda = true ∧
    (State.withM (fun m => { m with sdaDir := .inp }) cfgBlock).m.dir .sda = .inp := by decide

theorem witness_LineDelay :
    cfgBlock.live = true ∧ cfgBlock.env.yields = [] ∧ cfgBlock.calm = true ∧ cfgBlock.m.cfg.isSome = true ∧
    State.calm { cfgBlock with env := { Env.reset with yields := [[.drive false true]] } } = true := by decide

theorem witness_SettleFlagAfterCommand :
    (Instr.lSetdir .sda .inp).isCommand = true ∧
    after (exec (.lSetdir .sda .inp) bare) (fun t => (t.live, t.m.settleFlag .sda, t.m.settleFlag .scl))
      = some (true, true, false) := by decide

theorem witness_AddressConditions :
    (0x85 : Byte) = idleSlv.transmitCond ∧ ((0x84 : Byte) ≠ idleSlv.transmitCond ∧ (0x84 : Byte) = idleSlv.receiveCond) ∧
    ((0x86 : Byte) ≠ idleSlv.transmitCond ∧ (0x86 : Byte) ≠ idleSlv.receiveCond) := by decide

theorem witness_SetPayloadLength :
    (17 < 256 ∧ State.live { bare with params := ⟨4, 16, 0⟩ } = true ∧ 16 < 17) ∧
    bare.live = true ∧ 255 ≤ bare.params.bufSize ∧ 16 ≤ (State.params { bare with params := ⟨4, 16, 0⟩ }).bufSize := by
  decide

theorem witness_WritePayload :
    (State.withM (fun m => { m with len := 2, buf := [(0, 1)] }) cfgBlock).calm = true ∧
    (State.withM (fun m => { m with len := 2, buf := [(0, 1)] }) cfgBlock).memRead 1 = none ∧
    (∀ j, j < 1 → (State.withM (fun m => { m with len := 2, buf := [(0, 1)] }) cfgBlock).memRead j ≠ none) ∧
    (∀ i, i < 1 → (State.withM (fun m => { m with len := 1, buf := [(0, 1)] }) cfgBlock).memRead i ≠ none) := by decide

theorem witness_ReadPayload :
    (State.withM (fun m => { m with len := 255 }) cfgBlock).calm = true ∧
    (State.withM (fun m => { m with len := 255 }) cfgBlock).m.len.toNat ≤ cfgBlock.params.bufSize ∧
    cfgBlock.m.len.toNat ≤ cfgBlock.params.bufSize := by decide

theorem witness_AbsentDevice :
    NoDevice bare ∧ bare.m.len.toNat ≤ bare.params.bufSize ∧
    NoDevice (State.withM (fun m => { m with len := 1, buf := [(0, 0x2A)] }) bare) ∧
    ∀ i, i < 1 → (State.withM (fun m => { m with len := 1, buf := [(0, 0x2A)] }) bare).memRead i ≠ none :=
  ⟨⟨rfl, by decide, rfl, by decide⟩, by decide, ⟨rfl, by decide, rfl, by decide⟩, by decide⟩

theorem witness_PhaseAfterCommand :
    (Instr.mStop).isCommand = true ∧ cfgBlock.calm = true ∧
    after (exec .mStop bare) (fun t => (t.fault, t.m.phase)) = some (none, .stopped) := by decide

theorem witness_Queries :
    cfgBlock.live = true ∧ cfgBlock.registry.length ≤ 2 ∧ cfgBlock.registry[0]? = some (.slave idleSlv) ∧
    cfgBlock.registry[1]? = some (.sniffer idleSnf) := by decide

theorem witness_HostBufferAccess :
    bare.live = true ∧ bare.events = [] ∧ 255 < bare.params.bufSize ∧ bare.memRead 255 = none ∧
    (State.withM (fun m => { m with buf := [(255, 9)] }) bare).memRead 255 = some 9 ∧
    (State.given [.memWrite 255 1] bare).env.inputs = .memWrite 255 1 :: [] ∧
    (State.given [.memRead 255] bare).env.inputs = .memRead 255 :: [] := by decide

theorem witness_CommandsEndAndKeepTheRest :
    (Instr.qStatus).isCommand = true ∧ bare.live = true ∧ (Instr.mReadBytes 0x42).isCommand = true ∧
    bare.m.len.toNat ≤ bare.params.bufSize ∧ after (exec .qStatus bare) (fun t => t.fault) = some none := by decide

theorem witness_RecordsOnlyGrow :
    ∃ t, step (State.given [.command 0x0299] bare) = .next t ∧
      ∀ c r, (State.given [.command 0x0299] bare).env.inputs ≠ .configure c :: r :=
  ⟨_, rfl, by intro c r h; cases h⟩

theorem slave_ok_idle : Slave.Ok idleSlv := by
  constructor <;> decide

theorem witness_InvariantKeptByEveryStep :
    State.Inv (State.given [.command 0x0299] (one idleSlv)) ∧
    ∃ t, step (State.given [.command 0x0299] (one idleSlv)) = .next t := by
  refine ⟨⟨by decide, by decide, by decide, by decide, ⟨by decide, by decide, by decide, by decide, ?_⟩, ?_⟩, _, rfl⟩
  · intro c h
    cases h
    decide
  · intro e h
    simp only [State.given, one, block, List.mem_cons, List.not_mem_nil, or_false] at h
    subst h
    exact slave_ok_idle

theorem witness_EnginesReactBeforeTheNextCommand :
    (Instr.lWrite .sda false).isCommand = true ∧ (one idleSlv).calm = true ∧
    State.reactive { one idleSlv with events := [⟨0, 2, false⟩] } = true ∧ (one idleSlv).ownerStuck 2 = false ∧
    after (exec (.lWrite .sda false) (one idleSlv)) (fun t => (t.fault, t.calm)) = some (none, true) := by decide

theorem aloneOnBus_one (v : Slave) (hp : wireOf bare.wiring v.sdaPin = some .sda ∧ wireOf bare.wiring v.sclPin = some .scl)
    (hc : v.receiveCond = receiveCondOf v.addr ∧ v.transmitCond = transmitCondOf v.addr) (hd : v.sdaDrv = true)
    (hl : v.sdaLvl = (one v).wire .sda ∧ v.sclLvl = (one v).wire .scl) (hk : (one v).calm = true) :
    AloneOnBus (one v) v :=
  ⟨rfl, hp, hc, hd, hl, hk, ⟨_, rfl, rfl, rfl⟩, ⟨rfl, rfl⟩, ⟨rfl, rfl, rfl⟩⟩

theorem witness_AddressedSlaveAcknowledges : AloneOnBus (one idleSlv) idleSlv :=
  aloneOnBus_one _ (by decide) (by decide) rfl (by decide) (by decide)

/-- A slave in Receiving between two bytes, with the master's clock low. -/
theorem witness_WrittenByteIsReceived :
    ∃ (s : State) (v : Slave), AloneOnBus s v ∧ s.m.sclLatch = false ∧ v.proto = .receiving ∧ v.ack = .none ∧
      v.ackSlot = false ∧ v.bitCounter.toNat % 8 = 0 :=
  ⟨State.withM (fun m => { m with sclLatch := false }) (one (slv .receiving .none false 8 0x2A true true false [])),
    slv .receiving .none false 8 0x2A true true false [],
    ⟨rfl, by decide, by decide, rfl, by decide, by decide, ⟨_, rfl, by decide, by decide⟩, by decide, by decide⟩,
    rfl, rfl, rfl, rfl, by decide⟩

end Sys2Proof.Tests
end

section
/-! SUPPORT. The order of events in a step, and the proofs of the statements on assumption A1 (00_scope.md R13). -/

namespace Sys2Proof.Machine

/-! ### The order in which events are taken -/

/-- An eligible event is one of the earliest of an engine that is not stuck (45_dispatch.md R267). -/
theorem eligible_iff (s : State) (e : Pending) :
    s.eligible e = true ↔ s.ownerStuck e.pin = false ∧
      ∀ e' ∈ s.events, (s.owner e'.pin).map Prod.fst = (s.owner e.pin).map Prod.fst → e.stamp ≤ e'.stamp := by
  simp only [State.eligible, Bool.and_eq_true, Bool.not_eq_true', List.all_eq_true, decide_eq_true_eq]

/-- A step takes the event that `takeEvent` chooses before any input but a configuration, and runs its row. -/
theorem step_takes_pending {s s' : State} {e : Pending} (hp : Processing s)
    (hc : ∀ c r, s.env.inputs ≠ .configure c :: r) (he : s.takeEvent = some (e, s')) :
    step s = exec (handlerOf s' e.pin e.level) s' := by
  rw [step_other hc]
  simp only [hp.fault, hp.settled, he, Bool.false_eq_true, if_false]
  rfl

/-- With nothing pending, a step of a running block takes the input presented next. -/
theorem step_takes_input {s : State} {i : Input} {r : List Input} (hl : s.live = true) (hn : s.events = [])
    (hi : s.env.inputs = i :: r) (hc : ∀ c, i ≠ .configure c) :
    step s = takeInput i { s with env := { s.env with inputs := r } } := by
  obtain ⟨hf, hx, hu⟩ := (live_iff s).1 hl
  have hother : ∀ c r', s.env.inputs ≠ .configure c :: r' := by
    intro c r' h
    rw [hi] at h
    exact hc c (List.cons.inj h).1
  rw [step_other hother]
  simp [hf, hu, takeEvent_nil hn, hx, hi, State.dropInput]

/-- Settles O7: a step takes an eligible event first, and the external event word where none is pending. -/
theorem stepTakesEvents : Obligations.StepTakesEvents := by
  refine ⟨fun s h => ?_, fun s s' e hp hc he => ?_, fun s w r pin level hl hn hi hd => ?_⟩
  · obtain ⟨e, hm, hk⟩ := h
    obtain ⟨⟨x, s'⟩, hx⟩ := Option.ne_none_iff_exists'.1 (takeEvent_of_moving hm hk)
    exact ⟨x, s', hx⟩
  · obtain ⟨hm, hel, hframe⟩ := takeEvent_spec he
    obtain ⟨hk, hmin⟩ := (eligible_iff s e).1 hel
    exact ⟨step_takes_pending hp hc he, hm, hk, hmin, hframe⟩
  · rw [step_takes_input hl hn hi (fun c h => by cases h)]
    simp only [takeInput, takeEventWord, hd]

/-! ### Each pending event is processed by its own event step -/

/-- On a reactive state with an event pending, `settle` is the event step of the event taken next and then `settle`
again: the load falls, so the bound of either state is enough for the rest. -/
theorem settle_takes_event {s : State} (hs : s.reactive = true) (hne : s.events ≠ []) :
    ∃ e s', s.takeEvent = some (e, s') ∧ settle s = settle (event e.pin e.level s') := by
  obtain ⟨⟨e, s'⟩, he⟩ := Option.ne_none_iff_exists'.1 (takeEvent_some hs hne)
  refine ⟨e, s', he, ?_⟩
  obtain ⟨hreact, hload⟩ := event_load hs he
  have hbound := load_le_bound s
  have hf : s.fault.isSome = false := by simp [((live_iff s).1 (reactive_live hs)).1]
  obtain ⟨n, hn⟩ : ∃ n, s.settleBound = n + 1 := Nat.exists_eq_add_one.2 (by omega)
  calc settle s
    _ = settleLoop n (event e.pin e.level s') := by
      simp only [settle, hn, settleLoop, hf, he, Bool.false_eq_true, if_false]
    _ = settle (event e.pin e.level s') :=
      ((settleLoop_enough hreact (by omega : _ ≤ n)).2 _ (load_le_bound _)).symm

/-- The event word of an engine that is not stuck is the event step (45_dispatch.md R264). -/
theorem exec_evLine {s : State} {pin : Pin} {level : Level} (hp : Processing s) (hk : s.ownerStuck pin = false) :
    exec (.evLine pin level) s = .next (event pin level s) := by
  have hword : exec (.evLine pin level) s = runEvent (event pin level) s := by
    simp [exec, execEvLine, eventWord, hk]
  rw [hword, runEvent_processing hp]

/-! ### Commands end calm -/

/-- A sample keeps a calm state calm: it changes the result, and the count of free values drawn. -/
theorem sampleLine_calm (l : Line) {s : State} (h : s.calm = true) : (sampleLine l s).calm = true := by
  simp only [sampleLine]
  split
  · exact calm_kept.result _ _ ((calm_congr (s := s) rfl rfl rfl rfl).trans h)
  · exact calm_kept.result _ _ h

/-- A command whose body ends calm unless it raises a fault, ends calm unless it raises a fault. -/
theorem runCommand_calm {i : Instr} {l : Option Line} {body : State → State} {s t : State} (hs : s.calm = true)
    (h : runCommand i l body s = .next t) (hf : t.fault = none)
    (hb : (body s).fault = none → (body s).calm = true) : t.calm = true := by
  rw [runCommand_live (calm_live hs)] at h
  cases h
  rw [finish_fault] at hf
  rw [finish_calm]
  exact hb hf

/-- Every command that starts on a calm state and raises no fault ends on one: its body is a sequence of line actions and
register updates, each of which keeps the state calm. -/
theorem exec_command_calm {i : Instr} {s t : State} (hc : i.isCommand = true) (hs : s.calm = true)
    (h : exec i s = .next t) (hf : t.fault = none) : t.calm = true := by
  cases i with
  | fReset => exact runCommand_calm hs h hf fun _ => calm_kept.fifo _ _ hs
  | fShift b =>
    simp only [exec, execFShift] at h
    exact runCommand_calm hs h hf fun _ => calm_kept.fifo _ _ (calm_kept.result _ _ hs)
  | fLoad v => exact runCommand_calm hs h hf fun _ => calm_kept.fifo _ _ hs
  | fRead => exact runCommand_calm hs h hf fun _ => calm_kept.result _ _ hs
  | lRead l => exact runCommand_calm hs h hf fun _ => sampleLine_calm l hs
  | lWrite l v => exact runCommand_calm hs h hf fun _ => lineW_calm l v hs
  | lSetdir l d => exact runCommand_calm hs h hf fun _ => lineSetDir_calm l d hs
  | lDelay n => exact runCommand_calm hs h hf fun _ => lineD_calm n hs
  | mStart => exact runCommand_calm hs h hf fun _ => calm_kept.startCondition hs
  | mStop => exact runCommand_calm hs h hf fun _ => calm_kept.stopCondition hs
  | mWriteBit b => exact runCommand_calm hs h hf fun _ => calm_kept.writeBit b hs
  | mReadBit =>
    simp only [exec, execMReadBit] at h
    exact runCommand_calm hs h hf fun _ => calm_kept.result _ _ (calm_kept.readBit hs)
  | mWriteByte v =>
    simp only [exec, execMWriteByte] at h
    exact runCommand_calm hs h hf fun _ => calm_kept.result _ _ (calm_kept.writeByte v hs)
  | mReadByte z =>
    simp only [exec, execMReadByte] at h
    exact runCommand_calm hs h hf fun _ => calm_kept.result _ _ (calm_kept.readByte z hs)
  | mStartComm a r =>
    simp only [exec, execMStartComm] at h
    exact runCommand_calm hs h hf fun _ => calm_kept.result _ _ (calm_kept.startCommunication a r hs)
  | mSetlen n =>
    simp only [exec, execMSetlen] at h
    refine runCommand_calm hs h hf ?_
    split
    · exact fun hb => by cases hb
    · exact fun _ => (upd_calm _ s).trans hs
  | mWriteBytes a =>
    simp only [exec, execMWriteBytes] at h
    refine runCommand_calm hs h hf ?_
    split
    · exact fun hb => by cases hb
    · exact fun _ => calm_kept.writeBytes a _ hs
  | mReadBytes a =>
    simp only [exec, execMReadBytes] at h
    split at h
    · cases h
    · exact runCommand_calm hs h hf fun _ =>
        calm_kept.readBytes (fun k v u hu => (memWrite_calm k v u).trans hu) a hs
  | qSnap k =>
    simp only [exec, execQSnap] at h
    refine runCommand_calm hs h hf ?_
    split
    · exact fun hb => by cases hb
    · exact fun _ => (calm_congr rfl rfl rfl rfl).trans hs
  | qStatus => exact runCommand_calm hs h hf fun _ => calm_kept.result _ _ hs
  | evLine | slvSdaFall | slvSdaRise | slvSclRise | slvSclFall | snfSdaFall | snfSdaRise | snfSclRise | snfSclFall =>
    simp [Instr.isCommand, Instr.opcode] at hc

/-- Settles O58: the load bounds the event steps that follow an action, and every action and command keeps the state
calm. -/
theorem enginesReactBeforeTheNextCommand : Obligations.EnginesReactBeforeTheNextCommand :=
  ⟨fun _ hs => ⟨settle_nil, settle_takes_event hs⟩, fun _ _ _ => exec_evLine,
    fun _ hs => ⟨fun l v => lineW_calm l v hs, fun l d => lineSetDir_calm l d hs, fun n => lineD_calm n hs⟩,
    fun _ _ _ => exec_command_calm⟩

end Sys2Proof.Machine
end

section
/-! SUPPORT. What the handlers keep of an engine: every handler of a slave and of a sniffer leaves it in a state that
its rules reach (10_state.md R26 to R37). -/

namespace Sys2Proof.Machine

/-! ### A slave -/

/-- The match values of a slave belong to its address (40_fifo_and_address.md R106). -/
def Slave.Matched (v : Slave) : Prop := v.receiveCond = receiveCondOf v.addr ∧ v.transmitCond = transmitCondOf v.addr

/-- Nothing is armed or driven in Started, where fewer than eight bits are counted. -/
theorem Slave.Ok.of_started {v : Slave} (hm : v.Matched) (hp : v.proto = .started)
    (hr : v.ack = .none ∧ v.ackSlot = false ∧ v.sdaDrv = true) (hb : v.bitCounter.toNat < 8) : v.Ok where
  conds := hm
  proto := by simp [hp]
  resting _ := hr
  idle h := by simp [hp] at h
  started _ := hb
  armed h := absurd hr.1 h
  received h := by simp [hp] at h

/-- Nothing is armed, driven, counted or held in Idle. -/
theorem Slave.Ok.of_idle {v : Slave} (hm : v.Matched) (hp : v.proto = .idle)
    (hr : v.ack = .none ∧ v.ackSlot = false ∧ v.sdaDrv = true) (hi : v.bitCounter = 0 ∧ v.fifo = 0) : v.Ok where
  conds := hm
  proto := by simp [hp]
  resting _ := hr
  idle _ := hi
  started h := by simp [hp] at h
  armed h := absurd hr.1 h
  received h := by simp [hp] at h

/-- In Transmitting an armed acknowledge stands at a byte boundary. -/
theorem Slave.Ok.of_transmitting {v : Slave} (hm : v.Matched) (hp : v.proto = .transmitting)
    (ha : v.ack ≠ .none → v.bitCounter % 8 = 0) : v.Ok where
  conds := hm
  proto := by simp [hp]
  resting h := by simp [hp] at h
  idle h := by simp [hp] at h
  started h := by simp [hp] at h
  armed := ha
  received h := by simp [hp] at h

/-- In Receiving an armed acknowledge is the slave's own and stands at a byte boundary. -/
theorem Slave.Ok.of_receiving {v : Slave} (hm : v.Matched) (hp : v.proto = .receiving)
    (ha : v.ack ≠ .none → v.bitCounter % 8 = 0) (ht : v.ack ≠ .awaitingTransmitAck) : v.Ok where
  conds := hm
  proto := by simp [hp]
  resting h := by simp [hp] at h
  idle h := by simp [hp] at h
  started h := by simp [hp] at h
  armed := ha
  received _ := ht

/-- The stored levels decide nothing of `Ok`. -/
theorem Slave.Ok.store {v : Slave} (h : v.Ok) (l : Line) (b : Level) : (v.store l b).Ok := by
  obtain ⟨hm, hp, hr, hi, hs, ha, ht⟩ := h
  cases l <;> exact ⟨hm, hp, hr, hi, hs, ha, ht⟩

/-- Nor do the script and the stuck bit. -/
theorem Slave.Ok.withScript {v : Slave} (h : v.Ok) (r : List CbReply) (b : Bool) :
    Slave.Ok { v with script := r, stuck := b } := by
  obtain ⟨hm, hp, hr, hi, hs, ha, ht⟩ := h
  exact ⟨hm, hp, hr, hi, hs, ha, ht⟩

/-- The state in which a handler invokes a callback of each kind: the rest of the handler starts there. -/
def Slave.ReadyFor (v : Slave) : CbKind → Prop
  | .start => True
  | .stop => True
  | .receive => v.proto = .receiving ∧ v.bitCounter % 8 = 0
  | .request => v.proto = .transmitting ∧ v.ack = .none

/-- The script and the stuck bit decide nothing of it. -/
theorem Slave.ReadyFor.withScript {v : Slave} {k : CbKind} (h : v.ReadyFor k) (r : List CbReply) (b : Bool) :
    Slave.ReadyFor { v with script := r, stuck := b } k := by
  cases k <;> exact h

/-- What a handler leaves: a well-formed slave, ready for the callback that the handler invokes. -/
structure Slave.Handled (r : Slave × Option Call) : Prop where
  ok    : r.1.Ok
  ready : ∀ c, r.2 = some c → r.1.ReadyFor c.kind

/-- A handler that invokes no callback has nothing to be ready for. -/
theorem Slave.Ok.handled {v : Slave} (h : v.Ok) : Slave.Handled (v, none) := ⟨h, fun _ hc => by cases hc⟩

/-- A driven bit arms the master's acknowledge at a byte boundary and nothing elsewhere (43_slave.md R203). -/
theorem Slave.driveBit_ok {v : Slave} (hm : v.Matched) (hp : v.proto = .transmitting) (ha : v.ack = .none) :
    v.driveBit.Ok := by
  refine .of_transmitting hm hp fun h => ?_
  by_contra hn
  have hack : v.driveBit.ack = v.ack := if_neg hn
  exact h (hack.trans ha)

/-- An address bit leaves Started only with the eighth, for Idle or for an acknowledged direction (43_slave.md R198). -/
theorem Slave.addressBit_ok {v : Slave} (h : v.Ok) (hp : v.proto = .started) : v.addressBit.Ok := by
  have hrest := h.resting (.inr hp)
  have hlt := h.started hp
  simp only [Slave.addressBit]
  split
  · simp only [Slave.addressDone]
    split
    · exact .of_idle h.conds rfl hrest ⟨rfl, rfl⟩
    · next p hmatch =>
      simp only [Slave.matchAddr] at hmatch
      split at hmatch
      · obtain rfl : Proto.transmitting = p := by simpa using hmatch
        exact .of_transmitting h.conds rfl fun _ => by simp
      · split at hmatch
        · obtain rfl : Proto.receiving = p := by simpa using hmatch
          exact .of_receiving h.conds rfl (fun _ => by simp) (by simp)
        · cases hmatch
  · next hne =>
    refine .of_started h.conds hp hrest ?_
    simp only at hne ⊢
    bv_omega

/-- A received bit keeps the acknowledge free; a byte boundary invokes Receive (43_slave.md R197). -/
theorem Slave.receiveBit_handled {v : Slave} (hm : v.Matched) (hp : v.proto = .receiving) (ha : v.ack = .none) :
    Slave.Handled v.receiveBit := by
  have hok : ∀ f n, Slave.Ok { v with fifo := f, bitCounter := n } := fun f n =>
    .of_receiving hm hp (fun hne => absurd ha hne) (by simp [ha])
  simp only [Slave.receiveBit]
  split
  · next hb =>
    refine ⟨hok _ _, fun c hc => ?_⟩
    cases hc
    exact ⟨hp, hb⟩
  · exact (hok _ _).handled

/-- SLV.SCL_RISE (43_slave.md R195). -/
theorem slaveSclRise_handled {v : Slave} (h : v.Ok) : Slave.Handled (slaveSclRise v) := by
  simp only [slaveSclRise]
  split
  · next hp => exact (Slave.addressBit_ok h hp).handled
  · next hp =>
    split
    · next hc => exact Slave.receiveBit_handled h.conds hp hc.2
    · exact h.handled
  · next hp =>
    split
    · exact (Slave.Ok.of_transmitting (v := v.sampleMasterAck) h.conds hp fun hne => absurd rfl hne).handled
    · exact h.handled
  all_goals exact h.handled

/-- The transmit data phase: a bit inside a byte, or Request on a byte boundary (43_slave.md R203). -/
theorem Slave.transmitPhase_handled {v : Slave} (h : v.Ok) (hp : v.proto = .transmitting) (ha : v.ack = .none) :
    Slave.Handled v.transmitPhase := by
  simp only [Slave.transmitPhase]
  split
  · refine ⟨.of_transmitting h.conds hp fun hne => absurd ha hne, fun c hc => ?_⟩
    cases hc
    exact ⟨hp, ha⟩
  · exact (Slave.driveBit_ok (v := { v with ackSlot := false }) h.conds hp ha).handled

/-- SLV.SCL_FALL (43_slave.md R200). -/
theorem slaveSclFall_handled {v : Slave} (h : v.Ok) : Slave.Handled (slaveSclFall v) := by
  simp only [slaveSclFall]
  split
  · next hp =>
    split
    · have hok : v.driveAck.Ok :=
        .of_receiving h.conds hp (fun hne => absurd rfl hne) (by simp [Slave.driveAck])
      exact hok.handled
    · split
      · exact (Slave.Ok.of_receiving (v := v.releaseAck) h.conds hp h.armed (h.received hp)).handled
      · exact h.handled
  · next hp =>
    split
    · exact (Slave.Ok.of_transmitting (v := v.driveAck) h.conds hp fun hne => absurd rfl hne).handled
    · split
      · exact h.handled
      · exact (Slave.Ok.of_transmitting (v := v.releaseForMaster) h.conds hp h.armed).handled
    · next ha => exact Slave.transmitPhase_handled h hp ha
  all_goals exact h.handled

/-- SLV.SDA_FALL: a start clears everything for Started (43_slave.md R193). -/
theorem slaveSdaFall_handled {v : Slave} (h : v.Ok) : Slave.Handled (slaveSdaFall v) := by
  simp only [slaveSdaFall]
  split
  · have hok : (v.clear .started).Ok := .of_started h.conds rfl ⟨rfl, rfl, rfl⟩ (by simp [Slave.clear])
    exact ⟨hok, fun c hc => by cases hc; trivial⟩
  · exact h.handled

/-- SLV.SDA_RISE: a stop clears everything for Idle (43_slave.md R194). -/
theorem slaveSdaRise_handled {v : Slave} (h : v.Ok) : Slave.Handled (slaveSdaRise v) := by
  simp only [slaveSdaRise]
  split
  · have hok : (v.clear .idle).Ok := .of_idle h.conds rfl ⟨rfl, rfl, rfl⟩ ⟨rfl, rfl⟩
    exact ⟨hok, fun c hc => by cases hc; trivial⟩
  · exact h.handled

/-- Every handler leaves a slave well formed, and ready for the callback it invokes. -/
theorem slaveHandler_handled (l : Line) (e : Edge) {v : Slave} (h : v.Ok) : Slave.Handled (slaveHandler l e v) :=
  match l, e with
  | .sda, .fall => slaveSdaFall_handled h
  | .sda, .rise => slaveSdaRise_handled h
  | .scl, .rise => slaveSclRise_handled h
  | .scl, .fall => slaveSclFall_handled h

/-- The rest of the handler, from where its callback was invoked (43_slave.md R197, R203). -/
theorem afterCallback_ok {k : CbKind} {v : Slave} (h : v.Ok) (hr : v.ReadyFor k) (b : Byte) :
    (afterCallback k b v).Ok := by
  cases k with
  | start => exact h
  | stop => exact h
  | receive => exact .of_receiving h.conds hr.1 (fun _ => hr.2) (by simp [afterCallback])
  | request => exact Slave.driveBit_ok (v := { v with fifo := b }) h.conds hr.1 hr.2

/-! ### A sniffer -/

/-- The stored levels decide nothing of `Ok`. -/
theorem Sniffer.Ok.store {n : Sniffer} (h : n.Ok) (l : Line) (b : Level) : (n.store l b).Ok := by
  obtain ⟨hp, hg, ha, hi, hd, hk, hs⟩ := h
  cases l <;> exact ⟨hp, hg, ha, hi, hd, hk, hs⟩

/-- Start and stop leave a well-formed sniffer (44_sniffer.md R232, R233). -/
theorem Sniffer.clear_ok (n : Sniffer) {p : Proto} (hp : p = .idle ∨ p = .started) : (n.clear p).Ok where
  proto := by rcases hp with rfl | rfl <;> simp [Sniffer.clear]
  group := by simp [Sniffer.clear]
  ack := by simp [Sniffer.clear]
  idle _ := rfl
  predicted := .inl rfl
  known h := by rcases hp with rfl | rfl <;> simp [Sniffer.clear] at h
  address _ := by simp [Sniffer.clear]

/-- Once the direction is known, it is the predicted one; the acknowledge is armed at position 8 of the group. -/
theorem Sniffer.Ok.of_known {n : Sniffer} (hp : n.proto = .transmitting ∨ n.proto = .receiving)
    (hk : n.predicted = n.proto) (hg : n.groupPos.toNat ≤ 8) (ha : n.ack = .none ↔ n.groupPos ≠ 8) : n.Ok where
  proto := .inr (.inr hp)
  group := hg
  ack := ha
  idle h := by simp [h] at hp
  predicted := by rw [hk]; exact .inr hp
  known _ := hk
  address h := by simp [h] at hp

/-- A sniffer is in a transaction: its clocks count (44_sniffer.md R234). -/
def Sniffer.Active (n : Sniffer) : Prop := n.proto = .started ∨ n.proto = .transmitting ∨ n.proto = .receiving

/-- Classifying the eighth bit of a group arms the acknowledge, and predicts the direction of an address (44_sniffer.md
R236). -/
theorem Sniffer.classify_ok {n : Sniffer} (hact : n.Active) (hg : n.groupPos = 8)
    (hk : n.proto = .transmitting ∨ n.proto = .receiving → n.predicted = n.proto) : n.classify.Ok := by
  have hle : n.groupPos.toNat ≤ 8 := by simp [hg]
  simp only [Sniffer.classify]
  split
  · next h =>
    have hdir : (if n.fifo.getLsbD 0 then Proto.transmitting else .receiving) = .transmitting ∨
        (if n.fifo.getLsbD 0 then Proto.transmitting else .receiving) = .receiving := by
      split <;> simp
    have hne : (if n.fifo.getLsbD 0 then Proto.transmitting else .receiving) ≠ .idle := by
      split <;> simp
    exact ⟨.inr (.inl h), hle, by simp [hg], by simp [h], .inr hdir, by simp [h],
      fun _ => iff_of_false hne (by simp [hg])⟩
  · next h => exact .of_known (.inr h) (hk (.inr h)) hle (by simp [hg])
  · next hs hr =>
    have h : n.proto = .transmitting := (hact.resolve_left hs).resolve_right hr
    exact .of_known (.inl h) (hk (.inl h)) hle (by simp [hg])

/-- A group bit (44_sniffer.md R235). -/
theorem Sniffer.groupBit_ok {n : Sniffer} (h : n.Ok) (hact : n.Active) (hlt : n.groupPos < 8) : n.groupBit.Ok := by
  have h8 : n.groupPos ≠ 8 := by bv_omega
  simp only [Sniffer.groupBit]
  split
  · next hg => exact Sniffer.classify_ok hact hg h.known
  · next hg =>
    refine ⟨h.proto, ?_, ?_, fun hi => ?_, h.predicted, h.known, fun hs => ?_⟩
    · simp only at hg ⊢
      bv_omega
    · exact iff_of_true (h.ack.2 h8) hg
    · rcases hact with ha | ha | ha <;> simp [ha] at hi
    · exact iff_of_true ((h.address hs).2 h8) hg

/-- The acknowledge bit ends a group; after an address the direction is the predicted one (44_sniffer.md R237). -/
theorem Sniffer.record_ok {n : Sniffer} (h : n.Ok) (hact : n.Active) (hg : n.groupPos = 8) (tag : Byte) :
    (n.record tag).1.Ok := by
  have hdir : (n.record tag).1.proto = n.predicted ∧ (n.predicted = .transmitting ∨ n.predicted = .receiving) := by
    rcases hact with ha | ha | ha
    · have hne : n.predicted ≠ .idle := fun hi => (h.address ha).1 hi hg
      exact ⟨if_pos ha, h.predicted.resolve_left hne⟩
    · have hk := h.known (.inl ha)
      exact ⟨by simp [Sniffer.record, ha, hk], .inl (hk.trans ha)⟩
    · have hk := h.known (.inr ha)
      exact ⟨by simp [Sniffer.record, ha, hk], .inr (hk.trans ha)⟩
  obtain ⟨hproto, hpred⟩ := hdir
  exact .of_known (by rw [hproto]; exact hpred) hproto.symm (by simp [Sniffer.record]) (by simp [Sniffer.record])

/-- A clock in a transaction (44_sniffer.md R234). -/
theorem Sniffer.clock_ok {n : Sniffer} (h : n.Ok) (hact : n.Active) (tag : Byte) : (n.clock tag).1.Ok := by
  simp only [Sniffer.clock]
  split
  · next hlt => exact Sniffer.groupBit_ok h hact hlt
  · split
    · next hg => exact Sniffer.record_ok h hact hg tag
    · exact h

/-- SNF.SCL_RISE: a clock counts in a transaction only (44_sniffer.md R234). -/
theorem snifferSclRise_ok {n : Sniffer} (h : n.Ok) (tag : Byte) : (snifferSclRise tag n).1.Ok := by
  simp only [snifferSclRise]
  split
  · next hp => exact Sniffer.clock_ok h (.inl hp) tag
  · next hp => exact Sniffer.clock_ok h (.inr (.inl hp)) tag
  · next hp => exact Sniffer.clock_ok h (.inr (.inr hp)) tag
  all_goals exact h

/-- SNF.SDA_FALL and SNF.SDA_RISE: with SCL high, a start or a stop (44_sniffer.md R232, R233). -/
theorem snifferSda_ok {n : Sniffer} (h : n.Ok) (tag : Byte) :
    (snifferSdaFall tag n).1.Ok ∧ (snifferSdaRise tag n).1.Ok := by
  simp only [snifferSdaFall, snifferSdaRise]
  split
  · exact ⟨n.clear_ok (.inr rfl), n.clear_ok (.inl rfl)⟩
  · exact ⟨h, h⟩

/-- Every handler leaves a sniffer well formed. -/
theorem snifferHandler_ok (l : Line) (e : Edge) (tag : Byte) {n : Sniffer} (h : n.Ok) :
    (snifferHandler l e tag n).1.Ok :=
  match l, e with
  | .sda, .fall => (snifferSda_ok h tag).1
  | .sda, .rise => (snifferSda_ok h tag).2
  | .scl, .rise => snifferSclRise_ok h tag
  | .scl, .fall => h

end Sys2Proof.Machine
end

section
/-! SUPPORT. What a step keeps, packaged once: an instruction is a command, whose body is built from a few kinds of
change, or an event step (`exec_command`, `exec_event`); a property that each kind of change keeps is kept by every
instruction and by every step but a configuration (`StepKept`). From it, the statements that a fault is sticky and that
the configuration is fixed. -/

namespace Sys2Proof.Machine

/-! ### Event steps -/

theorem edgeOf_level (e : Edge) : edgeOf e.level = e := by cases e <;> rfl

/-- What an event word answers, if it answers a next state. -/
theorem eventWord_next {pin : Pin} {level : Level} {s t : State} (h : eventWord pin level s = .next t) :
    s.fault = none ∧ t = event pin level s := by
  simp only [eventWord] at h
  split at h
  · cases h
  · obtain ⟨hf, -, ht⟩ := runEvent_next h
    exact ⟨hf, ht⟩

/-- A slave's row does what the event word of its edge does (entry 13). -/
theorem slaveRow_next {line : Line} {edge : Edge} {pin : Pin} {s t : State}
    (h : slaveRow line edge (slaveHandler line edge) pin s = .next t) :
    s.fault = none ∧ t = event pin edge.level s := by
  simp only [slaveRow] at h
  split at h
  · next i v l hsel =>
    split at h
    · next hl =>
      subst hl
      obtain ⟨hf, -, rfl⟩ := runEvent_next h
      exact ⟨hf, by simp only [event, hsel, edgeOf_level]⟩
    · exact eventWord_next h
  · exact eventWord_next h

/-- A sniffer's row does what the event word of its edge does (entry 13). -/
theorem snifferRow_next {line : Line} {edge : Edge} {pin : Pin} {s t : State}
    (h : snifferRow line edge (snifferHandler line edge) pin s = .next t) :
    s.fault = none ∧ t = event pin edge.level s := by
  simp only [snifferRow] at h
  split at h
  · next i n l hsel =>
    split at h
    · next hl =>
      subst hl
      obtain ⟨hf, -, rfl⟩ := runEvent_next h
      exact ⟨hf, by simp only [event, hsel, edgeOf_level]⟩
    · exact eventWord_next h
  · exact eventWord_next h

/-- An instruction that is no command answers the state after an event step (30_encoding.md R86). -/
theorem exec_event {i : Instr} {s t : State} (hc : i.isCommand = false) (h : exec i s = .next t) :
    s.fault = none ∧ ∃ pin level, t = event pin level s := by
  cases i with
  | evLine pin level => exact (eventWord_next h).imp_right fun ht => ⟨_, _, ht⟩
  | slvSdaFall pin => exact (slaveRow_next (line := .sda) (edge := .fall) h).imp_right fun ht => ⟨_, _, ht⟩
  | slvSdaRise pin => exact (slaveRow_next (line := .sda) (edge := .rise) h).imp_right fun ht => ⟨_, _, ht⟩
  | slvSclRise pin => exact (slaveRow_next (line := .scl) (edge := .rise) h).imp_right fun ht => ⟨_, _, ht⟩
  | slvSclFall pin => exact (slaveRow_next (line := .scl) (edge := .fall) h).imp_right fun ht => ⟨_, _, ht⟩
  | snfSdaFall pin => exact (snifferRow_next (line := .sda) (edge := .fall) h).imp_right fun ht => ⟨_, _, ht⟩
  | snfSdaRise pin => exact (snifferRow_next (line := .sda) (edge := .rise) h).imp_right fun ht => ⟨_, _, ht⟩
  | snfSclRise pin => exact (snifferRow_next (line := .scl) (edge := .rise) h).imp_right fun ht => ⟨_, _, ht⟩
  | snfSclFall pin => exact (snifferRow_next (line := .scl) (edge := .fall) h).imp_right fun ht => ⟨_, _, ht⟩
  | _ => simp [Instr.isCommand, Instr.opcode] at hc

/-! ### The kinds of change -/

/-- How a running command changes the master's registers: the configuration and the buffer stay, a new length fits the
buffer (42_master.md R159), and no status is BusError (10_state.md R23). -/
structure Master.Evolves (p : Params) (m m' : Master) : Prop where
  cfg    : m'.cfg = m.cfg
  buf    : m'.buf = m.buf
  length : m'.len = m.len ∨ m'.len.toNat ≤ p.bufSize
  status : m'.status = m.status ∨ m'.status ≠ .busError

/-- A register that is none of configuration, buffer, length and status may change freely. -/
theorem Master.Evolves.of_eq {p : Params} {m m' : Master} (hc : m'.cfg = m.cfg) (hb : m'.buf = m.buf)
    (hl : m'.len = m.len) (hs : m'.status = m.status) : m.Evolves p m' := ⟨hc, hb, .inl hl, .inl hs⟩

/-- A property that every kind of change keeps of which steps other than a configuration are made. -/
structure StepKept (P : State → Prop) : Prop where
  master    : ∀ s m, s.m.Evolves s.params m → P s → P { s with m := m }
  memWrite  : ∀ i v s, P s → P (s.memWrite i v)
  snap      : ∀ x s, P s → P { s with snap := x }
  env       : ∀ e s, P s → P { s with env := e }
  raise     : ∀ c n s, P s → P (s.raise c n)
  unsettled : ∀ s, P s → P { s with unsettled := true }
  notify    : ∀ es s, (∀ e ∈ es, e.stamp = s.instant) → P s →
    P { s with events := s.events ++ es, instant := s.instant + 1 }
  taken     : ∀ e s, P s → P { s with events := s.events.erase e }
  event     : ∀ pin level s, P s → P (event pin level s)

/-- A notification carries the number of its change (entry 6). -/
theorem notices_stamp {s : State} {l : Line} : ∀ e ∈ s.notices l, e.stamp = s.instant := by
  intro e he
  simp only [State.notices, List.mem_flatMap, List.mem_map] at he
  obtain ⟨_, -, p, -, rfl⟩ := he
  rfl

/-- Propagation does nothing, or queues the notifications of one change (41_line_and_edge.md R131). -/
theorem propagate_cases (s t : State) :
    propagate s t = t ∨ ∃ es, (∀ e ∈ es, e.stamp = t.instant) ∧
      propagate s t = { t with events := t.events ++ es, instant := t.instant + 1 } := by
  simp only [propagate]
  split
  · exact .inl rfl
  · refine .inr ⟨_, fun e he => ?_, rfl⟩
    rcases List.mem_append.1 he with he | he <;> exact notices_stamp e (List.mem_ite_nil_left.1 he).2

section
variable {P : State → Prop} (k : StepKept P)
include k

theorem StepKept.upd {f : Master → Master} {s : State} (hf : s.m.Evolves s.params (f s.m)) (h : P s) : P (s.upd f) := by
  simp only [State.upd]
  split
  · exact k.master s _ hf h
  · exact h

theorem StepKept.finish (l : Option Line) {s : State} (h : P s) : P (s.finish l) := k.upd (.of_eq rfl rfl rfl rfl) h

theorem StepKept.propagate (s : State) {t : State} (h : P t) : P (propagate s t) := by
  rcases propagate_cases s t with ht | ⟨es, hes, ht⟩ <;> rw [ht]
  · exact h
  · exact k.notify es t hes h

theorem StepKept.takeEvent {s s' : State} {e : Pending} (he : s.takeEvent = some (e, s')) (h : P s) : P s' := by
  obtain ⟨-, -, cs, n, rfl⟩ := takeEvent_spec he
  exact k.env { s.env with choices := cs, draws := n } _ (k.taken e s h)

theorem StepKept.settle {s : State} (h : P s) : P (settle s) :=
  settle_keeps (fun _ _ _ he => k.takeEvent he) (fun s p b => k.event p b s) k.unsettled h

theorem StepKept.external (a : ExtAct) {s : State} (h : P s) : P (external a s) := by
  cases a with
  | drive x y => exact k.propagate s (k.env _ s h)
  | event w =>
    simp only [Machine.external]
    split
    · exact k.notify _ s (by simp) h
    · exact h

theorem StepKept.agents {s : State} (h : P s) : P (agents s) := by
  simp only [Machine.agents]
  split
  · exact runExternal_keeps (fun a s _ h => k.settle (k.external a h)) _ (k.env _ s h)
  · exact h

theorem StepKept.act {f : Master → Master} (hf : ∀ p m n, Master.Evolves p m { f m with actions := n }) {s : State}
    (h : P s) : P (act f s) := by
  have ha := k.agents h
  simp only [Machine.act, Machine.drive]
  split
  · exact k.settle (k.propagate _ (k.master _ _ (hf _ _ _) ha))
  · exact ha

/-- The line actions and the register updates of a command are of these kinds. -/
theorem StepKept.toKept : Kept P where
  lineW l v _ := k.act fun p m n => by cases l <;> exact .of_eq rfl rfl rfl rfl
  lineD n _ h := k.agents (k.upd (.of_eq rfl rfl rfl rfl) h)
  phase _ _ := k.upd (.of_eq rfl rfl rfl rfl)
  lastAck _ _ := k.upd (.of_eq rfl rfl rfl rfl)
  lineSetDir l d _ := k.act fun p m n => by cases l <;> exact .of_eq rfl rfl rfl rfl
  fifo _ _ := k.upd (.of_eq rfl rfl rfl rfl)
  result _ _ := k.upd (.of_eq rfl rfl rfl rfl)
  status b _ := k.upd ⟨rfl, rfl, .inl rfl, .inr (by cases b <;> simp [statusOf])⟩

theorem StepKept.sampleLine (l : Line) {s : State} (h : P s) : P (sampleLine l s) := by
  simp only [Machine.sampleLine]
  split
  · exact k.toKept.result _ _ (k.env _ s h)
  · exact k.toKept.result _ _ h

theorem StepKept.runWord {w : PortWord} {l : Option Line} {body : State → State} {s t : State}
    (h : runWord w l body s = .next t) (hb : P s → P (body s)) (hs : P s) : P t := by
  obtain ⟨-, -, ⟨-, rfl⟩ | ⟨-, rfl⟩⟩ := runWord_next h
  · exact k.raise _ _ s hs
  · exact k.finish l (hb hs)

end

/-! ### Instructions -/

/-- A command runs a body that is made of these kinds of change. -/
theorem exec_command {i : Instr} {s t : State} (hc : i.isCommand = true) (h : exec i s = .next t) :
    ∃ l body, runCommand i l body s = .next t ∧ ∀ P, StepKept P → P s → P (body s) := by
  cases i with
  | fReset => exact ⟨_, _, h, fun P k => k.toKept.fifo _ _⟩
  | fShift b =>
    simp only [exec, execFShift] at h
    exact ⟨_, _, h, fun P k hs => k.toKept.fifo _ _ (k.toKept.result _ _ hs)⟩
  | fLoad v => exact ⟨_, _, h, fun P k => k.toKept.fifo _ _⟩
  | fRead =>
    simp only [exec, execFRead] at h
    exact ⟨_, _, h, fun P k => k.toKept.result _ _⟩
  | lRead l => exact ⟨_, _, h, fun P k => k.sampleLine l⟩
  | lWrite l v => exact ⟨_, _, h, fun P k => k.toKept.lineW l v _⟩
  | lSetdir l d => exact ⟨_, _, h, fun P k => k.toKept.lineSetDir l d _⟩
  | lDelay n => exact ⟨_, _, h, fun P k => k.toKept.lineD n _⟩
  | mStart => exact ⟨_, _, h, fun P k => k.toKept.startCondition⟩
  | mStop => exact ⟨_, _, h, fun P k => k.toKept.stopCondition⟩
  | mWriteBit b => exact ⟨_, _, h, fun P k => k.toKept.writeBit b⟩
  | mReadBit =>
    simp only [exec, execMReadBit] at h
    exact ⟨_, _, h, fun P k hs => k.toKept.result _ _ (k.toKept.readBit hs)⟩
  | mWriteByte v =>
    simp only [exec, execMWriteByte] at h
    exact ⟨_, _, h, fun P k hs => k.toKept.result _ _ (k.toKept.writeByte v hs)⟩
  | mReadByte z =>
    simp only [exec, execMReadByte] at h
    exact ⟨_, _, h, fun P k hs => k.toKept.result _ _ (k.toKept.readByte z hs)⟩
  | mStartComm a r =>
    simp only [exec, execMStartComm] at h
    exact ⟨_, _, h, fun P k hs => k.toKept.result _ _ (k.toKept.startCommunication a r hs)⟩
  | mSetlen n =>
    simp only [exec, execMSetlen] at h
    refine ⟨_, _, h, fun P k hs => ?_⟩
    split
    · exact k.raise _ _ s hs
    · next hn => exact k.upd ⟨rfl, rfl, .inr (by simp only [BitVec.toNat_ofNat]; omega), .inl rfl⟩ hs
  | mWriteBytes a =>
    simp only [exec, execMWriteBytes] at h
    refine ⟨_, _, h, fun P k hs => ?_⟩
    split
    · exact k.raise _ _ s hs
    · exact k.toKept.writeBytes a _ hs
  | mReadBytes a =>
    simp only [exec, execMReadBytes] at h
    split at h
    · cases h
    · exact ⟨_, _, h, fun P k => k.toKept.readBytes k.memWrite a⟩
  | qSnap i =>
    simp only [exec, execQSnap] at h
    refine ⟨_, _, h, fun P k hs => ?_⟩
    split
    · exact k.raise _ _ s hs
    · exact k.snap _ s hs
  | qStatus =>
    simp only [exec, execQStatus] at h
    exact ⟨_, _, h, fun P k => k.toKept.result _ _⟩
  | _ => simp [Instr.isCommand, Instr.opcode] at hc

/-- A block with its fault register set runs no instruction (10_state.md R50). -/
theorem exec_fault {i : Instr} {s t : State} (h : exec i s = .next t) : s.fault = none := by
  cases hc : i.isCommand with
  | false => exact (exec_event hc h).1
  | true =>
    obtain ⟨l, body, hrun, -⟩ := exec_command hc h
    exact (runCommand_next hrun).1

section
variable {P : State → Prop} (k : StepKept P) {s t : State}
include k

/-- What every kind of change keeps, every instruction keeps. -/
theorem StepKept.exec {i : Instr} (h : exec i s = .next t) (hs : P s) : P t := by
  cases hc : i.isCommand with
  | false =>
    obtain ⟨-, pin, level, rfl⟩ := exec_event hc h
    exact k.event pin level s hs
  | true =>
    obtain ⟨l, body, hrun, hb⟩ := exec_command hc h
    exact k.runWord hrun (hb P k) hs

/-! ### Steps -/

theorem StepKept.takeCommand {w : PortWord} (h : takeCommand w s = .next t) (hs : P s) : P t := by
  simp only [Machine.takeCommand] at h
  split at h
  · exact k.exec h hs
  · exact k.runWord h (k.raise _ _ s) hs

theorem StepKept.takeEventWord {w : PortWord} (h : takeEventWord w s = .next t) (hs : P s) : P t := by
  simp only [Machine.takeEventWord] at h
  split at h
  · exact k.exec h hs
  · cases h; exact hs

theorem StepKept.hostWrite {i : Nat} {v : Byte} (h : hostWrite i v s = .next t) (hs : P s) : P t := by
  simp only [Machine.hostWrite] at h
  split at h
  · cases h; exact k.memWrite i v s hs
  · cases h

theorem StepKept.hostReadByte {i : Nat} (h : hostReadByte i s = .next t) (hs : P s) : P t := by
  simp only [Machine.hostReadByte] at h
  split at h
  · cases h; exact k.raise _ _ s hs
  · cases h; exact k.env _ s hs

theorem StepKept.takeInput {i : Input} (hi : ∀ c, i ≠ .configure c) (h : takeInput i s = .next t) (hs : P s) : P t := by
  cases i with
  | configure c => exact absurd rfl (hi c)
  | command w => exact k.takeCommand h hs
  | memWrite j v => exact k.hostWrite h hs
  | memRead j => exact k.hostReadByte h hs
  | external a =>
    cases a with
    | drive x y => cases h; exact k.external _ hs
    | event w => exact k.takeEventWord h hs

/-- What every kind of change keeps, every step but a configuration keeps. -/
theorem StepKept.step (hc : ∀ c r, s.env.inputs ≠ .configure c :: r) (h : step s = .next t) (hs : P s) : P t := by
  have hdrop : P s.dropInput := k.env _ s hs
  rcases step_next h with ⟨c, r, hi, -⟩ | ⟨-, -, htaken | hinput | hexternal⟩
  · exact absurd hi (hc c r)
  · obtain ⟨e, s', he, hx⟩ := htaken
    exact k.exec hx (k.takeEvent he hs)
  · obtain ⟨-, -, ⟨-, rfl⟩ | ⟨i, r, hi, hx⟩⟩ := hinput
    · exact hs
    · exact k.takeInput (fun c hic => hc c r (hic ▸ hi)) hx hdrop
  · obtain ⟨-, a, r, -, rfl⟩ := hexternal
    exact k.external a hdrop

end

/-! ### A fault is sticky -/

/-- Settles O13: a next state of an instruction, and of a step that takes no configuration, needs an empty fault
register. -/
theorem faultIsSticky : Obligations.FaultIsSticky := by
  refine ⟨rfl, fun s f hf => ⟨fun i t h => ?_, fun hc t h => ?_, fun c r hi => ?_⟩⟩
  · simp [exec_fault h] at hf
  · simp [step_other hc, hf] at h
  · rw [step_configure hi]
    simp only [State.dropInput, hi, List.tail_cons]

/-! ### The configuration is fixed -/

/-- A change of neither parameters, wiring, master's configuration nor registry keeps the configuration. -/
theorem KeepsConfiguration.trans_eq {s t u : State} (h : KeepsConfiguration s t) (hp : u.params = t.params)
    (hw : u.wiring = t.wiring) (hm : u.m.cfg = t.m.cfg)
    (hr : u.registry.map Engine.identity = t.registry.map Engine.identity) : KeepsConfiguration s u :=
  ⟨hp.trans h.params, hw.trans h.wiring, hm.trans h.master, hr.trans h.registry⟩

@[simp] theorem memWrite_cfg (i : Nat) (v : Byte) (s : State) : (s.memWrite i v).m.cfg = s.m.cfg := by
  simp only [State.memWrite]
  split <;> rfl

/-- No kind of change touches what the configuration fixes. -/
theorem keepsConfiguration_kept (s : State) : StepKept (KeepsConfiguration s) where
  master _ _ hm h := h.trans_eq rfl rfl hm.cfg rfl
  memWrite _ _ _ h := h.trans_eq (by simp) (by simp) (by simp) (by simp)
  snap _ _ h := h.trans_eq rfl rfl rfl rfl
  env _ _ h := h.trans_eq rfl rfl rfl rfl
  raise _ _ _ h := h.trans_eq rfl rfl rfl rfl
  unsettled _ h := h.trans_eq rfl rfl rfl rfl
  notify _ _ _ h := h.trans_eq rfl rfl rfl rfl
  taken _ _ h := h.trans_eq rfl rfl rfl rfl
  event pin level t h :=
    have hf := event_frame pin level t
    h.trans_eq hf.params hf.wiring (by rw [hf.m]) hf.registry

/-- Settles O12: the configuration is kept by every kind of change. -/
theorem configurationIsFixed : Obligations.ConfigurationIsFixed := fun s _ hc h =>
  (keepsConfiguration_kept s).step hc h ⟨rfl, rfl, rfl, rfl⟩

end Sys2Proof.Machine
end

section
/-! SUPPORT. What an event step does to one engine and to the records (`EngineStep`), and from it that the records
only grow. -/

namespace Sys2Proof.Machine

/-! ### Numbers of changes -/

/-- Every pending notification is of an earlier change than the next. -/
def State.Stamped (s : State) : Prop := ∀ e ∈ s.events, e.stamp < s.instant

/-- The notifications of the next change make it an earlier one. -/
theorem State.Stamped.notify {s : State} (h : s.Stamped) {es : List Pending} (hes : ∀ e ∈ es, e.stamp = s.instant) :
    State.Stamped { s with events := s.events ++ es, instant := s.instant + 1 } := by
  intro e he
  rcases List.mem_append.1 he with he | he
  · exact Nat.lt_succ_of_lt (h e he)
  · exact Nat.lt_succ_of_le (hes e he).le

/-- Propagation queues notifications of one change. -/
theorem State.Stamped.propagate {t : State} (h : t.Stamped) (s : State) : (propagate s t).Stamped := by
  rcases propagate_cases s t with ht | ⟨es, hes, ht⟩ <;> rw [ht]
  · exact h
  · exact h.notify hes

/-! ### The step of one engine -/

/-- What the step of engine `i` does: the engine becomes `e`, the records may have grown, the notifications stay in
order, and the context is Interrupt only where a callback has not returned (60_exceptions.md R296, R299). -/
structure EngineStep (s t : State) (i : Nat) (e : Engine) : Prop where
  registry  : t.registry = s.registry.set i e
  callbacks : s.callbacks <+: t.callbacks
  frames    : s.frames <+: t.frames
  stamped   : s.Stamped → t.Stamped
  context   : t.fault = none → (t.ctx = .interrupt ↔ t.registry.any Engine.isStuck = true)

/-- The propagation of a change of its output is part of it. -/
theorem EngineStep.propagate {s t : State} {i : Nat} {e : Engine} (h : EngineStep s t i e) (r : State) :
    EngineStep s (propagate r t) i e :=
  ⟨by simpa using h.registry, by simpa using h.callbacks, by simpa using h.frames, fun hs => (h.stamped hs).propagate r,
    by simpa using h.context⟩

/-- A handler returns to Foreground unless a callback has not returned (60_exceptions.md R299). -/
theorem leaveHandler_context (s : State) :
    s.leaveHandler.ctx = .interrupt ↔ s.leaveHandler.registry.any Engine.isStuck = true := by
  rw [leaveHandler_ctx, leaveHandler_registry]
  cases s.registry.any Engine.isStuck <;> simp

/-- A callback that returns, issues a command or hangs leaves a well-formed slave (43_slave.md R210 to R213). -/
theorem invoke_engineStep {i : Nat} {v : Slave} {c : Call} {s : State} (hi : i < s.registry.length)
    (hc : s.ctx = .interrupt) :
    ∃ v', EngineStep s (invoke i v c s) i (.slave v') ∧ (v.Ok → v.ReadyFor c.kind → v'.Ok) := by
  simp only [invoke]
  split
  · exact ⟨_, ⟨rfl, by simp, by simp, id, fun _ => leaveHandler_context _⟩,
      fun hv hr => afterCallback_ok hv hr _⟩
  · next b r _ =>
    exact ⟨_, ⟨rfl, by simp, by simp, id, fun _ => leaveHandler_context _⟩,
      fun hv hr => afterCallback_ok (hv.withScript r v.stuck) (hr.withScript r v.stuck) _⟩
  · next w r _ =>
    exact ⟨_, ⟨rfl, by simp, by simp, id, fun hf => by simp at hf⟩, fun hv _ => hv.withScript r v.stuck⟩
  · next r _ =>
    refine ⟨_, ⟨rfl, by simp, by simp, id, fun _ => iff_of_true hc ?_⟩, fun hv _ => hv.withScript r true⟩
    exact List.any_eq_true.2 ⟨_, List.mem_set hi _, rfl⟩

/-- A slave's step is its own step and the propagation of its output's change (43_slave.md R190). -/
theorem runSlave_engineStep {l : Line} {e : Edge} {i : Nat} {v : Slave} {s : State} (hi : i < s.registry.length) :
    ∃ v', EngineStep s (runSlave (slaveHandler l e) i v s) i (.slave v') ∧ (v.Ok → v'.Ok) := by
  have hh := slaveHandler_handled l e (v := v)
  simp only [runSlave]
  split
  · next v' hr =>
    rw [hr] at hh
    refine ⟨v', EngineStep.propagate ?_ s, fun hv => (hh hv).ok⟩
    exact ⟨rfl, by simp, by simp, id, fun _ => leaveHandler_context _⟩
  · next v' c hr =>
    rw [hr] at hh
    obtain ⟨v'', hstep, hok⟩ := invoke_engineStep (i := i) (v := v') (c := c) (s := s.enterHandler) hi rfl
    refine ⟨v'', EngineStep.propagate ?_ s, fun hv => hok (hh hv).ok ((hh hv).ready c rfl)⟩
    exact ⟨hstep.registry, hstep.callbacks, hstep.frames, hstep.stamped, hstep.context⟩

/-- What an event step does: nothing, or the step of one engine, which keeps it well formed (41_line_and_edge.md R136;
45_dispatch.md R264). -/
theorem event_cases (pin : Pin) (level : Level) (s : State) :
    event pin level s = s ∨
      ∃ i e e', s.registry[i]? = some e ∧ (e.Ok → e'.Ok) ∧ EngineStep s (event pin level s) i e' := by
  simp only [event]
  split
  · exact .inl rfl
  · next i v l hsel =>
    have hreg := (selected_spec hsel).2.1
    obtain ⟨v', hstep, hok⟩ := runSlave_engineStep (l := l) (e := edgeOf level) (v := v.store l level)
      (List.getElem?_eq_some_iff.1 hreg).1
    exact .inr ⟨i, _, .slave v', hreg, fun hv : v.Ok => hok (hv.store l level), hstep⟩
  · next i n l hsel =>
    refine .inr ⟨i, _, .sniffer (snifferHandler l (edgeOf level) s.params.sniffTag (n.store l level)).1,
      (selected_spec hsel).2.1, fun hn : n.Ok => snifferHandler_ok l _ _ (hn.store l level), ?_⟩
    exact ⟨rfl, by simp [runSniffer], by simp [runSniffer], id, fun _ => leaveHandler_context _⟩

/-! ### The records only grow -/

/-- The records of one state begin those of another (10_state.md R51, R52). -/
structure RecordsGrow (s t : State) : Prop where
  callbacks : s.callbacks <+: t.callbacks
  frames    : s.frames <+: t.frames

theorem RecordsGrow.trans {s t u : State} (h : RecordsGrow s t) (k : RecordsGrow t u) : RecordsGrow s u :=
  ⟨h.callbacks.trans k.callbacks, h.frames.trans k.frames⟩

/-- An event step appends to the records. -/
theorem event_recordsGrow (pin : Pin) (level : Level) (s : State) : RecordsGrow s (event pin level s) := by
  rcases event_cases pin level s with h | ⟨i, e, e', -, -, hstep⟩
  · rw [h]
    exact ⟨List.prefix_rfl, List.prefix_rfl⟩
  · exact ⟨hstep.callbacks, hstep.frames⟩

/-- Of the kinds of change, event steps alone touch the records. -/
theorem recordsGrow_kept (s : State) : StepKept (RecordsGrow s) where
  master _ _ _ h := ⟨h.callbacks, h.frames⟩
  memWrite _ _ _ h := ⟨by simpa using h.callbacks, by simpa using h.frames⟩
  snap _ _ h := ⟨h.callbacks, h.frames⟩
  env _ _ h := ⟨h.callbacks, h.frames⟩
  raise _ _ _ h := ⟨h.callbacks, h.frames⟩
  unsettled _ h := ⟨h.callbacks, h.frames⟩
  notify _ _ _ h := ⟨h.callbacks, h.frames⟩
  taken _ _ h := ⟨h.callbacks, h.frames⟩
  event pin level t h := h.trans (event_recordsGrow pin level t)

/-- Settles O55: every kind of change lets the records grow or leaves them. -/
theorem recordsOnlyGrow : Obligations.RecordsOnlyGrow := by
  intro s t hc h
  obtain ⟨⟨cs, hcs⟩, fs, hfs⟩ := (recordsGrow_kept s).step hc h ⟨List.prefix_rfl, List.prefix_rfl⟩
  exact ⟨cs, fs, hcs.symm, hfs.symm⟩

end Sys2Proof.Machine
end

section
/-! SUPPORT. The checks of a configuration and the state that it leaves (45_dispatch.md R261, R263;
70_reset_and_hazards.md R321). -/

namespace Sys2Proof.Machine

/-! ### The checks -/

/-- The search for a repeated pin finds none where no pin repeats, or was seen before. -/
theorem repeatedPin_eq_none {seen l : List Pin} : repeatedPin seen l = none ↔ l.Nodup ∧ ∀ p ∈ l, p ∉ seen := by
  induction l generalizing seen with
  | nil => simp [repeatedPin]
  | cons p r ih =>
    simp only [repeatedPin]
    split
    · next hp => simp [hp]
    · next hp =>
      rw [ih, List.nodup_cons, List.forall_mem_cons]
      simp only [List.mem_cons, not_or]
      constructor
      · exact fun ⟨hn, hr⟩ => ⟨⟨fun hm => (hr p hm).1 rfl, hn⟩, hp, fun q hq => (hr q hq).2⟩
      · exact fun ⟨⟨hm, hn⟩, _, hr⟩ => ⟨hn, fun q hq => ⟨fun h => hm (h ▸ hq), hr q hq⟩⟩

/-- A configuration that passes its checks fits the registry, names no pin twice, and gives its master a frequency
(45_dispatch.md R261). -/
theorem check_eq_none {p : Params} {c : Configuration} (h : c.check p = none) :
    c.engines.length ≤ p.regCap ∧ c.pins.Nodup ∧ ∀ d, c.master = some d → d.freqHz ≠ 0 := by
  simp only [Configuration.check] at h
  split at h
  · cases h
  · next hlen =>
    split at h
    · cases h
    · next hpins =>
      split at h
      · cases h
      · split at h
        · cases h
        · next hfreq =>
          refine ⟨by omega, (repeatedPin_eq_none.1 hpins).1, fun d hd h0 => hfreq ?_⟩
          simp [hd, h0]

/-! ### The state after a configuration -/

/-- A configuration that fails a check leaves a block with no engine and the fault set (entry 18). -/
theorem configure_refused {c : Configuration} {s : State} {f : FaultRec} (h : c.check s.params = some f) :
    configure c s = s.blank.raise f.code f.info := by
  simp only [configure, h]

/-- A configuration that passes its checks builds its engines in an otherwise blank block (45_dispatch.md R263). -/
theorem configure_accepted {c : Configuration} {s : State} (h : c.check s.params = none) :
    configure c s =
      { s.blank with
        wiring := c.wiring
        m := { Master.reset with cfg := c.master.map MasterDesc.build }
        registry := c.engines.map (EngineDesc.build c.wiring s.env) } := by
  simp only [configure, h]

/-- A built engine releases SDA, so every engine outputs 1 at reset (10_state.md R55). -/
theorem build_drives (w : List (Pin × Line)) (env : Env) (l : Line) (d : EngineDesc) :
    (d.build w env).drives w l = true := by
  cases d <;> cases l <;> simp [EngineDesc.build, Engine.drives, Slave.reset]

/-- The master's outputs are released at reset (10_state.md R55). -/
theorem reset_drives (cfg : Option MasterCfg) (w : List (Pin × Line)) (l : Line) :
    Master.drives w { Master.reset with cfg := cfg } l = true := by
  cases cfg <;> cases l <;> simp [Master.drives, Master.mout, Master.dir, Master.latch, Master.reset]

/-- Right after a configuration the external agents alone drive the wires (70_reset_and_hazards.md R321; entry 17). -/
theorem configure_wire {c : Configuration} {s : State} (h : c.check s.params = none) (l : Line) :
    (configure c s).wire l = s.env.drives l := by
  have hall : (c.engines.map (EngineDesc.build c.wiring s.env)).all (Engine.drives c.wiring l) = true := by
    simp [build_drives]
  rw [configure_accepted h]
  simp only [State.wire, reset_drives, hall, Bool.true_and, Bool.and_true]
  cases l <;> rfl

/-- The stored levels of a built engine are those of the wires its pins are attached to (entry 17). -/
theorem build_levels (w : List (Pin × Line)) (env : Env) (d : EngineDesc) :
    (d.build w env).lvl .sda = levelAtReset w env (d.build w env).sdaPin ∧
    (d.build w env).lvl .scl = levelAtReset w env (d.build w env).sclPin := by
  cases d <;> exact ⟨rfl, rfl⟩

theorem levelAtReset_attached {w : List (Pin × Line)} {p : Pin} {l : Line} (h : wireOf w p = some l) (env : Env) :
    levelAtReset w env p = env.drives l := by
  simp only [levelAtReset, h]

/-- Every stored level is the level of the wire (entry 17). -/
theorem configure_levels {c : Configuration} {s : State} (h : c.check s.params = none) :
    ∀ e ∈ (configure c s).registry, ∀ l,
      (wireOf (configure c s).wiring e.sdaPin = some l → e.lvl .sda = (configure c s).wire l) ∧
      (wireOf (configure c s).wiring e.sclPin = some l → e.lvl .scl = (configure c s).wire l) := by
  intro e he l
  rw [configure_wire h]
  rw [configure_accepted h] at he ⊢
  obtain ⟨d, -, rfl⟩ := List.mem_map.1 he
  obtain ⟨hsda, hscl⟩ := build_levels c.wiring s.env d
  exact ⟨fun hw => hsda.trans (levelAtReset_attached hw _), fun hw => hscl.trans (levelAtReset_attached hw _)⟩

/-- Settles O9: the state after an accepted configuration, field by field. -/
theorem configurationResets : Obligations.ConfigurationResets := by
  intro c s t h ht
  subst ht
  have hlevels := configure_levels h
  rw [configure_accepted h] at hlevels ⊢
  refine ⟨rfl, rfl, rfl, rfl, rfl, rfl, rfl, rfl, rfl, rfl, rfl, by simp, fun i a b addr script hi => ?_,
    fun i a b hi => ?_, hlevels⟩
  · exact ⟨levelAtReset c.wiring s.env a, levelAtReset c.wiring s.env b, by rw [List.getElem?_map, hi]; rfl⟩
  · exact ⟨levelAtReset c.wiring s.env a, levelAtReset c.wiring s.env b, by rw [List.getElem?_map, hi]; rfl⟩

end Sys2Proof.Machine
end

section
/-! SUPPORT. The invariant holds after reset and after a configuration, and every other kind of change keeps it. -/

namespace Sys2Proof.Machine

/-! ### Reset and configuration -/

/-- A slave at reset is well formed where its match values belong to its address. -/
theorem Slave.reset_ok (a b : Pin) (addr : Addr) (x y : Level) (script : List CbReply) :
    (Slave.reset a b addr (receiveCondOf addr) (transmitCondOf addr) x y script).Ok :=
  .of_idle ⟨rfl, rfl⟩ rfl ⟨rfl, rfl, rfl⟩ ⟨rfl, rfl⟩

/-- A sniffer at reset is as a stop leaves it (10_state.md R55; 44_sniffer.md R233). -/
theorem Sniffer.reset_ok (a b : Pin) (x y : Level) : (Sniffer.reset a b x y).Ok :=
  (Sniffer.reset a b x y).clear_ok (p := .idle) (.inl rfl)

/-- The master at reset is well formed where its delay unit belongs to its frequency. -/
theorem Master.reset_ok (p : Params) {cfg : Option MasterCfg}
    (h : ∀ c, cfg = some c → c.freqHz ≠ 0 ∧ c.delayUnit = delayUnitOf c.freqHz) :
    Master.Ok p { Master.reset with cfg := cfg } where
  status := by simp [Master.reset]
  buffer := rfl
  bounds := by simp [Master.reset]
  length := Nat.zero_le _
  delay := h

/-- Settles O56: the engines, the master and the pins of the reset configuration. -/
theorem invariantAtReset : Obligations.InvariantAtReset where
  capacity := Nat.le_add_right 2 Config.spareSlots
  pins := by decide
  context _ := by decide
  stamps _ he := by cases he
  master := Master.reset_ok _ fun c hc => by cases hc; decide
  engines := by
    simp only [State.reset, List.forall_mem_cons]
    exact ⟨Slave.reset_ok 2 3 0x42 true true [], Sniffer.reset_ok 4 5 true true, by simp⟩

/-- The pins of the block are those of its configuration. -/
theorem configure_pins {c : Configuration} {s : State} (h : c.check s.params = none) :
    (configure c s).pins = c.pins := by
  rw [configure_accepted h]
  simp only [State.pins, Configuration.pins, List.flatMap_map]
  congr 1
  · cases c.master <;> rfl
  · refine List.flatMap_congr fun d _ => ?_
    cases d <;> rfl

/-- A built engine is well formed, and its callback has always returned. -/
theorem build_ok (w : List (Pin × Line)) (env : Env) (d : EngineDesc) :
    (d.build w env).Ok ∧ (d.build w env).isStuck = false := by
  cases d with
  | slave a b addr script => exact ⟨Slave.reset_ok _ _ _ _ _ _, rfl⟩
  | sniffer a b => exact ⟨Sniffer.reset_ok _ _ _ _, rfl⟩

/-- A configuration, accepted or refused, leaves a state of the invariant. -/
theorem configure_inv (c : Configuration) (s : State) : (configure c s).Inv := by
  cases h : c.check s.params with
  | some f =>
    rw [configure_refused h]
    exact ⟨Nat.zero_le _, List.nodup_nil, (fun hf => by simp at hf), fun _ he => (by cases he),
      Master.reset_ok _ (fun c hc => by cases hc), fun _ he => by cases he⟩
  | none =>
    obtain ⟨hlen, hpins, hfreq⟩ := check_eq_none h
    have hnodup := (configure_pins h).symm ▸ hpins
    rw [configure_accepted h] at hnodup ⊢
    refine ⟨by rwa [List.length_map], hnodup, fun _ => ?_, fun _ he => (by cases he),
      Master.reset_ok _ fun k hk => ?_, ?_⟩
    · exact iff_of_false (fun hx : Ctx.foreground = .interrupt => by cases hx) (by simp [build_ok])
    · obtain ⟨d, hd, rfl⟩ := Option.map_eq_some_iff.1 hk
      exact ⟨hfreq d hd, rfl⟩
    · intro e he
      obtain ⟨d, -, rfl⟩ := List.mem_map.1 he
      exact (build_ok _ _ d).1

/-! ### Every other step -/

/-- The pins of the block look at what the configuration fixes (10_state.md R25, R33, R38). -/
theorem pins_congr {s t : State} (hm : t.m.cfg = s.m.cfg)
    (hr : t.registry.map Engine.identity = s.registry.map Engine.identity) : t.pins = s.pins := by
  have hflat : ∀ r : List Engine, (r.flatMap fun e => [e.sdaPin, e.sclPin]) =
      (r.map Engine.identity).flatMap fun x => [x.2.1, x.2.2.1] := by
    intro r
    rw [List.flatMap_map]
    refine List.flatMap_congr fun e _ => ?_
    cases e <;> rfl
  simp only [State.pins, hm, hflat, hr]

/-- A running command keeps the master well formed (10_state.md R23, R45, R46). -/
theorem Master.Ok.evolves {p : Params} {m m' : Master} (h : m.Ok p) (he : m.Evolves p m') : m'.Ok p where
  status := he.status.elim (fun hs => hs ▸ h.status) id
  buffer := he.buf ▸ h.buffer
  bounds := he.buf ▸ h.bounds
  length := he.length.elim (fun hl => hl ▸ h.length) id
  delay := he.cfg ▸ h.delay

/-- A write at an index that exists keeps the buffer canonical and within its bounds (20_memory.md R62). -/
theorem Master.Ok.write {p : Params} {m : Master} (h : m.Ok p) {i : Nat} (hi : i < p.bufSize) (v : Byte) :
    Master.Ok p { m with buf := Memory.write m.buf i v } where
  status := h.status
  buffer := wf_write i v h.buffer
  bounds c hc := by
    rcases mem_write hc with rfl | hc
    · exact hi
    · exact h.bounds c hc
  length := h.length
  delay := h.delay

/-- An event step keeps the invariant: what the configuration fixes and the master stay, and one engine steps. -/
theorem event_inv {s : State} (h : s.Inv) (pin : Pin) (level : Level) : (event pin level s).Inv := by
  have hf := event_frame pin level s
  have hlen : (event pin level s).registry.length = s.registry.length := by simpa using congrArg List.length hf.registry
  rcases event_cases pin level s with hs | ⟨i, e, e', hreg, hok, hstep⟩
  · rwa [hs]
  · refine ⟨?_, ?_, hstep.context, hstep.stamped h.stamps, ?_, fun x hx => ?_⟩
    · rw [hlen, hf.params]
      exact h.capacity
    · rw [pins_congr (by rw [hf.m]) hf.registry]
      exact h.pins
    · rw [hf.m, hf.params]
      exact h.master
    · rw [hstep.registry] at hx
      rcases List.mem_or_eq_of_mem_set hx with hx | rfl
      · exact h.engines x hx
      · exact hok (h.engines e (List.mem_of_getElem? hreg))

/-- Every kind of change keeps the invariant. -/
theorem inv_kept : StepKept State.Inv where
  master s m hm h :=
    have hpins : State.pins { s with m := m } = s.pins := pins_congr hm.cfg rfl
    ⟨h.capacity, hpins.symm ▸ h.pins, h.context, h.stamps, h.master.evolves hm, h.engines⟩
  memWrite i v s h := by
    simp only [State.memWrite]
    split
    · next hi => exact ⟨h.capacity, h.pins, h.context, h.stamps, h.master.write hi v, h.engines⟩
    · exact h
  snap _ _ h := ⟨h.capacity, h.pins, h.context, h.stamps, h.master, h.engines⟩
  env _ _ h := ⟨h.capacity, h.pins, h.context, h.stamps, h.master, h.engines⟩
  raise _ _ _ h := ⟨h.capacity, h.pins, fun hf => by simp at hf, h.stamps, h.master, h.engines⟩
  unsettled _ h := ⟨h.capacity, h.pins, h.context, h.stamps, h.master, h.engines⟩
  notify _ _ hes h := ⟨h.capacity, h.pins, h.context, State.Stamped.notify h.stamps hes, h.master, h.engines⟩
  taken _ _ h := ⟨h.capacity, h.pins, h.context, fun x hx => h.stamps x (List.mem_of_mem_erase hx), h.master, h.engines⟩
  event pin level _ h := event_inv h pin level

/-- Settles O57: a configuration leaves a state of the invariant, and every other step is made of changes that
keep it. -/
theorem invariantKeptByEveryStep : Obligations.InvariantKeptByEveryStep := by
  intro s t hinv h
  by_cases hc : ∃ c r, s.env.inputs = .configure c :: r
  · obtain ⟨c, r, hi⟩ := hc
    rw [step_configure hi] at h
    cases h
    exact configure_inv c _
  · exact inv_kept.step (fun c r hi => hc ⟨c, r, hi⟩) h hinv

end Sys2Proof.Machine
end

section
/-! SUPPORT. The host's access to the payload buffer between commands, and the proof of the statement on it
(20_memory.md R62). -/

namespace Sys2Proof.Machine

/-! ### The two accesses -/

/-- The host's MemWrite at an index that exists is the write of one byte. -/
theorem hostWrite_within {s : State} {i : Nat} (v : Byte) (h : i < s.params.bufSize) :
    hostWrite i v s = .next (s.memWrite i v) := by
  simp only [hostWrite, h, if_true]

/-- The write of one byte at an index that exists replaces the master's buffer and no other field. -/
theorem memWrite_within {s : State} {i : Nat} (v : Byte) (h : i < s.params.bufSize) :
    s.memWrite i v = { s with m := { s.m with buf := Memory.write s.m.buf i v } } := by
  simp only [State.memWrite, h, if_true]

/-- The host's MemRead of a written byte hands the host that byte. -/
theorem hostReadByte_written {s : State} {i : Nat} {b : Byte} (h : s.memRead i = some b) :
    hostReadByte i s = .next { s with env := { s.env with hostRead := some b } } := by
  simp only [hostReadByte, h]

/-- The host's MemRead where no byte is held raises F8 with the index (60_exceptions.md R289; entry 30). -/
theorem hostReadByte_unwritten {s : State} {i : Nat} (h : s.memRead i = none) :
    hostReadByte i s = .next (s.raise .unwrittenBuffer i) := by
  simp only [hostReadByte, h]

/-! ### The access as a step -/

/-- Settles O53: with nothing pending the step is the access itself, on a state whose parameters and buffer are those
before the input was taken. -/
theorem hostBufferAccess : Obligations.HostBufferAccess := by
  intro s i r hlive hnone
  refine ⟨fun v hin hi => ?_, fun v hin hread => ?_, fun hin hread => ?_⟩
  · have hstep := step_takes_input hlive hnone hin nofun
    refine ⟨_, Memory.write s.m.buf i v, hstep.trans (hostWrite_within v hi), memWrite_within v hi, fun j => ?_⟩
    rw [memRead_memWrite _ i j v (by exact hi)]
    exact if_congr eq_comm rfl rfl
  · exact (step_takes_input hlive hnone hin nofun).trans (hostReadByte_written hread)
  · exact (step_takes_input hlive hnone hin nofun).trans (hostReadByte_unwritten hread)

end Sys2Proof.Machine
end

section
/-! SUPPORT. A word and its two bytes, and the operand byte and its fields (30_encoding.md R81 to R84): what the decoder
reads of the fields that the encoder writes, and that an operand byte whose must-be-zero bits are zero is put together
from its fields. -/

namespace Sys2Proof

/-! ### A word and its two bytes -/

@[simp] theorem unitOp_append (a b : Byte) : unitOp (a ++ b) = a := (Laws.OpcodeByte.halves a b).1

@[simp] theorem imm_append (a b : Byte) : imm (a ++ b) = b := (Laws.OpcodeByte.halves a b).2

@[simp] theorem unitOp_encode (i : Instr) : unitOp (encode i) = i.opcode := unitOp_append _ _

@[simp] theorem imm_encode (i : Instr) : imm (encode i) = i.operand := imm_append _ _

/-- No bit of a word is outside its two bytes (30_encoding.md R81). -/
theorem unitOp_append_imm (w : PortWord) : unitOp w ++ imm w = w := by
  refine BitVec.eq_of_getLsbD_eq fun k hk => ?_
  change (unitOp w ++ imm w).getLsbD k = w.getLsbD k
  rw [BitVec.getLsbD_append]
  split
  · next h => simp [imm, h]
  · next h => simp [unitOp, show k - 8 < 8 by omega, show 8 + (k - 8) = k by omega]

/-- A word is an instruction's where its two bytes are. -/
theorem encode_eq {i : Instr} {w : PortWord} (hop : i.opcode = unitOp w) (hb : i.operand = imm w) : encode i = w := by
  rw [encode, hop, hb, unitOp_append_imm]

/-- The unit field is the upper half of the operation byte (30_encoding.md R81). -/
theorem isEventUnit_eq (w : PortWord) : isEventUnit w = decide ((unitOp w).extractLsb' 4 4 = 3) := by
  have hfield : w.extractLsb' 12 4 = (unitOp w).extractLsb' 4 4 := BitVec.eq_of_getLsbD_eq fun k hk => by
    simp [unitOp, hk, show 4 + k < 8 by omega, show 8 + (4 + k) = 12 + k by omega]
  rw [isEventUnit, hfield]

/-! ### The fields that the decoder reads of an operand byte, as the encoder wrote them -/

theorem getLsbD_zero_imm1 (b : Bool) : (imm1 b).getLsbD 0 = b := by
  cases b <;> rfl

theorem lineOf_imm1 (l : Line) : lineOf (imm1 l.bit) = l := by
  cases l <;> rfl

theorem getLsbD_one_imm2 (h l : Bool) : (imm2 h l).getLsbD 1 = h := by
  cases h <;> cases l <;> rfl

theorem lineOf_imm2 (h : Bool) (l : Line) : lineOf (imm2 h l.bit) = l := by
  cases h <;> cases l <;> rfl

theorem dirOf_imm2 (d : Dir) (l : Bool) : dirOf (imm2 d.bit l) = d := by
  cases d <;> cases l <;> rfl

theorem high7_concat (a : BitVec 7) (b : Bool) : high7 (a.concat b) = a := by
  refine BitVec.eq_of_getLsbD_eq fun k hk => ?_
  simp [high7, BitVec.getLsbD_concat, hk]

/-- A count that fits the operand byte is read back (30_encoding.md R83). -/
theorem toNat_ofNat_of_fitsImm {n : Nat} (h : fitsImm n = true) : (BitVec.ofNat 8 n).toNat = n :=
  (BitVec.toNat_ofNat n 8).trans (Nat.mod_eq_of_lt (of_decide_eq_true h))

theorem imm1_mask (b : Bool) : imm1 b &&& 0xFE = 0 := by
  cases b <;> rfl

theorem imm2_mask (h l : Bool) : imm2 h l &&& 0xFC = 0 := by
  cases h <;> cases l <;> rfl

theorem concat_false_mask (a : BitVec 7) : a.concat false &&& 0x01 = 0 := by
  refine BitVec.eq_of_getLsbD_eq fun k hk => ?_
  by_cases h : k = 0 <;> simp [BitVec.getLsbD_concat, h]

/-! ### An operand byte, put together from the fields that the decoder reads -/

theorem bit_lineOf (b : Byte) : (lineOf b).bit = b.getLsbD 0 := by
  unfold lineOf
  cases b.getLsbD 0 <;> rfl

theorem bit_dirOf (b : Byte) : (dirOf b).bit = b.getLsbD 1 := by
  unfold dirOf
  cases b.getLsbD 1 <;> rfl

/-- Where the must-be-zero bits of an operand are zero, each bit of the mask is zero in it. -/
theorem getLsbD_of_mask {b mask : Byte} (h : b &&& mask = 0) {k : Nat} (hk : mask.getLsbD k = true) :
    b.getLsbD k = false := by
  have hbit : (b &&& mask).getLsbD k = false := by rw [h]; exact BitVec.getLsbD_zero
  simpa [hk] using hbit

theorem eq_zero_of_mask {b : Byte} (h : b &&& 0xFF = 0) : b = 0 := BitVec.and_allOnes.symm.trans h

theorem imm1_of_mask {b : Byte} (h : b &&& 0xFE = 0) : imm1 (b.getLsbD 0) = b := by
  have hmask : ∀ k < 7, (0xFE : Byte).getLsbD (k + 1) = true := by decide
  refine BitVec.eq_of_getLsbD_eq fun k hk => ?_
  rcases k with _ | k
  · exact getLsbD_zero_imm1 _
  · rw [getLsbD_of_mask h (hmask k (by omega))]
    simp [imm1]

theorem imm1_lineOf_of_mask {b : Byte} (h : b &&& 0xFE = 0) : imm1 (lineOf b).bit = b := by
  rw [bit_lineOf, imm1_of_mask h]

theorem imm2_of_mask {b : Byte} (h : b &&& 0xFC = 0) : imm2 (b.getLsbD 1) (b.getLsbD 0) = b := by
  have hmask : ∀ k < 6, (0xFC : Byte).getLsbD (k + 2) = true := by decide
  refine BitVec.eq_of_getLsbD_eq fun k hk => ?_
  rcases k with _ | _ | k
  · exact BitVec.getLsbD_concat_zero
  · exact getLsbD_one_imm2 _ _
  · rw [getLsbD_of_mask h (hmask k (by omega))]
    simp [imm2]

theorem imm2_lineOf_of_mask {b : Byte} (h : b &&& 0xFC = 0) : imm2 (b.getLsbD 1) (lineOf b).bit = b := by
  rw [bit_lineOf, imm2_of_mask h]

theorem imm2_dirOf_lineOf_of_mask {b : Byte} (h : b &&& 0xFC = 0) : imm2 (dirOf b).bit (lineOf b).bit = b := by
  rw [bit_dirOf, imm2_lineOf_of_mask h]

/-- The seven high bits and the lowest bit are the byte (30_encoding.md R82, R84). -/
theorem concat_high7 (b : Byte) : (high7 b).concat (b.getLsbD 0) = b := by
  refine BitVec.eq_of_getLsbD_eq fun k hk => ?_
  rcases k with _ | k
  · exact BitVec.getLsbD_concat_zero
  · simp [high7, show k < 7 by omega, Nat.add_comm 1 k]

theorem concat_high7_of_mask {b : Byte} (h : b &&& 0x01 = 0) : (high7 b).concat false = b := by
  have hlow : b.getLsbD 0 = false := getLsbD_of_mask h rfl
  rw [← hlow, concat_high7]

end Sys2Proof
end

section
/-! SUPPORT. Each port's decoder undoes the encoder, and the encoder each port's decoder, and the proofs of the
statements on words alone (30_encoding.md R81 to R90). -/

namespace Sys2Proof

/-! ### Decoding an encoded instruction -/

theorem whenZero_of_mask {b mask : Byte} {i j : Instr} (h : b &&& mask = 0) (hi : i = j) : whenZero b mask i = .ok j :=
  (if_pos h).trans (congrArg Except.ok hi)

/-- The command port decodes a command's word to the command: the operation byte selects its row, the must-be-zero bits
were written zero, and each field is read as it was written. -/
theorem decodeCommand_encode {i : Instr} (hwf : i.wf = true) (hc : i.isCommand = true) :
    decodeCommand (encode i) = .ok i := by
  simp only [decodeCommand, unitOp_encode, imm_encode]
  cases i with
  | fReset | fLoad _ | fRead | mStart | mStop | mReadBit | mWriteByte _ | qStatus => rfl
  | lDelay n | mSetlen n | qSnap n => exact congrArg Except.ok (by rw [Instr.operand, toNat_ofNat_of_fitsImm hwf])
  | fShift b | mWriteBit b | mReadByte b =>
    exact whenZero_of_mask (imm1_mask b) (by rw [Instr.operand, getLsbD_zero_imm1])
  | lRead l => exact whenZero_of_mask (imm1_mask _) (by rw [Instr.operand, lineOf_imm1])
  | lWrite l v => exact whenZero_of_mask (imm2_mask _ _) (by rw [Instr.operand, lineOf_imm2, getLsbD_one_imm2])
  | lSetdir l d => exact whenZero_of_mask (imm2_mask _ _) (by rw [Instr.operand, lineOf_imm2, dirOf_imm2])
  | mStartComm a r => exact congrArg Except.ok (by rw [Instr.operand, high7_concat, BitVec.getLsbD_concat_zero])
  | mWriteBytes a | mReadBytes a =>
    exact whenZero_of_mask (concat_false_mask a) (by rw [Instr.operand, high7_concat])
  | _ => cases hc

/-- The event port reads the pin and the level of an event word (30_encoding.md R82). -/
theorem evLine_concat (pin : Pin) (level : Level) :
    Instr.evLine (high7 (pin.concat level)) ((pin.concat level).getLsbD 0) = .evLine pin level := by
  rw [high7_concat, BitVec.getLsbD_concat_zero]

/-- The event port decodes an event's word, and with it each handler row's word, to EV.LINE (30_encoding.md R86). -/
theorem decodeEvent_encode {i : Instr} (hc : i.isCommand = false) : decodeEvent (encode i) = .ok i.ofWord := by
  have hop : i.opcode = 0x30 := by simpa [Instr.isCommand] using hc
  rw [decodeEvent, unitOp_encode, imm_encode, if_pos hop]
  refine congrArg Except.ok ?_
  cases i with
  | evLine pin level => exact evLine_concat pin level
  | slvSdaFall pin | slvSclFall pin | snfSdaFall pin | snfSclFall pin => exact evLine_concat pin false
  | slvSdaRise pin | slvSclRise pin | snfSdaRise pin | snfSclRise pin => exact evLine_concat pin true
  | _ => cases hc

/-- A command is the instruction that its word stands for. -/
theorem ofWord_of_isCommand {i : Instr} (hc : i.isCommand = true) : i.ofWord = i := by
  cases i with
  | slvSdaFall | slvSclFall | snfSdaFall | snfSclFall => cases hc
  | slvSdaRise | slvSclRise | snfSdaRise | snfSclRise => cases hc
  | _ => rfl

/-- The unit field tells an event's word from a command's (30_encoding.md R81, R82, R89). -/
theorem isEventUnit_encode (i : Instr) : isEventUnit (encode i) = !i.isCommand := by
  rw [isEventUnit_eq, unitOp_encode]
  cases i <;> simp [Instr.isCommand, Instr.opcode]

/-- Settles O1: the unit field selects the port, and each port's decoder undoes the encoder. -/
theorem decodeOfEncode : Obligations.DecodeOfEncode := by
  intro i hwf
  refine ⟨?_, decodeCommand_encode hwf, decodeEvent_encode⟩
  rw [decode, isEventUnit_encode]
  cases hc : i.isCommand with
  | true => exact (decodeCommand_encode hwf hc).trans (congrArg Except.ok (ofWord_of_isCommand hc).symm)
  | false => exact decodeEvent_encode hc

/-! ### Encoding a decoded word -/

theorem whenZero_zero (b : Byte) (i : Instr) : whenZero b 0x00 i = .ok i := whenZero_of_mask BitVec.and_zero rfl

/-- The rows of the command table are the decoder's: a word of a row's operation is read as one instruction, unless a
must-be-zero bit of the row is set, and the word of that instruction is the word read (30_encoding.md R83, R85). -/
theorem decodeCommand_row {r : Byte × Byte} (hr : r ∈ commandTable) {w : PortWord} (hop : unitOp w = r.1) :
    ∃ i, decodeCommand w = whenZero (imm w) r.2 i ∧ (imm w &&& r.2 = 0 → i.wf = true ∧ encode i = w) := by
  have hfits : fitsImm (imm w).toNat = true := decide_eq_true (imm w).isLt
  have hcount : BitVec.ofNat 8 (imm w).toNat = imm w := by rw [BitVec.ofNat_toNat, BitVec.setWidth_eq]
  simp only [commandTable, List.mem_cons, List.not_mem_nil, or_false] at hr
  simp only [decodeCommand, hop]
  rcases hr with rfl | rfl | rfl | rfl | rfl | rfl | rfl | rfl | rfl | rfl | rfl | rfl | rfl | rfl | rfl | rfl | rfl |
    rfl | rfl | rfl
  · exact ⟨.fReset, rfl, fun hm => ⟨rfl, encode_eq hop.symm (eq_zero_of_mask hm).symm⟩⟩
  · exact ⟨.fShift _, rfl, fun hm => ⟨rfl, encode_eq hop.symm (imm1_of_mask hm)⟩⟩
  · exact ⟨.fLoad _, (whenZero_zero _ _).symm, fun _ => ⟨rfl, encode_eq hop.symm rfl⟩⟩
  · exact ⟨.fRead, rfl, fun hm => ⟨rfl, encode_eq hop.symm (eq_zero_of_mask hm).symm⟩⟩
  · exact ⟨.lRead _, rfl, fun hm => ⟨rfl, encode_eq hop.symm (imm1_lineOf_of_mask hm)⟩⟩
  · exact ⟨.lWrite _ _, rfl, fun hm => ⟨rfl, encode_eq hop.symm (imm2_lineOf_of_mask hm)⟩⟩
  · exact ⟨.lSetdir _ _, rfl, fun hm => ⟨rfl, encode_eq hop.symm (imm2_dirOf_lineOf_of_mask hm)⟩⟩
  · exact ⟨.lDelay _, (whenZero_zero _ _).symm, fun _ => ⟨hfits, encode_eq hop.symm hcount⟩⟩
  · exact ⟨.mStart, rfl, fun hm => ⟨rfl, encode_eq hop.symm (eq_zero_of_mask hm).symm⟩⟩
  · exact ⟨.mStop, rfl, fun hm => ⟨rfl, encode_eq hop.symm (eq_zero_of_mask hm).symm⟩⟩
  · exact ⟨.mWriteBit _, rfl, fun hm => ⟨rfl, encode_eq hop.symm (imm1_of_mask hm)⟩⟩
  · exact ⟨.mReadBit, rfl, fun hm => ⟨rfl, encode_eq hop.symm (eq_zero_of_mask hm).symm⟩⟩
  · exact ⟨.mWriteByte _, (whenZero_zero _ _).symm, fun _ => ⟨rfl, encode_eq hop.symm rfl⟩⟩
  · exact ⟨.mReadByte _, rfl, fun hm => ⟨rfl, encode_eq hop.symm (imm1_of_mask hm)⟩⟩
  · exact ⟨.mStartComm _ _, (whenZero_zero _ _).symm, fun _ => ⟨rfl, encode_eq hop.symm (concat_high7 _)⟩⟩
  · exact ⟨.mSetlen _, (whenZero_zero _ _).symm, fun _ => ⟨hfits, encode_eq hop.symm hcount⟩⟩
  · exact ⟨.mWriteBytes _, rfl, fun hm => ⟨rfl, encode_eq hop.symm (concat_high7_of_mask hm)⟩⟩
  · exact ⟨.mReadBytes _, rfl, fun hm => ⟨rfl, encode_eq hop.symm (concat_high7_of_mask hm)⟩⟩
  · exact ⟨.qSnap _, (whenZero_zero _ _).symm, fun _ => ⟨hfits, encode_eq hop.symm hcount⟩⟩
  · exact ⟨.qStatus, rfl, fun hm => ⟨rfl, encode_eq hop.symm (eq_zero_of_mask hm).symm⟩⟩

/-- The decoder has no row beside those of the table (30_encoding.md R87). -/
theorem decodeCommand_unlisted {w : PortWord} (h : ∀ r ∈ commandTable, unitOp w ≠ r.1) :
    decodeCommand w = .error .reservedOp := by
  have hop : (unitOp w).toNat ∉ commandTable.map fun r => r.1.toNat := by
    intro hmem
    obtain ⟨r, hr, heq⟩ := List.mem_map.1 hmem
    exact h r hr (BitVec.eq_of_toNat_eq heq.symm)
  unfold decodeCommand
  split
  case h_21 => rfl
  all_goals
    next heq => exact absurd (heq ▸ by decide) hop

/-- A reserved word is rejected. -/
theorem decodeCommand_reserved {w : PortWord} (h : ReservedWord w) : ∃ e, decodeCommand w = .error e := by
  by_cases hrow : ∃ r ∈ commandTable, unitOp w = r.1
  · obtain ⟨r, hr, hop⟩ := hrow
    obtain ⟨i, hi, -⟩ := decodeCommand_row hr hop
    exact ⟨.mustBeZero, hi.trans (if_neg (h r hr hop))⟩
  · exact ⟨.reservedOp, decodeCommand_unlisted fun r hr hop => hrow ⟨r, hr, hop⟩⟩

/-- A word that is not reserved is the word of the instruction that it is read as (30_encoding.md R83, R85). -/
theorem decodeCommand_unreserved {w : PortWord} (h : ¬ ReservedWord w) :
    ∃ i, decodeCommand w = .ok i ∧ i.wf = true ∧ encode i = w := by
  simp only [ReservedWord, not_forall, not_not] at h
  obtain ⟨r, hr, hop, hm⟩ := h
  obtain ⟨i, hi, hw⟩ := decodeCommand_row hr hop
  exact ⟨i, hi.trans (whenZero_of_mask hm rfl), hw hm⟩

/-- The encoder undoes the command port's decoder. -/
theorem encode_of_decodeCommand {w : PortWord} {i : Instr} (h : decodeCommand w = .ok i) :
    i.wf = true ∧ encode i = w := by
  by_cases hw : ReservedWord w
  · obtain ⟨e, he⟩ := decodeCommand_reserved hw
    rw [h] at he
    cases he
  · obtain ⟨j, hj, henc⟩ := decodeCommand_unreserved hw
    rw [h] at hj
    cases hj
    exact henc

/-- The encoder undoes the event port's decoder. -/
theorem encode_of_decodeEvent {w : PortWord} {i : Instr} (h : decodeEvent w = .ok i) :
    i.wf = true ∧ encode i = w := by
  unfold decodeEvent at h
  split at h
  · next hop =>
    cases h
    exact ⟨rfl, encode_eq hop.symm (concat_high7 _)⟩
  · cases h

/-- Settles O2: the encoder undoes the decoder of the port that the word belongs to. -/
theorem encodeOfDecode : Obligations.EncodeOfDecode := by
  intro w i h
  unfold decode at h
  split at h
  · exact encode_of_decodeEvent h
  · exact encode_of_decodeCommand h

/-- A word of unit 3 is of no operation of the command port (30_encoding.md R89). -/
theorem reservedWord_of_isEventUnit {w : PortWord} (h : isEventUnit w = true) : ReservedWord w := by
  have hunits : ∀ r ∈ commandTable, r.1.extractLsb' 4 4 ≠ 3#4 := by simp [commandTable]
  rw [isEventUnit_eq, decide_eq_true_eq] at h
  exact fun r hr hop => absurd (hop ▸ h) (hunits r hr)

/-- Settles O3, by evaluating the decoder on each word. -/
theorem writtenOutWords : Obligations.WrittenOutWords := by
  unfold Obligations.WrittenOutWords
  decide

end Sys2Proof
end

section
/-! SUPPORT. What the ports do with a word that is no instruction, with an event of a pin that no instance owns, and
with a handler row, and the proofs of the statements on them (30_encoding.md R80, R86 to R89; 45_dispatch.md R264,
R265). -/

namespace Sys2Proof.Machine

/-! ### The command port -/

/-- A fault ends the command: the settle flags stay as they are (entry 23). -/
theorem finish_raise (code : FaultCode) (info : Nat) (l : Option Line) (s : State) :
    (s.raise code info).finish l = s.raise code info := rfl

/-- A reserved word runs as a command whose whole body is F7 (30_encoding.md R87). -/
theorem takeCommand_reserved {w : PortWord} (h : ReservedWord w) (s : State) :
    takeCommand w s = runWord w none (State.raise .reservedCommand w.toNat) s := by
  obtain ⟨e, he⟩ := decodeCommand_reserved h
  rw [takeCommand, he]

theorem takeCommand_decoded {w : PortWord} {i : Instr} (h : decodeCommand w = .ok i) (s : State) :
    takeCommand w s = exec i s := by
  rw [takeCommand, h]

/-- Settles O4: a reserved word is a command that raises F7, under the same order of F5 and body as every command. -/
theorem reservedCommandRaisesF7 : Obligations.ReservedCommandRaisesF7 := by
  intro w s
  refine ⟨fun hw hl => ?_, fun hw hf hu hx => ?_, fun hw => ?_, reservedWord_of_isEventUnit⟩
  · rw [takeCommand_reserved hw, runWord_live hl, finish_raise]
  · rw [takeCommand_reserved hw, runWord_interrupt hf hu hx]
  · obtain ⟨i, hi, -⟩ := decodeCommand_unreserved hw
    exact ⟨i, hi, takeCommand_decoded hi s⟩

/-- Settles O6: with nothing pending the step takes the command word, which is its instruction. -/
theorem stepRunsDecodedCommand : Obligations.StepRunsDecodedCommand := by
  intro s w r i hl hn hi hd
  exact (step_takes_input hl hn hi nofun).trans (takeCommand_decoded hd _)

/-! ### The event port -/

/-- No handler is selected for a pin that no instance owns (45_dispatch.md R265). -/
theorem selected_unowned {s : State} {pin : Pin} (h : s.owner pin = none) (level : Level) :
    s.selected pin level = none := by
  rw [State.selected, h]

theorem ownerStuck_unowned {s : State} {pin : Pin} (h : s.owner pin = none) : s.ownerStuck pin = false := by
  rw [State.ownerStuck, h]

/-- An event that selects no handler changes nothing (41_line_and_edge.md R136; 45_dispatch.md R265). -/
theorem event_unselected {s : State} {pin : Pin} {level : Level} (h : s.selected pin level = none) :
    event pin level s = s := by
  rw [event, h]

theorem handlerOf_unselected {s : State} {pin : Pin} {level : Level} (h : s.selected pin level = none) :
    handlerOf s pin level = .evLine pin level := by
  rw [handlerOf, h]

/-- An event word at the event port runs the row that it selects (30_encoding.md R86). -/
theorem takeEventWord_encode (pin : Pin) (level : Level) (s : State) :
    takeEventWord (encode (.evLine pin level)) s = exec (handlerOf s pin level) s := by
  rw [takeEventWord, decodeEvent_encode rfl]
  rfl

/-- Settles O5: a reserved word is no event, and an event of an unowned pin selects no handler. -/
theorem unknownEventIgnored : Obligations.UnknownEventIgnored := by
  refine ⟨fun w s hop => ?_, fun pin level s hp ho => ?_⟩
  · have hd : decodeEvent w = .error .notAnEvent := if_neg hop
    exact ⟨by rw [takeEventWord, hd], by rw [external, hd]⟩
  · have hsel := selected_unowned ho level
    have hword : exec (.evLine pin level) s = .next s := by
      rw [exec_evLine hp (ownerStuck_unowned ho), event_unselected hsel]
    exact ⟨hword, by rw [takeEventWord_encode, handlerOf_unselected hsel, hword]⟩

/-! ### The handler rows -/

/-- An instance that is selected is not stuck, so a step that does there what the event step does is the event word
(45_dispatch.md R264). -/
theorem runEvent_eq_eventWord {s : State} {pin : Pin} {level : Level} {i : Nat} {e : Engine} {l : Line}
    {f : State → State} (hsel : s.selected pin level = some (i, e, l)) (hf : f s = event pin level s) :
    runEvent f s = eventWord pin level s := by
  obtain ⟨ho, he, hs, -⟩ := selected_spec hsel
  have hk : s.ownerStuck pin = false := by simp [State.ownerStuck, ho, he, hs]
  simp [eventWord, hk, runEvent, hf]

/-- A slave's row is the event word of its pin and of the level that its edge brings: where its selector holds, both run
the row's handler (30_encoding.md R86; entry 13). -/
theorem slaveRow_eq_eventWord (line : Line) (edge : Edge) (pin : Pin) (s : State) :
    slaveRow line edge (slaveHandler line edge) pin s = eventWord pin edge.level s := by
  rw [slaveRow]
  split
  · next i v l hsel =>
    split
    · next hl =>
      subst hl
      exact runEvent_eq_eventWord hsel (by simp only [event, hsel, edgeOf_level])
    · rfl
  · rfl

/-- A sniffer's row is the event word of its pin and of the level that its edge brings, as a slave's is. -/
theorem snifferRow_eq_eventWord (line : Line) (edge : Edge) (pin : Pin) (s : State) :
    snifferRow line edge (snifferHandler line edge) pin s = eventWord pin edge.level s := by
  rw [snifferRow]
  split
  · next i n l hsel =>
    split
    · next hl =>
      subst hl
      exact runEvent_eq_eventWord hsel (by simp only [event, hsel, edgeOf_level])
    · rfl
  · rfl

/-- An instruction that is no command does what the event word does that its word stands for (30_encoding.md R86). -/
theorem exec_ofWord {i : Instr} (hc : i.isCommand = false) (s : State) : exec i s = exec i.ofWord s := by
  cases i with
  | evLine pin level => rfl
  | slvSdaFall pin => exact slaveRow_eq_eventWord .sda .fall pin s
  | slvSdaRise pin => exact slaveRow_eq_eventWord .sda .rise pin s
  | slvSclRise pin => exact slaveRow_eq_eventWord .scl .rise pin s
  | slvSclFall pin => exact slaveRow_eq_eventWord .scl .fall pin s
  | snfSdaFall pin => exact snifferRow_eq_eventWord .sda .fall pin s
  | snfSdaRise pin => exact snifferRow_eq_eventWord .sda .rise pin s
  | snfSclRise pin => exact snifferRow_eq_eventWord .scl .rise pin s
  | snfSclFall pin => exact snifferRow_eq_eventWord .scl .fall pin s
  | _ => cases hc

/-- The word of the row that an event word selects is that event word (30_encoding.md R86). -/
theorem handlerOf_ofWord (s : State) (pin : Pin) (level : Level) :
    (handlerOf s pin level).isCommand = false ∧ (handlerOf s pin level).ofWord = .evLine pin level := by
  unfold handlerOf
  split
  · exact ⟨rfl, rfl⟩
  all_goals cases level <;> exact ⟨rfl, rfl⟩

/-- Settles O8: each row is no command, and its word is the event word of its pin and level. -/
theorem handlerRowsAreTheEventWord : Obligations.HandlerRowsAreTheEventWord := by
  intro s pin
  simp only [List.forall_mem_cons, List.not_mem_nil, false_imp_iff, implies_true, and_true]
  refine ⟨⟨?_, ?_, ?_, ?_⟩, ⟨?_, ?_, ?_, ?_⟩, fun level => ?_⟩
  case refine_9 =>
    obtain ⟨hc, hword⟩ := handlerOf_ofWord s pin level
    rw [exec_ofWord hc, hword]
  all_goals exact exec_ofWord rfl s

end Sys2Proof.Machine
end

section
/-! SUPPORT. The master's Fifo8 and the address conditions (40_fifo_and_address.md R100 to R108), and the proofs of the
statements on them. -/

namespace Sys2Proof.Machine

/-! ### The word of a command and the bits that must be zero in it -/

/-- A well-formed command decodes from the word that it encodes to, so its word is settled by the encoder alone. -/
theorem hasWord_of_encode {i : Instr} {w : PortWord} (hwf : i.wf = true) (hc : i.isCommand = true)
    (h : encode i = w) : HasWord i w :=
  ⟨h, h ▸ decodeCommand_encode hwf hc⟩

/-- An operation has one row of the command table (30_encoding.md R85). -/
theorem commandTable_unique {r q : Byte × Byte} (hr : r ∈ commandTable) (hq : q ∈ commandTable) (hop : r.1 = q.1) :
    r = q :=
  List.inj_on_of_nodup_map (f := Prod.fst) (by decide) hr hq hop

/-- The mask of each row of the command table is that of its must-be-zero bits: where one of them is 1 the word is
reserved (30_encoding.md R87). -/
theorem mustBeZero_of_mem {op mask : Byte} (hrow : (op, mask) ∈ commandTable) : MustBeZero op mask := by
  intro b s hlive hset
  have hreserved : ReservedWord (op ++ b : PortWord) := by
    intro r hr hop
    rw [unitOp_append] at hop
    obtain rfl := commandTable_unique hrow hr hop
    rwa [imm_append]
  exact (reservedCommandRaisesF7 _ s).1 hreserved hlive

/-! ### Commands that change the master's registers alone -/

theorem upd_of_live {s : State} (h : s.live = true) (f : Master → Master) : s.upd f = { s with m := f s.m } := if_pos h

/-- Two changes of the master's registers are one. -/
theorem upd_upd (f g : Master → Master) (s : State) : (s.upd f).upd g = s.upd (g ∘ f) := by
  cases h : s.live with
  | true => rw [upd_of_live ((upd_live s f).trans h), upd_of_live h, upd_of_live h]; rfl
  | false => simp [State.upd, h]

/-- The end of a command of a live block whose body is one change of the master's registers: that change, then the
settle flags, and the rest of the block as it was. -/
theorem finish_upd {s : State} (h : s.live = true) (f : Master → Master) (l : Option Line) :
    (s.upd f).finish l = { s with m := (f s.m).settleAfter l } :=
  (upd_upd f _ s).trans (upd_of_live h _)

/-- The two registers that F.SHIFT writes (40_fifo_and_address.md R100). -/
theorem setFifo_setResult (v r : Byte) (s : State) :
    setFifo v (setResult r s) = s.upd fun m => { m with fifo := v, result := r } :=
  upd_upd _ _ s

/-- Settles O38: the words are the encoder's, the masks are those of the command table, and each command is a change of
the master's registers alone. -/
theorem fifoCommands : Obligations.FifoCommands := by
  refine ⟨hasWord_of_encode rfl rfl rfl, hasWord_of_encode rfl rfl rfl, hasWord_of_encode rfl rfl rfl,
    fun v => hasWord_of_encode rfl rfl rfl, hasWord_of_encode rfl rfl rfl, mustBeZero_of_mem (by decide),
    mustBeZero_of_mem (by decide), mustBeZero_of_mem (by decide), ?_⟩
  rintro s m hlive - rfl
  refine ⟨fun b => ?shift, ?reset, fun v => ?load, ?read⟩
  case shift =>
    calc execFShift b s
      _ = .next ((setFifo (Fifo.shiftIn s.m.fifo b) (setResult (zext1 (Fifo.evicted s.m.fifo)) s)).finish none) :=
        runCommand_live hlive
      _ = _ := by rw [setFifo_setResult, finish_upd hlive]; rfl
  case reset | load | read => exact (runCommand_live hlive).trans (congrArg _ (finish_upd hlive _ none))

/-! ### Eight shifts -/

/-- A shift drops the most significant bit and appends its operand (40_fifo_and_address.md R100). -/
theorem bitsMsbFirst_shiftIn (f : Byte) (b : Bool) :
    bitsMsbFirst (Fifo.shiftIn f b) = (bitsMsbFirst f).tail ++ [b] := by
  simp [bitsMsbFirst, Fifo.shiftIn]

/-- The register after a sequence of shifts holds the last eight bits of what it held and what was shifted in. -/
theorem bitsMsbFirst_foldl_shiftIn (bs : List Bool) (f : Byte) :
    bitsMsbFirst (bs.foldl Fifo.shiftIn f) = (bitsMsbFirst f ++ bs).drop bs.length := by
  induction bs generalizing f with
  | nil => simp
  | cons b bs ih =>
    rw [List.foldl_cons, ih, bitsMsbFirst_shiftIn, List.append_assoc]
    rfl

/-- Shifting in zeros shifts the register left. -/
theorem foldl_shiftIn_zeros (v : Byte) (k : Nat) : (List.replicate k false).foldl Fifo.shiftIn v = v <<< k := by
  have hone (f : Byte) : Fifo.shiftIn f false = f <<< 1 := by
    refine BitVec.eq_of_getLsbD_eq fun j hj => ?_
    cases j with
    | zero => simp [Fifo.shiftIn]
    | succ j => simp [Fifo.shiftIn, hj, BitVec.getLsbD_eq_getElem (Nat.lt_of_succ_lt hj)]
  induction k generalizing v with
  | zero => simp
  | succ k ih => rw [List.replicate_succ, List.foldl_cons, ih, hone, Nat.add_comm, BitVec.shiftLeft_add]

/-- Settles O39: after eight shifts the last eight bits are those shifted in, and eight zeros shift the byte out. -/
theorem shiftRoundTrip : Obligations.ShiftRoundTrip := by
  refine ⟨fun f b1 b2 b3 b4 b5 b6 b7 b8 => bitsMsbFirst_foldl_shiftIn _ f, fun v => ⟨fun k hk => ?_, ?_⟩⟩
  · have hbit : ¬ 7 < k := Nat.not_lt.2 (Nat.le_of_lt_succ hk)
    rw [foldl_shiftIn_zeros, Fifo.evicted, BitVec.getLsbD_shiftLeft]
    simp only [hbit, decide_false, decide_true, Bool.not_false, Bool.and_true, Bool.true_and, Nat.reduceLT]
  · rw [foldl_shiftIn_zeros, BitVec.shiftLeft_eq_zero (Nat.le_refl 8)]
    rfl

/-! ### The address conditions -/

/-- An address shifted left by one, with a bit in the place that this frees (40_fifo_and_address.md R106). -/
theorem shiftLeft_or_bit (a : Addr) (b : Bool) : (a.setWidth 8 <<< 1) ||| zext1 b = a.concat b := by
  refine BitVec.eq_of_getLsbD_eq fun k hk => ?_
  cases k with
  | zero => simp [zext1]
  | succ k => simp [zext1, hk, BitVec.getLsbD_eq_getElem (Nat.lt_of_succ_lt_succ hk)]

theorem receiveCondOf_eq_concat (a : Addr) : receiveCondOf a = a.concat false := shiftLeft_or_bit a false

theorem transmitCondOf_eq_concat (a : Addr) : transmitCondOf a = a.concat true := shiftLeft_or_bit a true

/-- The seven high bits of an address byte are the address, whichever its direction bit. -/
theorem concat_ushiftRight_one (a : Addr) (b : Bool) : (a.concat b : Byte) >>> 1 = a.setWidth 8 := by
  refine BitVec.eq_of_getLsbD_eq fun k hk => ?_
  simp [BitVec.getLsbD_concat, hk]

/-- Two address bytes of one address differ in their direction bit alone (40_fifo_and_address.md R107). -/
theorem concat_false_xor_concat_true (a : Addr) : (a.concat false ^^^ a.concat true : Byte) = 1 := by
  rw [BitVec.concat_xor_concat, BitVec.xor_self]
  rfl

/-- Two bytes that are one bit apart are not equal. -/
theorem ne_of_xor_eq_one {x y : Byte} (h : x ^^^ y = 1) : x ≠ y := by
  rintro rfl
  rw [BitVec.xor_self] at h
  cases h

/-- Settles O40: the two match values are the address with its direction bit appended, and the match compares a byte
with one and then with the other. -/
theorem addressConditions : Obligations.AddressConditions := by
  refine ⟨fun a => ?_, fun v byte => ⟨fun ht => if_pos ht, fun ht hr => ?_, fun ht hr => ?_⟩⟩
  · have hxor := concat_false_xor_concat_true a
    rw [receiveCondOf_eq_concat, transmitCondOf_eq_concat]
    exact ⟨rfl, rfl, hxor, ne_of_xor_eq_one hxor, concat_ushiftRight_one a false, concat_ushiftRight_one a true⟩
  · exact (if_neg ht).trans (if_pos hr)
  · exact (if_neg ht).trans (if_neg hr)

end Sys2Proof.Machine
end

section
/-! SUPPORT. The delay unit, the wires and the notifications of their changes (41_line_and_edge.md R125 to R137), and
the proofs of the statements on them. -/

namespace Sys2Proof.Machine

/-! ### The delay unit -/

/-- The delay unit of a frequency fits its 32 bits, so nothing of it is lost (41_line_and_edge.md R125). -/
theorem delayUnitOf_toNat (freq : BitVec 32) : (delayUnitOf freq).toNat = max 1 (1000000 / freq.toNat) := by
  have hle : 1000000 / freq.toNat ≤ 1000000 := Nat.div_le_self _ _
  simp only [delayUnitOf, BitVec.toNat_ofNat]
  omega

/-- The frequency of the master is checked last: a configuration with frequency 0 that would pass with another one fails
with F4 (45_dispatch.md R261). -/
theorem check_eq_badFrequency {p : Params} {c : Configuration} {d : MasterDesc} {f : BitVec 32} (hd : c.master = some d)
    (hzero : d.freqHz = 0) (h : Configuration.check p { c with master := some { d with freqHz := f } } = none) :
    c.check p = some ⟨.badFrequency, 0⟩ := by
  have hpins : Configuration.pins { c with master := some { d with freqHz := f } } = c.pins := by
    simp only [Configuration.pins, hd]
  simp only [Configuration.check, hpins] at h ⊢
  split at h
  · cases h
  · next hlen =>
    split at h
    · cases h
    · split at h
      · cases h
      · simp [hlen, hd, hzero]

/-- Settles O11: a configuration derives the delay unit, frequency 0 fails its last check, and no other step changes the
master's configuration. -/
theorem delayUnitDerivedOnce : Obligations.DelayUnitDerivedOnce := by
  refine ⟨fun c s d hd => ⟨fun hcheck => ?_, fun hzero => ⟨?_, fun hother => ?_⟩⟩, fun s t hc h => ?_⟩
  · rw [configure_accepted hcheck]
    exact ⟨d.build, by simp [hd], rfl, delayUnitOf_toNat d.freqHz⟩
  · cases hcheck : c.check s.params with
    | none => exact absurd hzero ((check_eq_none hcheck).2.2 d hd)
    | some f => simp [configure_refused hcheck]
  · rw [configure_refused (check_eq_badFrequency hd hzero hother), raise_fault]
  · exact (configurationIsFixed s t hc h).master

/-! ### The outputs on a wire -/

/-- The master holds a wire high unless its pin of that line is attached to the wire, its direction is out and its latch
is 0 (41_line_and_edge.md R127; entries 14, 15). -/
theorem master_drives_iff (w : List (Pin × Line)) (m : Master) (l : Line) :
    m.drives w l = true ↔
      ∀ c, m.cfg = some c → wireOf w (c.pinOf l) = some l → m.dir l = .out → m.latch l = true := by
  cases hcfg : m.cfg with
  | none => simp [Master.drives, hcfg]
  | some c => cases hdir : m.dir l <;> simp [Master.drives, hcfg, Master.mout, hdir, ← imp_iff_not_or]

/-- An engine holds SDA high unless it is a slave whose SDA pin is attached to it and whose output is 0
(41_line_and_edge.md R130; entry 15). -/
theorem engine_drives_sda_iff (w : List (Pin × Line)) (e : Engine) :
    e.drives w .sda = true ↔ ∀ v, e = .slave v → wireOf w v.sdaPin = some .sda → v.sdaDrv = true := by
  cases e <;> simp [Engine.drives, ← imp_iff_not_or]

/-- Settles O31: the wire is the conjunction of the three kinds of output, each read off its own lemma. -/
theorem wireIsTheAndOfOutputs : Obligations.WireIsTheAndOfOutputs := by
  refine fun s => ⟨?_, ?_⟩
  · simp only [State.wire, Bool.and_eq_true, List.all_eq_true, master_drives_iff, engine_drives_sda_iff, and_assoc]
    refine and_congr_right fun _ => and_congr_right fun _ => ?_
    exact ⟨fun h v hv => h _ hv v rfl, fun h e he v hv => h v (hv ▸ he)⟩
  · simp only [State.wire, Bool.and_eq_true, List.all_eq_true, master_drives_iff, drives_scl, implies_true, and_true]
    rfl

/-! ### Notifications -/

/-- What the notifications of a wire are: its new level, for the pins of registered engines that are attached to it
(41_line_and_edge.md R131; entry 25). -/
theorem mem_notices {s : State} {l : Line} {x : Pending} :
    x ∈ s.notices l ↔ ∃ e ∈ s.registry, x.pin ∈ [e.sdaPin, e.sclPin] ∧ wireOf s.wiring x.pin = some l ∧
      x.level = s.wire l ∧ x.stamp = s.instant := by
  simp only [State.notices, Engine.pinsOn, List.mem_flatMap, List.mem_map, List.mem_filter, decide_eq_true_eq]
  constructor
  · rintro ⟨e, he, p, ⟨hp, hw⟩, rfl⟩
    exact ⟨e, he, hp, hw, rfl, rfl⟩
  · rintro ⟨e, he, hp, hw, hl, hs⟩
    exact ⟨e, he, x.pin, ⟨hp, hw⟩, by rw [← hl, ← hs]⟩

/-- The pins that a change of a wire notifies are, in order, the engines' pins on that wire. -/
theorem notices_pins (s : State) (l : Line) :
    (s.notices l).map Pending.pin =
      (s.registry.flatMap fun e => [e.sdaPin, e.sclPin]).filter fun p => decide (wireOf s.wiring p = some l) := by
  simp only [State.notices, List.map_flatMap, List.map_map, List.filter_flatMap, Engine.pinsOn]
  congr
  funext e
  exact List.map_id _

/-- The notifications of the change between two states (41_line_and_edge.md R131). -/
def changeNotices (old new : State) : List Pending :=
  (if old.wire .sda = new.wire .sda then [] else new.notices .sda) ++
    (if old.wire .scl = new.wire .scl then [] else new.notices .scl)

theorem mem_changeNotices {old new : State} {x : Pending} :
    x ∈ changeNotices old new ↔ ∃ l, old.wire l ≠ new.wire l ∧ x ∈ new.notices l := by
  simp only [changeNotices, List.mem_append, List.mem_ite_nil_left]
  constructor
  · rintro (h | h)
    · exact ⟨.sda, h⟩
    · exact ⟨.scl, h⟩
  · rintro ⟨l, h⟩
    cases l
    · exact .inl h
    · exact .inr h

/-- Propagation queues the notifications of the change after those pending. -/
theorem propagate_changeNotices (old new : State) :
    (propagate old new).events = new.events ++ changeNotices old new := propagate_events old new

/-- The next change after a change has the next number (60_exceptions.md R296; entry 6). -/
theorem propagate_instant {old new : State} (h : ¬ (old.wire .sda = new.wire .sda ∧ old.wire .scl = new.wire .scl)) :
    (propagate old new).instant = new.instant + 1 := by
  simp only [propagate, h, if_false]

/-- No pin is notified twice of one change: a pin is on one wire, and distinct pins stay distinct on each. -/
theorem changeNotices_pins_nodup (old : State) {new : State}
    (h : (new.registry.flatMap fun e => [e.sdaPin, e.sclPin]).Nodup) :
    ((changeNotices old new).map Pending.pin).Nodup := by
  have hline (l : Line) : ((new.notices l).map Pending.pin).Nodup := by
    rw [notices_pins]
    exact h.filter _
  have hdisj : ((new.notices .sda).map Pending.pin).Disjoint ((new.notices .scl).map Pending.pin) := by
    simp only [notices_pins]
    intro p hsda hscl
    have h1 := (List.mem_filter.1 hsda).2
    have h2 := (List.mem_filter.1 hscl).2
    simp only [decide_eq_true_eq] at h1 h2
    rw [h1] at h2
    cases h2
  simp only [changeNotices, List.map_append]
  split <;> split
  · exact List.nodup_nil
  · exact hline .scl
  · simpa using hline .sda
  · exact (hline .sda).append (hline .scl) hdisj

/-! ### Simultaneous changes -/

/-- A scheduling choice that is given is the one made, where it names one of the alternatives (45_dispatch.md R267;
entry 5). -/
theorem choose_given {s : State} {c n : Nat} {r : List Nat} (hs : s.env.choices = c :: r) (hc : c < n) :
    (s.choose n).1 = c := by
  simp only [State.choose, hs]
  split
  · omega
  · exact Nat.mod_eq_of_lt hc

/-- The event in the place that the scheduling choice names is taken. -/
theorem takeEvent_given {s : State} {e : Pending} {c : Nat} {r : List Nat} (hs : s.env.choices = c :: r)
    (he : (s.events.filter s.eligible)[c]? = some e) : ∃ s', s.takeEvent = some (e, s') := by
  obtain ⟨hc, -⟩ := List.getElem?_eq_some_iff.1 he
  simp only [State.takeEvent, choose_given hs hc, he]
  exact ⟨_, rfl⟩

/-- Of pending events of one number none is earlier than another, so each whose engine moves may be taken next
(41_line_and_edge.md R137; entry 6). -/
theorem takeEvent_simultaneous {t : State} {n : Nat} (hn : ∀ x ∈ t.events, x.stamp = n) {e : Pending}
    (he : e ∈ t.events) (hm : t.ownerStuck e.pin = false) :
    ∃ c s', State.takeEvent { t with env := { t.env with choices := [c] } } = some (e, s') := by
  have hel : t.eligible e = true := (eligible_iff t e).2 ⟨hm, fun e' he' _ => by rw [hn e he, hn e' he']⟩
  obtain ⟨c, hc⟩ := List.mem_iff_getElem?.1 (List.mem_filter.2 ⟨he, hel⟩)
  exact ⟨c, takeEvent_given (r := []) rfl hc⟩

/-- Every notification of a change carries its number (entry 6). -/
theorem changeNotices_stamp {old new : State} : ∀ x ∈ changeNotices old new, x.stamp = new.instant := by
  intro x hx
  obtain ⟨l, -, hl⟩ := mem_changeNotices.1 hx
  exact notices_stamp x hl

/-- Propagation looks at the wires alone of the state before the change. -/
theorem propagate_congr {s t : State} (h : ∀ l, s.wire l = t.wire l) (u : State) : propagate s u = propagate t u := by
  simp only [propagate, h]

/-- Settles O32: the notifications of a change are those of the wires that differ, and those of an external drive are of
one change. -/
theorem wireChangesAreNotified : Obligations.WireChangesAreNotified := by
  refine ⟨fun old new => ⟨fun hsda hscl => propagate_quiet hsda.symm hscl.symm, propagate_instant,
    changeNotices old new, propagate_changeNotices old new, changeNotices_stamp, fun l hl e he p hp hw => ?_,
    fun x hx => ?_, changeNotices_pins_nodup old⟩, fun s t x y r hlive hnil hin ht => ?_⟩
  · have hn : ⟨new.instant, p, new.wire l⟩ ∈ new.notices l := mem_notices.2 ⟨e, he, hp, hw, rfl, rfl⟩
    exact ⟨_, mem_changeNotices.2 ⟨l, hl, hn⟩, rfl, rfl⟩
  · obtain ⟨l, hl, hn⟩ := mem_changeNotices.1 hx
    obtain ⟨e, he, hp, hw, hlevel, -⟩ := mem_notices.1 hn
    exact ⟨l, hl, hlevel, hw, e, he, hp⟩
  · have hstep : step s = .next t := by
      rw [step_takes_input hlive hnil hin (fun c h => by cases h), ht]
      exact congrArg _ (propagate_congr (fun l => wire_congr rfl rfl rfl rfl l) _)
    refine ⟨hstep, by simp [ht], by simp [ht], by simp [ht], by simp [ht], fun e he hm => ?_⟩
    have hstamp : ∀ n ∈ t.events, n.stamp = s.instant := by
      rw [ht, propagate_changeNotices, hnil, List.nil_append]
      exact changeNotices_stamp
    exact takeEvent_simultaneous hstamp he hm

end Sys2Proof.Machine
end

section
/-! SUPPORT. The commands on the master's lines and the settle flags (41_line_and_edge.md R120 to R124), and the proofs
of the statements on them. -/

namespace Sys2Proof.Machine

/-! ### Reading a line -/

/-- A sample reads the wire where the settle flag of its line is 0 (41_line_and_edge.md R120). -/
theorem sampleLine_settled {l : Line} {s : State} (h : s.m.settleFlag l = false) :
    sampleLine l s = setResult (zext1 (s.wire l)) s := by
  simp [sampleLine, h]

/-- A sample draws a free bit where the settle flag of its line is 1 (41_line_and_edge.md R120; entry 21). -/
theorem sampleLine_unsettled {l : Line} {s : State} (h : s.m.settleFlag l = true) :
    sampleLine l s = setResult (zext1 (Config.freeBit s.env.draws))
      { s with env := { s.env with draws := s.env.draws + 1 } } := by
  simp [sampleLine, h]

/-- Settles O33: the sample is the wire or a free bit, as the settle flag says. -/
theorem lineRead : Obligations.LineRead := by
  refine ⟨hasWord_of_encode rfl rfl rfl, hasWord_of_encode rfl rfl rfl, mustBeZero_of_mem (by decide),
    fun l s hlive _ => ⟨fun hflag => ?_, fun hflag => ⟨Config.freeBit s.env.draws, s.env.draws + 1, ?_⟩⟩⟩
  · rw [exec, execLRead, runCommand_live hlive, sampleLine_settled hflag]
    exact congrArg _ (finish_upd hlive _ none)
  · rw [exec, execLRead, runCommand_live hlive, sampleLine_unsettled hflag]
    exact congrArg _ (finish_upd (s := { s with env := { s.env with draws := s.env.draws + 1 } }) hlive _ none)

/-! ### Writing a latch or a direction -/

/-- A line action that changes the master's outputs, on a calm state: the drive comes after what the external agents
do before it (00_scope.md R13). -/
theorem act_calm_eq (f : Master → Master) {s : State} (h : s.calm = true) :
    act f s = settle (propagate (agents s) { agents s with m := { f s.m with actions := s.m.actions + 1 } }) := by
  rw [act, drive_live f (calm_live (agents_calm h)), agents_m]

/-- The end of a command on a live state. -/
theorem finish_of_live {s : State} (h : s.live = true) (l : Option Line) :
    s.finish l = { s with m := s.m.settleAfter l } := upd_of_live h _

/-- A wire looks at the master's configuration and outputs alone of its registers. -/
theorem wire_withMaster {s : State} {m : Master} (hc : m.cfg = s.m.cfg) (h : ∀ l, m.mout l = s.m.mout l) (l : Line) :
    State.wire { s with m := m } l = s.wire l := by
  simp only [State.wire, Master.drives, hc, h]

/-- A write of the value that the latch holds, and one of a line whose direction is in, leave the master's outputs alone
(41_line_and_edge.md R121, R127). -/
theorem mout_setLatch {l : Line} {v : Level} {m : Master} (h : m.latch l = v ∨ m.dir l = .inp) (n : Nat) (k : Line) :
    Master.mout { m.setLatch l v with actions := n } k = m.mout k := by
  rcases h with rfl | h
  · cases l <;> rfl
  · cases l <;> cases k <;> simp_all [Master.mout, Master.dir, Master.setLatch, Master.latch]

/-- Settles O34: the write is a line action, which is over at once where it leaves the master's outputs alone. -/
theorem lineWrite : Obligations.LineWrite := by
  refine ⟨hasWord_of_encode rfl rfl rfl, hasWord_of_encode rfl rfl rfl, hasWord_of_encode rfl rfl rfl,
    hasWord_of_encode rfl rfl rfl, mustBeZero_of_mem (by decide), ?_⟩
  intro l v s x m hcalm _ hx hm
  obtain ⟨hexec, hruns⟩ := runs_of_kept (i := .lWrite l v) (fun _ => rfl) (fun P k => k.lineW l v s) hcalm
    ((At.of hcalm).lineW l v)
  have hline : exec (.lWrite l v) s = .next ((settle (propagate x { x with m := m })).finish none) := by
    rw [hexec, lineW, act_calm_eq _ hcalm, hx, hm]
  rw [← hm] at hruns
  refine ⟨fun hidle => hx.trans (agents_idle hidle), hruns, hline, fun hsame => ?_⟩
  obtain ⟨hreact, hnil⟩ := (calm_iff x).1 (hx ▸ agents_calm hcalm)
  have hquiet (k : Line) : State.wire { x with m := m } k = x.wire k := by
    refine wire_withMaster ?_ ?_ k
    · rw [hx, hm, agents_m]
      cases l <;> rfl
    · rw [hx, hm, agents_m]
      exact mout_setLatch hsame _
  rw [hline, propagate_quiet (hquiet .sda) (hquiet .scl), settle_nil (s := { x with m := m }) hnil]
  exact congrArg _ (finish_of_live (s := { x with m := m }) (reactive_live hreact) none)

/-- Settles O35: the change of direction is a line action, and the end of the command sets the flag of its line. -/
theorem lineSetDirection : Obligations.LineSetDirection := by
  refine ⟨hasWord_of_encode rfl rfl rfl, hasWord_of_encode rfl rfl rfl, hasWord_of_encode rfl rfl rfl,
    hasWord_of_encode rfl rfl rfl, mustBeZero_of_mem (by decide), ?_⟩
  intro l d s x m hcalm _ hx hm
  obtain ⟨hexec, hruns⟩ := runs_of_kept (i := .lSetdir l d) (fun _ => rfl) (fun P k => k.lineSetDir l d s) hcalm
    ((At.of hcalm).lineSetDir l d)
  rw [← hm] at hruns
  simp only [Option.some.injEq] at hruns
  refine ⟨fun hidle => hx.trans (agents_idle hidle), hruns, ?_⟩
  rw [hexec, lineSetDir, act_calm_eq _ hcalm, hx, hm]

/-! ### Delays -/

/-- A command is refused in interrupt context where it does nothing but run a body (60_exceptions.md R286). -/
theorem refusedInHandler_of_runCommand {i : Instr} {l : Option Line} {body : State → State}
    (h : ∀ s, exec i s = runCommand i l body s) : RefusedInHandler i := by
  intro s hfault hsettled hctx
  rw [h, runCommand_interrupt hfault hsettled hctx]

/-- A count stands in the operand byte of a word, behind the operation (30_encoding.md R81, R83). -/
theorem append_ofNat (op : Byte) {n : Nat} (h : n < 256) :
    (op ++ BitVec.ofNat 8 n : PortWord) = (op ++ (0 : Byte)) ||| BitVec.ofNat 16 n := by
  have happend (v : Byte) : (op ++ v : PortWord).toNat = op.toNat <<< 8 ||| v.toNat := BitVec.toNat_append op v
  have hn : n < 65536 := by omega
  refine BitVec.eq_of_toNat_eq ?_
  rw [BitVec.toNat_or, happend, happend]
  simp [Nat.mod_eq_of_lt h, Nat.mod_eq_of_lt hn]

/-- At a delay the external agents do what they do next, each action a step of its own (41_line_and_edge.md R123). -/
theorem lineD_driven (n : Nat) {s : State} (h : s.live = true) {as : List ExtAct} {r : List (List ExtAct)}
    (hy : s.env.yields = as :: r) :
    lineD n s = runExternal as
      { s with
        m := { s.m with actions := s.m.actions + 1, delays := s.m.delays + n }
        env := { s.env with yields := r } } := by
  have hupd := upd_of_live h fun m => { m with actions := m.actions + 1, delays := m.delays + n }
  have hlive := (upd_live s fun m => { m with actions := m.actions + 1, delays := m.delays + n }).trans h
  rw [lineD, agents, if_pos hlive, hupd]
  simp only [hy, List.headD_cons, List.tail_cons]

/-- The one action of an external agent in a live block. -/
theorem runExternal_singleton (a : ExtAct) {s : State} (h : s.live = true) :
    runExternal [a] s = settle (external a s) := if_pos h

/-- Settles O36: a delay changes the two counts, lets the external agents do what they do next, and ends. -/
theorem lineDelay : Obligations.LineDelay := by
  refine ⟨fun n hn => hasWord_of_encode (decide_eq_true hn) rfl (append_ofNat 0x13 hn),
    fun n => refusedInHandler_of_runCommand fun _ => rfl, ?_⟩
  intro n s c m _ hc hm
  refine ⟨fun hlive hidle => ?_, fun hcalm => ?_, fun x y r hlive hdriven => ?_⟩
  · rw [exec, execLDelay, runCommand_live hlive, lineD_idle n hlive hidle, ← hc, hm]
    exact congrArg _ (finish_of_live (s := { s with m := c }) hlive none)
  · have hruns := (runs_of_kept (i := .lDelay n) (fun _ => rfl) (fun P k => k.lineD n s) hcalm
      ((At.of hcalm).lineD n)).2
    rw [← hc] at hruns
    rwa [hm]
  · have hwire (l : Line) : State.wire { s with m := c, env := { s.env with yields := r } } l = s.wire l := by
      rw [hc]
      cases l <;> rfl
    rw [exec, execLDelay, runCommand_live hlive, lineD_driven n hlive hdriven, ← hc,
      runExternal_singleton (s := { s with m := c, env := { s.env with yields := r } }) _ hlive, external,
      propagate_congr hwire]

/-! ### The settle flags -/

/-- The line whose settle flag an instruction sets: that of an L.SETDIR (41_line_and_edge.md R124). -/
def settledLine : Instr → Option Line
  | .lSetdir l _ => some l
  | _ => none

theorem settledLine_eq_some {i : Instr} {l : Line} : settledLine i = some l ↔ ∃ d, i = .lSetdir l d := by
  cases i <;> simp [settledLine]

/-- Every command is a body and an end that sets the settle flag of an L.SETDIR's line and clears the others
(41_line_and_edge.md R124). -/
theorem exec_settledLine {i : Instr} {s t : State} (hc : i.isCommand = true) (h : exec i s = .next t) :
    ∃ body, runCommand i (settledLine i) body s = .next t := by
  cases i with
  | mReadBytes a =>
    simp only [exec, execMReadBytes] at h
    split at h
    · cases h
    · exact ⟨_, h⟩
  | evLine | slvSdaFall | slvSdaRise | slvSclRise | slvSclFall | snfSdaFall | snfSdaRise | snfSclRise | snfSclFall =>
    simp [Instr.isCommand, Instr.opcode] at hc
  | fShift | fRead | mReadBit | mWriteByte | mReadByte | mStartComm | mSetlen | mWriteBytes | qSnap | qStatus =>
    simp only [exec, execFShift, execFRead, execMReadBit, execMWriteByte, execMReadByte, execMStartComm, execMSetlen,
      execMWriteBytes, execQSnap, execQStatus] at h
    exact ⟨_, h⟩
  | fReset | fLoad | lRead | lWrite | lSetdir | lDelay | mStart | mStop | mWriteBit => exact ⟨_, h⟩

theorem settleFlag_settleAfter (o : Option Line) (m : Master) (l : Line) :
    (m.settleAfter o).settleFlag l = decide (o = some l) := by
  cases l <;> rfl

/-- Settles O37: a command that raises no fault ends with `settleAfter`, of its line where it is an L.SETDIR. -/
theorem settleFlagAfterCommand : Obligations.SettleFlagAfterCommand := by
  intro i s t hc _ h hlive l
  obtain ⟨body, hrun⟩ := exec_settledLine hc h
  obtain ⟨-, -, ⟨-, rfl⟩ | ⟨-, rfl⟩⟩ := runCommand_next hrun
  · exact absurd ((live_iff _).1 hlive).1 (by simp)
  · rw [finish_live] at hlive
    rw [finish_m _ hlive, settleFlag_settleAfter, decide_eq_true_eq, settledLine_eq_some]

end Sys2Proof.Machine
end

section
/-! SUPPORT. The master's commands that run one sequence of line actions (42_master.md R152 to R159), the bound on a
retried step (R163), and the proofs of the statements on them. -/

namespace Sys2Proof.Machine

/-! ### Start, stop and single bits -/

/-- A command other than L.SETDIR whose body is a sequence of line actions, on a calm state: both settle flags end 0
(41_line_and_edge.md R124). -/
theorem runs_sequence {i : Instr} {body : State → State} {s : State} {m : Master}
    (hx : ∀ s, exec i s = runCommand i none body s) (hk : ∀ P : State → Prop, Kept P → P s → P (body s))
    (hs : s.calm = true) (ha : At (body s) m) :
    exec i s = .next ((body s).finish none) ∧
      ∃ t, Runs i s t ∧ t.m = { m with settleSda := false, settleScl := false } :=
  runs_of_kept hx hk hs ha

/-- Settles O41: each command is its sequence of line actions, whose effect on the master's registers `At` says. -/
theorem startStopAndWriteBit : Obligations.StartStopAndWriteBit := by
  refine ⟨hasWord_of_encode rfl rfl rfl, hasWord_of_encode rfl rfl rfl, hasWord_of_encode rfl rfl rfl,
    hasWord_of_encode rfl rfl rfl, mustBeZero_of_mem (by decide), mustBeZero_of_mem (by decide),
    mustBeZero_of_mem (by decide), refusedInHandler_of_runCommand fun _ => rfl,
    refusedInHandler_of_runCommand fun _ => rfl, fun _ => refusedInHandler_of_runCommand fun _ => rfl, ?_⟩
  rintro s m hcalm - rfl
  have hat := At.of hcalm
  have hstart := runs_sequence (i := .mStart) (fun _ => rfl) (fun P k => k.startCondition) hcalm hat.startCondition
  have hstop := runs_sequence (i := .mStop) (fun _ => rfl) (fun P k => k.stopCondition) hcalm hat.stopCondition
  have hbit (b : Bool) :=
    runs_sequence (i := .mWriteBit b) (fun _ => rfl) (fun P k => k.writeBit b) hcalm (hat.writeBit b)
  exact ⟨hstart.1, hstart.2, hstop.1, hstop.2, fun b => (hbit b).1, fun b => (hbit b).2⟩

/-- Settles O42: `read_bit` samples SDA between the two halves of its clock pulse. -/
theorem readBitSamplesHighPhase : Obligations.ReadBitSamplesHighPhase := by
  refine ⟨hasWord_of_encode rfl rfl rfl, mustBeZero_of_mem (by decide),
    refusedInHandler_of_runCommand fun _ => rfl, ?_⟩
  rintro s high hcalm - rfl
  exact runs_sequence (i := .mReadBit) (fun _ => rfl) (fun P k hs => k.result _ _ (k.readBit hs)) hcalm
    ((At.of hcalm).readBit.setResult _)

/-! ### Bytes -/

/-- The bits are written in their order in the list. -/
theorem writeBits_eq_foldl (bs : List Bool) (s : State) : writeBits bs s = bs.foldl (fun t b => writeBit b t) s := by
  induction bs generalizing s with
  | nil => rfl
  | cons b bs ih => exact ih (writeBit b s)

/-- `write_byte` writes the bits from the most significant down (42_master.md R156). -/
theorem writeBits_bitsMsbFirst (v : Byte) (s : State) :
    writeBits (bitsMsbFirst v) s = [7, 6, 5, 4, 3, 2, 1, 0].foldl (fun t k => writeBit (v.getLsbD k) t) s := by
  rw [writeBits_eq_foldl]
  exact List.foldl_map (f := v.getLsbD) (l := [7, 6, 5, 4, 3, 2, 1, 0])

/-- `start_communication` writes the address from its most significant bit down (42_master.md R158). -/
theorem writeBits_addrBits (a : Addr) (s : State) :
    writeBits (addrBits a) s = [6, 5, 4, 3, 2, 1, 0].foldl (fun t k => writeBit (a.getLsbD k) t) s := by
  rw [writeBits_eq_foldl]
  exact List.foldl_map (f := a.getLsbD) (l := [6, 5, 4, 3, 2, 1, 0])

/-- The read of an acknowledge: SDA released, and sampled in the high phase of one clock pulse (42_master.md R155,
R156). -/
theorem readAck_eq {s high : State} {ack : Bool} (hhigh : high = lineD 1 (lineW .scl true (lineW .sda true s)))
    (hack : ack = !high.wire .sda) : readAck s = (setLastAck ack (lineD 1 (lineW .scl false high)), ack) := by
  rw [hack, hhigh]
  rfl

/-- Settles O43: eight bits in wire order, then a read of the acknowledge. -/
theorem writeByteReturnsAcknowledge : Obligations.WriteByteReturnsAcknowledge := by
  refine ⟨fun v => hasWord_of_encode rfl rfl rfl, fun v => refusedInHandler_of_runCommand fun _ => rfl, ?_⟩
  intro v s sent high ack hcalm _ hsent hhigh hack
  have hruns := runs_sequence (i := .mWriteByte v) (fun _ => rfl) (fun P k hs => k.result _ _ (k.writeByte v hs)) hcalm
    (((At.of hcalm).writeByte v).setResult _)
  have hwrite : writeByte v s = (setLastAck ack (lineD 1 (lineW .scl false high)), ack) := by
    rw [writeByte, writeBits_bitsMsbFirst, ← hsent, readAck_eq hhigh hack]
  rw [hwrite] at hruns ⊢
  exact ⟨rfl, hruns⟩

/-- `read_byte` leaves its eight samples in the Fifo8, the first as the most significant bit (42_master.md R157). -/
theorem At.readByte_samples {s : State} {m : Master} (h : At s m) (z : Bool) :
    At (Machine.readByte z s)
      { m with fifo := (readSamples s).foldl Fifo.shiftIn 0, sdaDir := .out, sdaLatch := z, sclLatch := z,
               phase := if z then .stopped else m.phase, actions := m.actions + 39, delays := m.delays + 18 } :=
  h.readByte z rfl

/-- Settles O44: `read_byte` shifts the eight samples into the Fifo8, and its two ends are the stop condition and an
acknowledge bit. -/
theorem readByteAssemblesSamples : Obligations.ReadByteAssemblesSamples := by
  refine ⟨hasWord_of_encode rfl rfl rfl, hasWord_of_encode rfl rfl rfl, mustBeZero_of_mem (by decide),
    fun z => refusedInHandler_of_runCommand fun _ => rfl, ?_⟩
  intro z s clocked v hcalm _ hclocked hv
  have hat := (At.of hcalm).readByte_samples z
  rw [← hv] at hat
  have hfifo : (readByte z s).m.fifo = v := by rw [hat.master]
  have hruns := runs_sequence (i := .mReadByte z) (fun _ => rfl) (fun P k hs => k.result _ _ (k.readByte z hs)) hcalm
    (hat.setResult (readByte z s).m.fifo)
  rw [hfifo] at hruns
  have hbyte : readByte z s = if z then stopCondition clocked else writeBit false clocked := by
    rw [hclocked]
    rfl
  exact ⟨hbyte, hruns⟩

/-! ### Addressing -/

/-- The word of an M.START_COMM: the address byte behind the operation (30_encoding.md R83, R84). -/
theorem encode_mStartComm (a : Addr) (r : Bool) :
    encode (.mStartComm a r) = (0x2600 ||| (BitVec.ofBool r).setWidth 16) ||| a.setWidth 16 <<< 1 := by
  have hbyte : BitVec.ofNat 16 (a.concat r : Byte).toNat = (BitVec.ofBool r).setWidth 16 ||| a.setWidth 16 <<< 1 := by
    rw [BitVec.ofNat_toNat]
    refine BitVec.eq_of_getLsbD_eq fun k hk => ?_
    cases k with
    | zero => simp
    | succ k => simp [hk]
  have hword := append_ofNat 0x26 (a.concat r : Byte).isLt
  rw [hbyte, BitVec.ofNat_toNat, BitVec.setWidth_eq, ← BitVec.or_assoc] at hword
  exact hword

/-- Settles O45: the start condition, seven address bits and the direction bit, then a read of the acknowledge. -/
theorem startCommunication_spec : Obligations.StartCommunication := by
  refine ⟨fun a => ⟨hasWord_of_encode rfl rfl (encode_mStartComm a false),
    hasWord_of_encode rfl rfl (encode_mStartComm a true)⟩,
    fun a r => refusedInHandler_of_runCommand fun _ => rfl, ?_⟩
  intro a r s sent high ack hcalm _ hsent hhigh hack
  have hcomm : startCommunication a r s = (setPhase (if r then .receiving else .transmitting)
      (setLastAck ack (lineD 1 (lineW .scl false high))), ack) := by
    rw [startCommunication, writeBits_addrBits, ← hsent, readAck_eq hhigh hack]
    rfl
  have hruns := runs_sequence (i := .mStartComm a r) (fun _ => rfl)
    (fun P k hs => k.result _ _ (k.startCommunication a r hs)) hcalm
    (((At.of hcalm).startCommunication a r).setResult _)
  rw [hcomm] at hruns ⊢
  exact ⟨rfl, hruns⟩

/-! ### The payload length -/

/-- Settles O46: the command is a fault or one register, as the buffer's size says. -/
theorem setPayloadLength : Obligations.SetPayloadLength := by
  refine ⟨fun n hn => hasWord_of_encode (decide_eq_true hn) rfl (append_ofNat 0x27 hn),
    fun n => refusedInHandler_of_runCommand fun _ => rfl, ?_⟩
  intro n s hn hlive _
  refine ⟨fun hshort => ?_, fun hfits => ⟨BitVec.ofNat 8 n, Nat.mod_eq_of_lt hn, ?_⟩⟩
  · rw [exec, execMSetlen, runCommand_live hlive, if_pos hshort, finish_raise]
  · rw [exec, execMSetlen, runCommand_live hlive, if_neg (Nat.not_lt.2 hfits)]
    exact congrArg _ (finish_upd hlive _ none)

/-! ### Retried steps -/

theorem attempts_of_acked {f : State → State × Bool} {s : State} (h : (f s).2 = true) (n : Nat) :
    attempts f (n + 1) s = f s := if_pos h

theorem attempts_of_failed {f : State → State × Bool} {s : State} (h : (f s).2 = false) (n : Nat) :
    attempts f (n + 1) s = attempts f n (f s).1 := if_neg (by simp [h])

/-- A step with at most `n + 1` attempts has `k` of them: all before the last failed, the outcome is the last one's, and
where `k` is not the most there may be, it succeeded (42_master.md R163). -/
theorem attempts_count (f : State → State × Bool) (n : Nat) (s : State) :
    ∃ k, 1 ≤ k ∧ k ≤ n + 1 ∧ (attempts f (n + 1) s).1 = (fun x => (f x).1)^[k] s ∧
      (attempts f (n + 1) s).2 = (f ((fun x => (f x).1)^[k - 1] s)).2 ∧
      (∀ j, j + 1 < k → (f ((fun x => (f x).1)^[j] s)).2 = false) ∧
      (k < n + 1 → (attempts f (n + 1) s).2 = true) := by
  induction n generalizing s with
  | zero =>
    have hone : attempts f 1 s = f s := by
      cases hr : (f s).2 with
      | true => exact attempts_of_acked hr 0
      | false => exact (attempts_of_failed hr 0).trans (Prod.ext rfl hr.symm)
    rw [hone]
    exact ⟨1, le_refl 1, le_refl 1, rfl, rfl, fun j hj => by omega, fun hk => by omega⟩
  | succ n ih =>
    cases hr : (f s).2 with
    | true =>
      rw [attempts_of_acked hr]
      exact ⟨1, le_refl 1, by omega, rfl, rfl, fun j hj => by omega, fun _ => hr⟩
    | false =>
      obtain ⟨k, hpos, hmost, hstate, hlast, hbefore, hfew⟩ := ih (f s).1
      rw [attempts_of_failed hr]
      refine ⟨k + 1, by omega, by omega, hstate, ?_, fun j hj => ?_, fun hk => hfew (by omega)⟩
      · obtain ⟨m, rfl⟩ : ∃ m, k = m + 1 := Nat.exists_eq_add_one.2 hpos
        exact hlast
      · cases j with
        | zero => exact hr
        | succ j => exact hbefore j (by omega)

/-- Settles O48: the attempts counted, for the three that MAX_ATTEMPTS allows. -/
theorem attemptsAreBounded : Obligations.AttemptsAreBounded := by
  intro f s
  obtain ⟨k, hpos, hmost, hstate, hlast, hbefore, hfew⟩ := attempts_count f 2 s
  refine ⟨k, hpos, hmost, hstate, hlast, hbefore, hfew, fun hfail j hj => ?_, fun hall => ?_⟩
  · have hk : k = 3 := by
      by_contra hne
      have hacked := hfew (by omega)
      rw [hfail] at hacked
      cases hacked
    subst hk
    rcases Nat.lt_succ_iff_lt_or_eq.1 hj with hj | rfl
    · exact hbefore j (by omega)
    · exact hlast.symm.trans hfail
  · exact hlast.trans (hall (k - 1) (by omega))

end Sys2Proof.Machine
end

section
/-! SUPPORT. The payload commands (42_master.md R160 to R164): what M.WRITE_BYTES takes from the buffer, the states
between the bytes that M.READ_BYTES reads, and the proofs of the statements on both. -/

namespace Sys2Proof.Machine

/-! ### The bytes that M.WRITE_BYTES takes from the buffer -/

/-- The first byte that holds no value is the one that is reported (20_memory.md R66). -/
theorem payloadFrom_unwritten {s : State} {n j : Nat} (i : Nat) (hj : j < n) (hnone : s.memRead (i + j) = none)
    (hfirst : ∀ k, k < j → s.memRead (i + k) ≠ none) : payloadFrom s i n = .error (i + j) := by
  induction n generalizing i j with
  | zero => exact absurd hj (Nat.not_lt_zero j)
  | succ n ih =>
    cases j with
    | zero =>
      have hread : s.memRead i = none := hnone
      simp only [payloadFrom, hread, Nat.add_zero]
    | succ j =>
      obtain ⟨b, hb⟩ := Option.ne_none_iff_exists'.1 (hfirst 0 (Nat.succ_pos j))
      have hread : s.memRead i = some b := hb
      have hshift (k : Nat) : i + 1 + k = i + (k + 1) := by omega
      have hrest := ih (i + 1) (Nat.lt_of_succ_lt_succ hj) (by rw [hshift]; exact hnone)
        fun k hk => by rw [hshift]; exact hfirst (k + 1) (Nat.succ_lt_succ hk)
      simp only [payloadFrom, hread, hrest, hshift]

/-- Where every byte holds a value, the bytes are those of the buffer in rising index. -/
theorem payloadFrom_written {s : State} {n : Nat} (i : Nat) (h : ∀ k, k < n → s.memRead (i + k) ≠ none) :
    ∃ bs, payloadFrom s i n = .ok bs ∧ bs.length = n ∧ ∀ k, k < n → bs[k]? = s.memRead (i + k) := by
  induction n generalizing i with
  | zero => exact ⟨[], rfl, rfl, fun k hk => absurd hk (Nat.not_lt_zero k)⟩
  | succ n ih =>
    have hshift (k : Nat) : i + 1 + k = i + (k + 1) := by omega
    obtain ⟨b, hb⟩ := Option.ne_none_iff_exists'.1 (h 0 (Nat.succ_pos n))
    have hread : s.memRead i = some b := hb
    obtain ⟨bs, hok, hlen, hbytes⟩ := ih (i + 1) fun k hk => by rw [hshift]; exact h (k + 1) (Nat.succ_lt_succ hk)
    refine ⟨b :: bs, by simp only [payloadFrom, hread, hok], by rw [List.length_cons, hlen], fun k hk => ?_⟩
    cases k with
    | zero => exact hread.symm
    | succ k => rw [List.getElem?_cons_succ, hbytes k (Nat.lt_of_succ_lt_succ hk), hshift]

/-- The body of M.WRITE_BYTES: the fault, or the write of the buffer's first bytes (42_master.md R160). -/
def writeBuffer (a : Addr) (s : State) : State :=
  match payloadFrom s 0 s.m.len.toNat with
  | .error i => s.raise .unwrittenBuffer i
  | .ok data => writeBytes a data s

theorem exec_mWriteBytes (a : Addr) (s : State) :
    exec (.mWriteBytes a) s = runCommand (.mWriteBytes a) none (writeBuffer a) s := rfl

/-- A buffer with an unwritten byte raises F8 with the first (20_memory.md R66). -/
theorem writeBuffer_unwritten (a : Addr) {s : State} {i : Nat} (hi : i < s.m.len.toNat) (hnone : s.memRead i = none)
    (hfirst : ∀ j, j < i → s.memRead j ≠ none) : writeBuffer a s = s.raise .unwrittenBuffer i := by
  have hpayload := payloadFrom_unwritten (s := s) 0 hi (by rwa [Nat.zero_add])
    fun k hk => by rw [Nat.zero_add]; exact hfirst k hk
  rw [Nat.zero_add] at hpayload
  simp only [writeBuffer, hpayload]

/-- A buffer with every byte written is sent (42_master.md R160). -/
theorem writeBuffer_written (a : Addr) {s : State} (h : ∀ i, i < s.m.len.toNat → s.memRead i ≠ none) :
    ∃ data, data.length = s.m.len.toNat ∧ (∀ i, i < s.m.len.toNat → data[i]? = s.memRead i) ∧
      writeBuffer a s = writeBytes a data s := by
  obtain ⟨data, hok, hlen, hbytes⟩ := payloadFrom_written (s := s) 0 fun k hk => by rw [Nat.zero_add]; exact h k hk
  exact ⟨data, hlen, fun i hi => by rw [hbytes i hi, Nat.zero_add], by simp only [writeBuffer, hok]⟩

/-- The payload's bytes are retried in their order in the list, after a step that was acknowledged or not. -/
theorem writePayload_eq_foldl (vs : List Byte) (r : State × Bool) :
    writePayload vs r = vs.foldl (fun r v => ((attempts (writeByte v) Config.maxAttempts r.1).1,
      r.2 && (attempts (writeByte v) Config.maxAttempts r.1).2)) r := by
  induction vs generalizing r with
  | nil => rfl
  | cons v vs ih => rw [writePayload, ih, List.foldl_cons]

/-- `write_bytes` costs 52 line actions for each attempt of the address, 45 for each of a byte, and the stop condition's
five (42_master.md R160, R164). -/
theorem At.writeBytes {s : State} {m : Master} (h : At s m) (a : Addr) (data : List Byte) :
    ∃ (k : Nat) (ks : List Nat) (b : Bool), 1 ≤ k ∧ k ≤ 3 ∧ ks.length = data.length ∧ (∀ x ∈ ks, 1 ≤ x ∧ x ≤ 3) ∧
      ((Machine.writePayload data (Machine.addressPhase a false s)).2 = false → k = 3 ∨ 3 ∈ ks) ∧
      At (Machine.writeBytes a data s)
        { m with sdaLatch := true, sclLatch := true, phase := .stopped, lastAck := b,
                 status := statusOf (Machine.writePayload data (Machine.addressPhase a false s)).2,
                 actions := m.actions + 52 * k + 45 * ks.sum + 5, delays := m.delays + 21 * k + 18 * ks.sum + 2 } := by
  obtain ⟨k, hpos, hmost, hfailed, haddress⟩ := h.addressPhase a false
  rw [Machine.writeBytes]
  generalize Machine.addressPhase a false s = r at hfailed haddress ⊢
  obtain ⟨ks, hks, hbounds, hused, x, y, b, hpayload⟩ := At.writePayload data r.2 haddress
  exact ⟨k, ks, b, hpos, hmost, hks, hbounds, fun hx => (hused hx).imp_left hfailed, hpayload.stopCondition.setStatus _⟩

/-- M.WRITE_BYTES of a written buffer is a sequence of line actions (42_master.md R160). -/
theorem runs_writeBytes {a : Addr} {data : List Byte} {s : State} {m : Master} (hs : s.calm = true)
    (hbody : writeBuffer a s = writeBytes a data s) (ha : At (writeBytes a data s) m) :
    exec (.mWriteBytes a) s = .next ((writeBytes a data s).finish none) ∧
      ∃ t, Runs (.mWriteBytes a) s t ∧ t.m = { m with settleSda := false, settleScl := false } := by
  rw [← hbody] at ha ⊢
  exact runs_sequence (exec_mWriteBytes a) (fun P k hs => by rw [hbody]; exact k.writeBytes a data hs) hs ha

/-- Settles O47: the fault at the first unwritten byte, or the retried address, the retried bytes and the stop
condition. -/
theorem writePayload_spec : Obligations.WritePayload := by
  intro a s hcalm _
  refine ⟨fun i hi hnone hfirst => ?_, fun hwritten => ?_⟩
  · rw [exec_mWriteBytes, runCommand_live (calm_live hcalm), writeBuffer_unwritten a hi hnone hfirst, finish_raise]
  · obtain ⟨data, hlen, hbytes, hbody⟩ := writeBuffer_written a hwritten
    obtain ⟨k, ks, b, hpos, hmost, hks, hbounds, hused, hat⟩ := (At.of hcalm).writeBytes a data
    obtain ⟨hexec, t, hruns, hm⟩ := runs_writeBytes hcalm hbody hat
    have ht : t = (writeBytes a data s).finish none := by
      have hnext := hruns.answers
      rw [hexec] at hnext
      exact (Host.Outcome.next.inj hnext).symm
    have hstatus : t.m.status = statusOf (writePayload data (addressPhase a false s)).2 := by rw [hm]
    refine ⟨data, writePayload data (addressPhase a false s), t, k, ks, hlen, hbytes, writePayload_eq_foldl _ _, ht, hruns,
      hstatus, hpos, hmost, hks.trans hlen, hbounds, fun hfail => hused ?_, ?_⟩
    · cases hsent : (writePayload data (addressPhase a false s)).2 with
      | false => rfl
      | true => simp [hstatus, hsent, statusOf] at hfail
    · rw [hm]

end Sys2Proof.Machine
end

section
/-! SUPPORT. The states between the bytes that M.READ_BYTES reads (42_master.md R161), and the proofs of the statements
on it and on the phase after each command (R166). -/

namespace Sys2Proof.Machine

/-! ### One byte read into the buffer -/

/-- A write of the buffer leaves alone what every line action leaves alone. -/
theorem memWrite_frame (i : Nat) (v : Byte) (s : State) : ActionFrame s (s.memWrite i v) := by
  simp only [State.memWrite]
  split
  · exact ⟨rfl, rfl, rfl, rfl, rfl, rfl, rfl, rfl, ⟨rfl, rfl⟩, id⟩
  · exact ActionFrame.refl s

theorem At.memWrite {s : State} {m : Master} (h : At s m) (i : Nat) (v : Byte) :
    At (s.memWrite i v) { m with buf := (s.memWrite i v).m.buf } := by
  refine ⟨(memWrite_calm i v s).trans h.calm, ?_⟩
  rw [← h.master]
  simp only [State.memWrite]
  split <;> rfl

/-- On a calm state the byte that is written is the one of the eight samples (42_master.md R157, R161). -/
theorem readInto_samples (i : Nat) (z : Bool) {s : State} (h : s.calm = true) :
    readInto i z s = State.memWrite i ((readSamples s).foldl Fifo.shiftIn 0) (readByte z s) := by
  have hat := (At.of h).readByte_samples z
  simp only [readInto, calm_live hat.calm, if_true, hat.master]

theorem At.readInto_samples {s : State} {m : Master} (h : At s m) (i : Nat) (z : Bool) :
    At (Machine.readInto i z s)
      { m with fifo := (readSamples s).foldl Fifo.shiftIn 0, buf := (Machine.readInto i z s).m.buf, sdaDir := .out,
               sdaLatch := z, sclLatch := z, phase := if z then .stopped else m.phase, actions := m.actions + 39,
               delays := m.delays + 18 } := by
  rw [Machine.readInto_samples i z h.calm]
  exact (h.readByte_samples z).memWrite i _

/-- The byte that is read is in the buffer afterwards, and every other byte is as it was (42_master.md R161). -/
theorem readInto_memRead {i : Nat} (z : Bool) {s : State} (h : s.calm = true) (hi : i < s.params.bufSize) (j : Nat) :
    (readInto i z s).memRead j = if i = j then some ((readSamples s).foldl Fifo.shiftIn 0) else s.memRead j := by
  have hparams : (readByte z s).params = s.params := ((frame_kept s).readByte z (ActionFrame.refl s)).params
  have hbuf : (readByte z s).m.buf = s.m.buf := (buf_kept s.m.buf).readByte z rfl
  rw [readInto_samples i z h, memRead_memWrite _ _ _ _ (by rwa [hparams]), memRead_congr hparams hbuf]

/-! ### The states between the bytes -/

/-- The state after `i` of the `n` payload bytes have been read, from the state after the address. -/
def payloadStates (n : Nat) (s : State) : Nat → State
  | 0 => s
  | i + 1 => readInto i (decide (i + 1 = n)) (payloadStates n s i)

theorem readPayload_payloadStates {i k n : Nat} (h : i + k = n) (s : State) :
    readPayload i k (payloadStates n s i) = payloadStates n s n := by
  induction k generalizing i with
  | zero => rw [← h]; rfl
  | succ k ih =>
    have hlast : decide (k = 0) = decide (i + 1 = n) := decide_eq_decide.2 (by omega)
    rw [readPayload, hlast]
    exact ih (i := i + 1) (by omega)

/-- What every piece of the read of a byte keeps, the read of the payload keeps. -/
theorem payloadStates_keeps {P : State → Prop} (k : KeptReads P) (hw : ∀ i v s, P s → P (s.memWrite i v)) {s : State}
    (hs : s.calm = true) (h : P s) (n i : Nat) : (payloadStates n s i).calm = true ∧ P (payloadStates n s i) := by
  induction i with
  | zero => exact ⟨hs, h⟩
  | succ i ih =>
    rw [payloadStates, readInto_samples i _ ih.1]
    exact ⟨(memWrite_calm _ _ _).trans (calm_kept.readByte _ ih.1), hw _ _ _ (k.readByte _ ih.2)⟩

section
variable {s : State} (hs : s.calm = true) (n : Nat)
include hs

theorem payloadStates_calm (i : Nat) : (payloadStates n s i).calm = true :=
  (payloadStates_keeps calm_kept.toKeptReads (fun i v s h => (memWrite_calm i v s).trans h) hs hs n i).1

theorem payloadStates_params (i : Nat) : (payloadStates n s i).params = s.params :=
  (payloadStates_keeps (frame_kept s).toKeptReads (fun i v _ h => h.trans (memWrite_frame i v _)) hs
    (ActionFrame.refl s) n i).2.params

/-- Each byte that has been read is in the buffer, and the others are as they were (42_master.md R161). -/
theorem payloadStates_memRead (hn : n ≤ s.params.bufSize) {i : Nat} (hi : i ≤ n) (j : Nat) :
    (payloadStates n s i).memRead j =
      if j < i then some ((readSamples (payloadStates n s j)).foldl Fifo.shiftIn 0) else s.memRead j := by
  induction i with
  | zero => rfl
  | succ i ih =>
    have hbound : i < (payloadStates n s i).params.bufSize := by rw [payloadStates_params hs n i]; omega
    rw [payloadStates, readInto_memRead _ (payloadStates_calm hs n i) hbound, ih (by omega)]
    by_cases hij : i = j
    · subst hij
      simp
    · rw [if_neg hij]
      exact if_congr (by omega) rfl rfl

/-- Before its last byte, the read of the payload has changed the two lines, the Fifo8, the buffer and the counts
(42_master.md R157, R164). -/
theorem payloadStates_at {i : Nat} (hi : i < n) :
    ∃ x y d f b, At (payloadStates n s i)
      { s.m with sdaLatch := x, sclLatch := y, sdaDir := d, fifo := f, buf := b, actions := s.m.actions + 39 * i,
                 delays := s.m.delays + 18 * i } := by
  induction i with
  | zero => exact ⟨_, _, _, _, _, At.of hs⟩
  | succ i ih =>
    obtain ⟨x, y, d, f, b, hat⟩ := ih (by omega)
    have hmore : decide (i + 1 = n) = false := decide_eq_false (by omega)
    have hnext := hat.readInto_samples i false
    simp only [payloadStates, hmore]
    exact ⟨_, _, _, _, _, hnext⟩

/-- The last byte ends with a stop condition (42_master.md R157, R161). -/
theorem payloadStates_last (i : Nat) :
    ∃ b, At (payloadStates (i + 1) s (i + 1))
      { s.m with sdaLatch := true, sclLatch := true, sdaDir := .out, phase := .stopped,
                 fifo := (readSamples (payloadStates (i + 1) s i)).foldl Fifo.shiftIn 0, buf := b,
                 actions := s.m.actions + 39 * (i + 1), delays := s.m.delays + 18 * (i + 1) } := by
  obtain ⟨x, y, d, f, b, hat⟩ := payloadStates_at hs (i + 1) (Nat.lt_succ_self i)
  have hnext := hat.readInto_samples i true
  simp only [payloadStates, decide_true]
  exact ⟨_, hnext⟩

end

/-- The end of the read of the payload: its last byte, or the stop condition where there is none (42_master.md R161). -/
def payloadEnd (n : Nat) (s : State) : State := if n = 0 then stopCondition s else payloadStates n s n

/-- The bytes of the payload are in the buffer and the others are as they were (42_master.md R161). -/
theorem payloadEnd_memRead {s : State} (hs : s.calm = true) {n : Nat} (hn : n ≤ s.params.bufSize) (j : Nat) :
    (payloadEnd n s).memRead j =
      if j < n then some ((readSamples (payloadStates n s j)).foldl Fifo.shiftIn 0) else s.memRead j := by
  cases n with
  | zero =>
    exact memRead_congr ((frame_kept s).stopCondition (ActionFrame.refl s)).params
      ((buf_kept s.m.buf).stopCondition rfl) j
  | succ n => exact payloadStates_memRead hs (n + 1) hn (le_refl _) j

/-- The master's registers after the read of the payload: the Fifo8 holds the last byte that was read (42_master.md
R161, R164). -/
theorem payloadEnd_at {s : State} (hs : s.calm = true) (n : Nat) :
    ∃ f b, (n = 0 → f = s.m.fifo) ∧ (∀ i, n = i + 1 → f = (readSamples (payloadStates n s i)).foldl Fifo.shiftIn 0) ∧
      At (payloadEnd n s)
        { s.m with sdaLatch := true, sclLatch := true, sdaDir := if n = 0 then s.m.sdaDir else .out, phase := .stopped,
                   fifo := f, buf := b, actions := s.m.actions + (if n = 0 then 5 else 39 * n),
                   delays := s.m.delays + (if n = 0 then 2 else 18 * n) } := by
  cases n with
  | zero => exact ⟨_, _, fun _ => rfl, fun _ hi => absurd hi.symm (Nat.succ_ne_zero _), (At.of hs).stopCondition⟩
  | succ n =>
    obtain ⟨b, hat⟩ := payloadStates_last hs n
    exact ⟨_, b, fun hn => absurd hn (Nat.succ_ne_zero n), fun i hi => by rw [Nat.succ.inj hi], hat⟩

/-! ### The command -/

/-- `read_bytes` is the retried address, the read of the payload and the status of the address (42_master.md R161). -/
theorem readBytes_eq (a : Addr) (s : State) :
    readBytes a s = setStatus (statusOf (addressPhase a true s).2)
      (payloadEnd s.m.len.toNat (addressPhase a true s).1) := by
  rw [readBytes, payloadEnd]
  generalize addressPhase a true s = r
  have hpayload := readPayload_payloadStates (Nat.zero_add s.m.len.toNat) r.1
  rw [payloadStates] at hpayload
  rw [hpayload]

/-- M.READ_BYTES of a length that fits the buffer is a command (20_memory.md R62; entry 19). -/
theorem exec_mReadBytes (a : Addr) {s : State} (h : s.m.len.toNat ≤ s.params.bufSize) :
    exec (.mReadBytes a) s = runCommand (.mReadBytes a) none (readBytes a) s :=
  if_neg (by simp only [Bool.and_eq_true, decide_eq_true_eq]; omega)

/-- The end of a command that writes the status keeps every byte of the buffer. -/
theorem finish_setStatus_memRead (st : Status) (l : Option Line) (s : State) (j : Nat) :
    ((setStatus st s).finish l).memRead j = s.memRead j := by
  refine memRead_congr ((finish_params _ l).trans (upd_params s _)) ?_ j
  exact upd_field (g := Master.buf) (f := Master.settleAfter l) (fun _ => rfl) _
    (upd_field (g := Master.buf) (f := fun m => { m with status := st }) (fun _ => rfl) s rfl)

/-- Settles O49: the retried address leaves the buffer alone, and the read of the payload starts on its state. -/
theorem readPayload_spec : Obligations.ReadPayload := by
  intro a s n hcalm _ hn hfits
  obtain ⟨k, hpos, hmost, hfailed, haddress⟩ := (At.of hcalm).addressPhase a true
  have haddressed := (frame_kept s).addressPhase a true (ActionFrame.refl s)
  have hbuf := (buf_kept s.m.buf).addressPhase a true rfl
  have hexec := (exec_mReadBytes a (hn ▸ hfits)).trans (runCommand_live (calm_live hcalm))
  have hframe := (frame_kept s).readBytes (fun i v _ h => h.trans (memWrite_frame i v _)) a (ActionFrame.refl s)
  have hkeeps := (keepsConfiguration_kept s).exec hexec ⟨rfl, rfl, rfl, rfl⟩
  rw [readBytes_eq, ← hn] at hexec hframe hkeeps
  have hattempts : attempts (startCommunication a true) Config.maxAttempts s = addressPhase a true s := rfl
  rw [hattempts]
  generalize addressPhase a true s = r at *
  obtain ⟨x, ack⟩ := r
  dsimp only at *
  have hx := haddress.calm
  obtain ⟨f, b, hnone, hlast, hat⟩ := payloadEnd_at hx n
  have hread (j : Nat) := (finish_setStatus_memRead (statusOf ack) none (payloadEnd n x) j).trans
    (payloadEnd_memRead hx (haddressed.params ▸ hfits : n ≤ x.params.bufSize) j)
  have hend := (hat.setStatus (statusOf ack)).finish none
  rw [haddress.master] at hend
  have hsnap := (finish_snap (setStatus (statusOf ack) (payloadEnd n x)) none).trans hframe.snap
  have henv := finish_env (setStatus (statusOf ack) (payloadEnd n x)) none
  generalize ht : (setStatus (statusOf ack) (payloadEnd n x)).finish none = t at *
  have hfifo : t.m.fifo = f := congrArg Master.fifo hend.master
  refine ⟨t, payloadStates n x, ack, k, rfl, fun i _ => readInto_samples i _ (payloadStates_calm hx n i), ht.symm, hexec,
    hend.calm, hkeeps, hsnap, (congrArg Env.inputs henv).trans hframe.inputs,
    (congrArg Env.hostRead henv).trans hframe.hostRead, fun i hi => (hread i).trans (if_pos hi), fun i hi => ?_,
    fun hsome => ?_, fun hz => ?_, hpos, hmost, hfailed, congrArg Master.lastAck hend.master, ?_⟩
  · rw [hread, if_neg (Nat.not_lt.2 hi)]
    exact memRead_congr haddressed.params hbuf i
  · obtain ⟨i, rfl⟩ := Nat.exists_eq_add_one.2 hsome
    rw [hread, if_pos (by omega), hfifo]
    exact congrArg some (hlast i rfl).symm
  · rw [hfifo, hnone hz, haddress.master]
  · rw [hend.master]
    rfl

/-! ### The phase after each command -/

/-- A command leaves the phase that its body leaves. -/
theorem exec_phase {i : Instr} {l : Option Line} {body : State → State} {s t : State} {m : Master} {p : Proto}
    (h : exec i s = .next t) (hs : s.calm = true) (hx : ∀ s, exec i s = runCommand i l body s) (ha : At (body s) m)
    (hp : m.phase = p) : t.m.phase = p := by
  rw [hx, runCommand_live (calm_live hs)] at h
  cases h
  rw [(ha.finish l).master]
  exact hp

/-- A sample of a line writes the result alone of the master's registers (41_line_and_edge.md R120). -/
theorem sampleLine_at (l : Line) {s : State} (hs : s.calm = true) :
    ∃ v, At (sampleLine l s) { s.m with result := v } := by
  cases hflag : s.m.settleFlag l with
  | false =>
    rw [sampleLine_settled hflag]
    exact ⟨_, (At.of hs).setResult _⟩
  | true =>
    rw [sampleLine_unsettled hflag]
    have hcalm : State.calm { s with env := { s.env with draws := s.env.draws + 1 } } = true :=
      (calm_congr rfl rfl rfl rfl).trans hs
    exact ⟨_, (At.of hcalm).setResult _⟩

/-- Settles O51: the phase is one of the registers that the body's `At` names, and a body that raises a fault does not
end without one. -/
theorem phaseAfterCommand : Obligations.PhaseAfterCommand := by
  intro i s t hc hs hcfg h hf
  have hat := At.of hs
  cases i with
  | fReset => exact exec_phase h hs (fun _ => rfl) (hat.setFifo 0) rfl
  | fShift b => exact exec_phase h hs (fun _ => rfl) ((hat.setResult _).setFifo _) rfl
  | fLoad v => exact exec_phase h hs (fun _ => rfl) (hat.setFifo v) rfl
  | fRead => exact exec_phase h hs (fun _ => rfl) (hat.setResult _) rfl
  | lRead l =>
    obtain ⟨v, hsample⟩ := sampleLine_at l hs
    exact exec_phase h hs (fun _ => rfl) hsample rfl
  | lWrite l v => exact exec_phase h hs (fun _ => rfl) (hat.lineW l v) (by cases l <;> rfl)
  | lSetdir l d => exact exec_phase h hs (fun _ => rfl) (hat.lineSetDir l d) (by cases l <;> rfl)
  | lDelay n => exact exec_phase h hs (fun _ => rfl) (hat.lineD n) rfl
  | mStart => exact exec_phase h hs (fun _ => rfl) hat.startCondition rfl
  | mStop => exact exec_phase h hs (fun _ => rfl) hat.stopCondition rfl
  | mWriteBit b => exact exec_phase h hs (fun _ => rfl) (hat.writeBit b) rfl
  | mReadBit => exact exec_phase h hs (fun _ => rfl) (hat.readBit.setResult _) rfl
  | mWriteByte v => exact exec_phase h hs (fun _ => rfl) ((hat.writeByte v).setResult _) rfl
  | mReadByte z => exact exec_phase h hs (fun _ => rfl) ((hat.readByte_samples z).setResult _) rfl
  | mStartComm a r => exact exec_phase h hs (fun _ => rfl) ((hat.startCommunication a r).setResult _) rfl
  | qStatus => exact exec_phase h hs (fun _ => rfl) (hat.setResult _) rfl
  | mSetlen n =>
    rw [exec, execMSetlen, runCommand_live (calm_live hs)] at h
    split at h <;> cases h
    · cases hf
    · rw [((hat.upd _).finish none).master]
  | qSnap k =>
    rw [exec, execQSnap, runCommand_live (calm_live hs)] at h
    split at h <;> cases h
    · cases hf
    · exact upd_field (g := Master.phase) (f := Master.settleAfter none) (fun _ => rfl) _ rfl
  | mWriteBytes a =>
    cases hpayload : payloadFrom s 0 s.m.len.toNat with
    | error k =>
      rw [exec_mWriteBytes, runCommand_live (calm_live hs), writeBuffer, hpayload] at h
      cases h
      cases hf
    | ok data =>
      have hbody : writeBuffer a s = writeBytes a data s := by rw [writeBuffer, hpayload]
      obtain ⟨k, ks, b, -, -, -, -, -, hwrite⟩ := hat.writeBytes a data
      exact exec_phase h hs (exec_mWriteBytes a) (hbody ▸ hwrite) rfl
  | mReadBytes a =>
    have hfits : s.m.len.toNat ≤ s.params.bufSize := by
      by_contra hlong
      simp [exec, execMReadBytes, calm_live hs, Nat.not_le.1 hlong] at h
    rw [exec_mReadBytes a hfits, runCommand_live (calm_live hs), readBytes_eq] at h
    cases h
    obtain ⟨k, -, -, -, haddress⟩ := hat.addressPhase a true
    obtain ⟨f, b, -, -, hend⟩ := payloadEnd_at haddress.calm s.m.len.toNat
    rw [((hend.setStatus _).finish none).master]
  | evLine | slvSdaFall | slvSdaRise | slvSclRise | slvSclFall | snfSdaFall | snfSdaRise | snfSclRise | snfSclFall =>
    simp [Instr.isCommand, Instr.opcode] at hc

end Sys2Proof.Machine
end

section
/-! SUPPORT. A block with no device on its bus (70_reset_and_hazards.md R350): what the master releases reads high, so
that every step goes unacknowledged, and the proof of the statement on it. -/

namespace Sys2Proof.Machine

/-! ### External agents that do nothing -/

/-- No external agent pulls a wire, and none is to act at a coming line action. -/
def State.quiet (s : State) : Prop := s.env.extSda = true ∧ s.env.extScl = true ∧ s.env.yields = []

theorem State.quiet.congr {s t : State} (h : s.quiet) (he : t.env = s.env) : t.quiet := by
  rw [State.quiet, he]
  exact h

/-- Where no external agent is to act, a line action is its drive. -/
theorem act_quiet (f : Master → Master) {s : State} (h : s.quiet) : act f s = drive f s := by
  rw [act, agents_idle h.2.2]

theorem drive_quiet (f : Master → Master) {s : State} (h : s.quiet) : (drive f s).quiet := by
  cases hl : s.live with
  | false => rwa [drive_dead f hl]
  | true =>
    obtain ⟨hsda, hscl, hyields⟩ := h
    have hframe := settle_frame (propagate s { s with m := { f s.m with actions := s.m.actions + 1 } })
    rw [← drive_live f hl] at hframe
    exact ⟨by rw [hframe.ext.1, propagate_env]; exact hsda, by rw [hframe.ext.2, propagate_env]; exact hscl,
      by rw [hframe.yields, propagate_env]; exact hyields⟩

/-- The master's sequences make no external agent act. -/
theorem quiet_kept : Kept State.quiet where
  lineW l v s h := by rw [lineW, act_quiet _ h]; exact drive_quiet _ h
  lineSetDir l d s h := by rw [lineSetDir, act_quiet _ h]; exact drive_quiet _ h
  lineD n s h := by
    have hupd := h.congr (upd_env s fun m => { m with actions := m.actions + 1, delays := m.delays + n })
    rwa [lineD, agents_idle hupd.2.2]
  phase _ s h := h.congr (upd_env s _)
  lastAck _ s h := h.congr (upd_env s _)
  fifo _ s h := h.congr (upd_env s _)
  result _ s h := h.congr (upd_env s _)
  status _ s h := h.congr (upd_env s _)

/-! ### No device -/

theorem NoDevice.of_frame {s t : State} (h : NoDevice s) (hf : ActionFrame s t) (hc : t.calm = true) (hq : t.quiet) :
    NoDevice t where
  registry := by simpa [h.registry] using hf.registry
  calm := hc
  master := by rw [hf.cfg]; exact h.master
  quiet := hq

/-- A sequence of line actions and register updates brings no device. -/
theorem NoDevice.kept {s t : State} (h : NoDevice s) (hk : ∀ P : State → Prop, Kept P → P s → P t) : NoDevice t :=
  h.of_frame (hk _ (frame_kept s) (ActionFrame.refl s)) (hk _ calm_kept h.calm) (hk _ quiet_kept h.quiet)

theorem NoDevice.memWrite {s : State} (h : NoDevice s) (i : Nat) (v : Byte) : NoDevice (s.memWrite i v) :=
  h.of_frame (memWrite_frame i v s) ((memWrite_calm i v s).trans h.calm)
    (State.quiet.congr (s := s) h.quiet (memWrite_env s i v))

/-- SDA is high where the master releases it: nobody else drives it (41_line_and_edge.md R130). -/
theorem NoDevice.wire_released {s : State} (h : NoDevice s) (hm : s.m.mout .sda = true) : s.wire .sda = true := by
  have hmaster : s.m.drives s.wiring .sda = true := by
    rw [Master.drives]
    split
    · rfl
    · split
      · exact hm
      · rfl
  simp [State.wire, hmaster, h.registry, Env.drives, h.quiet.1]

/-- The acknowledge of a device that is not there is read as 0 (70_reset_and_hazards.md R350). -/
theorem NoDevice.readAck {s : State} (h : NoDevice s) : (readAck s).2 = false := by
  have hhigh : NoDevice (clockHigh (lineW .sda true s)) := h.kept fun P k hs => k.clockHigh (k.lineW _ _ _ hs)
  have hat := (((At.of h.calm).lineW .sda true).lineW .scl true).lineD 1
  have hmout : (clockHigh (lineW .sda true s)).m.mout .sda = true := by
    rw [clockHigh, hat.master, Master.mout]
    split <;> rfl
  have hwire := hhigh.wire_released hmout
  exact congrArg ackedOf hwire

theorem NoDevice.writeByte {s : State} (h : NoDevice s) (v : Byte) : (writeByte v s).2 = false :=
  NoDevice.readAck (h.kept fun _ k hs => k.writeBits _ hs)

theorem NoDevice.startCommunication {s : State} (h : NoDevice s) (a : Addr) (r : Bool) :
    (startCommunication a r s).2 = false := by
  have hsent : NoDevice (writeBit r (writeBits (addrBits a) (setPhase .addressPhase (startCondition s)))) :=
    h.kept fun _ k hs => k.writeBit r (k.writeBits _ (k.phase _ _ (k.startCondition hs)))
  simp only [Machine.startCommunication, hsent.readAck]

/-- A step that never succeeds is not acknowledged, however often it is retried (42_master.md R163). -/
theorem attempts_never {P : State → Prop} {f : State → State × Bool} (hf : ∀ s, P s → P (f s).1 ∧ (f s).2 = false)
    (n : Nat) {s : State} (h : P s) : (attempts f n s).2 = false := by
  induction n generalizing s with
  | zero => rfl
  | succ n ih =>
    obtain ⟨hnext, hfail⟩ := hf s h
    rw [attempts_of_failed hfail]
    exact ih hnext

theorem NoDevice.addressPhase {s : State} (h : NoDevice s) (a : Addr) (r : Bool) : (addressPhase a r s).2 = false :=
  attempts_never (P := NoDevice)
    (fun _ h => ⟨h.kept fun _ k hs => k.startCommunication a r hs, h.startCommunication a r⟩) _ h

theorem NoDevice.byteAttempts {s : State} (h : NoDevice s) (v : Byte) :
    (attempts (Machine.writeByte v) Config.maxAttempts s).2 = false :=
  attempts_never (P := NoDevice) (fun _ h => ⟨h.kept fun _ k hs => k.writeByte v hs, h.writeByte v⟩) _ h

/-! ### The payload commands -/

/-- A payload is not acknowledged once one of its steps is not. -/
theorem writePayload_failed (vs : List Byte) (s : State) : (writePayload vs (s, false)).2 = false := by
  induction vs generalizing s with
  | nil => rfl
  | cons v vs ih => exact ih _

/-- Each byte of the payload takes its three attempts (42_master.md R163; 70_reset_and_hazards.md R350). -/
theorem NoDevice.writePayload {s : State} {m : Master} (h : NoDevice s) (hat : At s m) (hack : m.lastAck = false)
    (vs : List Byte) :
    ∃ x y, At (writePayload vs (s, false)).1
      { m with sdaLatch := x, sclLatch := y, actions := m.actions + 135 * vs.length,
               delays := m.delays + 54 * vs.length } := by
  induction vs generalizing s m with
  | nil => exact ⟨m.sdaLatch, m.sclLatch, hat⟩
  | cons v vs ih =>
    obtain ⟨k, -, -, hall, hbyte⟩ := hat.byteAttempts v
    have hfail := h.byteAttempts v
    rw [hfail] at hbyte
    have hnext : NoDevice (attempts (Machine.writeByte v) Config.maxAttempts s).1 :=
      h.kept fun P k hs => attempts_keeps (fun _ hs => k.writeByte v hs) _ hs
    obtain ⟨x, y, hrest⟩ := ih hnext hbyte rfl
    rw [Machine.writePayload, Bool.false_and]
    refine ⟨x, y, hrest.congr ?_⟩
    simp only [hall hfail, hack, List.length_cons, Nat.mul_add, Master.mk.injEq, true_and]
    omega

/-- With no device every sample of a byte is high (42_master.md R157). -/
theorem NoDevice.readSamples {s : State} (h : NoDevice s) : readSamples s = List.replicate 8 true := by
  rw [List.eq_replicate_iff]
  refine ⟨by simp [Machine.readSamples], fun b hb => ?_⟩
  obtain ⟨k, -, rfl⟩ := List.mem_map.1 hb
  refine NoDevice.wire_released
    (h.kept fun _ q hs => q.clockHigh (q.readShifts k (q.fifo _ _ (q.lineSetDir _ _ _ hs)))) ?_
  rw [((((((At.of h.calm).lineSetDir .sda .inp).setFifo 0).readShifts k).lineW .scl true).lineD 1).master]
  rfl

/-- With no device a write of a payload costs three attempts of each of its steps and is not acknowledged
(70_reset_and_hazards.md R350). -/
theorem NoDevice.writeBytes {s : State} {m : Master} (h : NoDevice s) (hat : At s m) (a : Addr) (data : List Byte) :
    At (writeBytes a data s)
      { m with sdaLatch := true, sclLatch := true, phase := .stopped, status := .ackFailed, lastAck := false,
               actions := m.actions + 52 * 3 + 135 * data.length + 5,
               delays := m.delays + 21 * 3 + 54 * data.length + 2 } := by
  obtain ⟨k, -, -, hall, haddress⟩ := hat.addressPhase a false
  have hnext : NoDevice (Machine.addressPhase a false s).1 := h.kept fun _ k hs => k.addressPhase a false hs
  have hfail := h.addressPhase a false
  rw [Machine.writeBytes]
  generalize Machine.addressPhase a false s = r at *
  obtain ⟨x, ack⟩ := r
  obtain rfl : ack = false := hfail
  rw [hall rfl] at haddress
  obtain ⟨_, _, hpayload⟩ := hnext.writePayload haddress rfl data
  rw [writePayload_failed]
  exact hpayload.stopCondition.setStatus _

/-- Settles O50: no step is acknowledged, so each takes its three attempts, and each sample of a read is high. -/
theorem absentDevice : Obligations.AbsentDevice := by
  intro a s h hfits
  refine ⟨fun hwritten => ?_, ?_⟩
  · obtain ⟨data, hlen, -, hbody⟩ := writeBuffer_written a hwritten
    obtain ⟨-, t, hruns, hm⟩ := runs_writeBytes h.calm hbody (h.writeBytes (At.of h.calm) a data)
    refine ⟨t, hruns.answers, ((live_iff t).1 (calm_live hruns.calm)).1, ?_⟩
    rw [hm, hlen]
  · obtain ⟨t, x, ack, k, hattempts, hx, -, hexec, hcalm, -, -, -, -, hread, -, -, -, -, -, -, hlast, hm⟩ :=
      readPayload_spec a s _ h.calm h.master rfl hfits
    have hack : ack = false := (congrArg Prod.snd hattempts).symm.trans (h.addressPhase a true)
    have hzero : NoDevice (x 0) := by
      rw [show x 0 = (addressPhase a true s).1 from (congrArg Prod.fst hattempts).symm]
      exact h.kept fun _ k hs => k.addressPhase a true hs
    have hdevice : ∀ i, i ≤ s.m.len.toNat → NoDevice (x i) := by
      intro i hi
      induction i with
      | zero => exact hzero
      | succ i ih =>
        rw [hx i hi]
        exact NoDevice.memWrite ((ih (by omega)).kept fun _ k hs => k.readByte _ hs) _ _
    refine ⟨t, hexec, ((live_iff t).1 (calm_live hcalm)).1, ?_, hlast.trans hack, by rw [hm], fun i hi => ?_⟩
    · rw [hm, hack]
      rfl
    · rw [hread i hi, (hdevice i hi.le).readSamples]
      rfl

end Sys2Proof.Machine
end

section
/-! SUPPORT. What each command leaves alone (42_master.md R150; 10_state.md R38 to R46): one table says which parts of the
state a command's rule may write (`commandWrites`), and every other part is kept by each piece of the command's body, and
so by the command (`exec_keeps_part`). From it, the statement that every command ends and keeps the rest. -/

namespace Sys2Proof.Machine

/-! ### The parts of the state, and which of them a command writes -/

/-- The parts of the state that a command's rule writes or leaves alone; the ports are what is presented next and the byte
that the host read last, which no command writes. -/
inductive Part where
  | latches
  | dirs
  | fifo
  | lastAck
  | result
  | status
  | len
  | buffer
  | snap
  | ports

/-- The part is the same in two states. -/
def Part.same (p : Part) (s t : State) : Prop :=
  match p with
  | .latches => (t.m.sdaLatch, t.m.sclLatch) = (s.m.sdaLatch, s.m.sclLatch)
  | .dirs => (t.m.sdaDir, t.m.sclDir) = (s.m.sdaDir, s.m.sclDir)
  | .fifo => t.m.fifo = s.m.fifo
  | .lastAck => t.m.lastAck = s.m.lastAck
  | .result => t.m.result = s.m.result
  | .status => t.m.status = s.m.status
  | .len => t.m.len = s.m.len
  | .buffer => t.m.buf = s.m.buf
  | .snap => t.snap = s.snap
  | .ports => (t.env.inputs, t.env.hostRead) = (s.env.inputs, s.env.hostRead)

/-- The parts that a command's rule writes (40_fifo_and_address.md R100 to R103; 41_line_and_edge.md R120 to R123;
42_master.md R152 to R161; 45_dispatch.md R268, R269). -/
def commandWrites : Instr → List Part
  | .fReset => [.fifo]
  | .fShift _ => [.fifo, .result]
  | .fLoad _ => [.fifo]
  | .fRead => [.result]
  | .lRead _ => [.result]
  | .lWrite _ _ => [.latches]
  | .lSetdir _ _ => [.dirs]
  | .mStart => [.latches]
  | .mStop => [.latches]
  | .mWriteBit _ => [.latches]
  | .mReadBit => [.latches, .result]
  | .mWriteByte _ => [.latches, .lastAck, .result]
  | .mReadByte _ => [.latches, .dirs, .fifo, .result]
  | .mStartComm _ _ => [.latches, .lastAck, .result]
  | .mSetlen _ => [.len]
  | .mWriteBytes _ => [.latches, .lastAck, .status]
  | .mReadBytes _ => [.latches, .dirs, .fifo, .lastAck, .status, .buffer]
  | .qSnap _ => [.snap]
  | .qStatus => [.result]
  | _ => []

section
variable {p : Part} {s t u : State}

theorem Part.same_refl (p : Part) (s : State) : p.same s s := by cases p <;> rfl

theorem Part.same_trans (h : p.same s t) (k : p.same t u) : p.same s u := by cases p <;> exact Eq.trans k h

/-- What changes neither the master's registers nor the snapshot nor the ports changes no part. -/
theorem Part.same_of_eq (p : Part) (hm : t.m = s.m) (hs : t.snap = s.snap) (hi : t.env.inputs = s.env.inputs)
    (hh : t.env.hostRead = s.env.hostRead) : p.same s t := by
  cases p <;> simp only [Part.same, hm, hs, hi, hh]

/-! ### What each piece of a command's body leaves alone -/

/-- A change of the master's registers that leaves the part alone, made by a live block. -/
theorem Part.same_upd {f : Master → Master} (hf : ∀ t : State, p.same t { t with m := f t.m }) (h : p.same s t) :
    p.same s (t.upd f) := by
  simp only [State.upd]
  split
  · exact p.same_trans h (hf t)
  · exact h

/-- A line action leaves a part alone that its change of the outputs leaves alone: the external agents and the events
write no part. -/
theorem Part.same_act {f : Master → Master}
    (hf : ∀ (t : State) (n : Nat), p.same t { t with m := { f t.m with actions := n } }) (h : p.same s t) :
    p.same s (act f t) := by
  have ha := agents_frame t
  have hagents : p.same s (agents t) := p.same_trans h (p.same_of_eq (agents_m t) ha.snap ha.inputs ha.hostRead)
  rw [act]
  cases hl : (agents t).live with
  | false => rwa [drive_dead f hl]
  | true =>
    have hsettle := settle_frame (propagate (agents t)
      { agents t with m := { f (agents t).m with actions := (agents t).m.actions + 1 } })
    rw [drive_live f hl]
    refine p.same_trans hagents (p.same_trans (hf _ ((agents t).m.actions + 1)) (p.same_of_eq ?_ ?_ ?_ ?_))
    · rw [hsettle.m, propagate_m]
    · rw [hsettle.snap, propagate_snap]
    · rw [hsettle.inputs, propagate_env]
    · rw [hsettle.hostRead, propagate_env]

theorem Part.same_lineD (n : Nat) (h : p.same s t) : p.same s (lineD n t) := by
  have hcounts := p.same_upd (f := fun m => { m with actions := m.actions + 1, delays := m.delays + n })
    (fun t => by cases p <;> rfl) h
  have ha := agents_frame (t.upd fun m => { m with actions := m.actions + 1, delays := m.delays + n })
  exact p.same_trans hcounts (p.same_of_eq (agents_m _) ha.snap ha.inputs ha.hostRead)

theorem Part.same_lineW (hp : p ≠ .latches) (l : Line) (v : Level) (h : p.same s t) : p.same s (lineW l v t) := by
  refine p.same_act (fun t n => ?_) h
  cases p with
  | latches => exact absurd rfl hp
  | _ => cases l <;> rfl

theorem Part.same_lineSetDir (hp : p ≠ .dirs) (l : Line) (d : Dir) (h : p.same s t) : p.same s (lineSetDir l d t) := by
  refine p.same_act (fun t n => ?_) h
  cases p with
  | dirs => exact absurd rfl hp
  | _ => cases l <;> rfl

theorem Part.same_setFifo (hp : p ≠ .fifo) (v : Byte) (h : p.same s t) : p.same s (setFifo v t) := by
  refine p.same_upd (fun t => ?_) h
  cases p with
  | fifo => exact absurd rfl hp
  | _ => rfl

theorem Part.same_setLastAck (hp : p ≠ .lastAck) (b : Bool) (h : p.same s t) : p.same s (setLastAck b t) := by
  refine p.same_upd (fun t => ?_) h
  cases p with
  | lastAck => exact absurd rfl hp
  | _ => rfl

theorem Part.same_setResult (hp : p ≠ .result) (v : Byte) (h : p.same s t) : p.same s (setResult v t) := by
  refine p.same_upd (fun t => ?_) h
  cases p with
  | result => exact absurd rfl hp
  | _ => rfl

theorem Part.same_setStatus (hp : p ≠ .status) (st : Status) (h : p.same s t) : p.same s (setStatus st t) := by
  refine p.same_upd (fun t => ?_) h
  cases p with
  | status => exact absurd rfl hp
  | _ => rfl

theorem Part.same_memWrite (hp : p ≠ .buffer) (i : Nat) (v : Byte) (h : p.same s t) : p.same s (t.memWrite i v) := by
  refine p.same_trans h ?_
  simp only [State.memWrite]
  split
  · cases p with
    | buffer => exact absurd rfl hp
    | _ => rfl
  · exact p.same_refl t

/-- The phase and the settle flags are no part: they are written by their own rules (42_master.md R166;
41_line_and_edge.md R124). -/
theorem Part.same_finish (l : Option Line) (h : p.same s t) : p.same s (t.finish l) :=
  p.same_upd (fun t => by cases p <;> rfl) h

theorem Part.same_raise (c : FaultCode) (n : Nat) (h : p.same s t) : p.same s (t.raise c n) :=
  p.same_trans h (p.same_of_eq rfl rfl rfl rfl)

theorem Part.same_sampleLine (hp : p ≠ .result) (l : Line) (h : p.same s t) : p.same s (sampleLine l t) := by
  simp only [sampleLine]
  split
  · exact p.same_setResult hp _ (p.same_trans h (p.same_of_eq rfl rfl rfl rfl))
  · exact p.same_setResult hp _ h

/-! ### The sequences -/

theorem Part.keptLines (hp : p ≠ .latches) (s : State) : KeptLines (p.same s) where
  lineW l v _ := p.same_lineW hp l v
  lineD n _ := p.same_lineD n
  phase _ _ := p.same_upd fun t => by cases p <;> rfl

theorem Part.keptWrites (hp : p ≠ .latches) (ha : p ≠ .lastAck) (s : State) : KeptWrites (p.same s) where
  toKeptLines := p.keptLines hp s
  lastAck b _ := p.same_setLastAck ha b

theorem Part.keptReads (hp : p ≠ .latches) (hd : p ≠ .dirs) (hf : p ≠ .fifo) (s : State) : KeptReads (p.same s) where
  toKeptLines := p.keptLines hp s
  lineSetDir l d _ := p.same_lineSetDir hd l d
  fifo v _ := p.same_setFifo hf v

/-- What the read of a byte and a write of the buffer keep, the read of the payload keeps (42_master.md R161). -/
theorem KeptReads.readPayload {P : State → Prop} (k : KeptReads P) (hw : ∀ i v s, P s → P (s.memWrite i v)) (i n : Nat)
    {s : State} (h : P s) : P (readPayload i n s) := by
  induction n generalizing s i with
  | zero => exact h
  | succ n ih =>
    refine ih (i + 1) ?_
    simp only [readInto]
    split
    · exact hw _ _ _ (k.readByte _ h)
    · exact k.readByte _ h

theorem Part.same_writeBuffer (hp : p ≠ .latches) (ha : p ≠ .lastAck) (hs : p ≠ .status) (a : Addr) (s : State) :
    p.same s (writeBuffer a s) := by
  have k := p.keptWrites hp ha s
  simp only [writeBuffer]
  split
  · exact p.same_raise _ _ (p.same_refl s)
  · exact p.same_setStatus hs _ (k.stopCondition (k.writePayload _ (k.addressPhase a false (p.same_refl s))))

theorem Part.same_readBytes (hp : p ≠ .latches) (hd : p ≠ .dirs) (hf : p ≠ .fifo) (ha : p ≠ .lastAck) (hs : p ≠ .status)
    (hb : p ≠ .buffer) (a : Addr) (s : State) : p.same s (readBytes a s) := by
  have k := p.keptReads hp hd hf s
  have haddress := (p.keptWrites hp ha s).addressPhase a true (p.same_refl s)
  simp only [readBytes]
  refine p.same_setStatus hs _ ?_
  split
  · exact k.stopCondition haddress
  · exact k.readPayload (fun i v _ => p.same_memWrite hb i v) 0 _ haddress

end

/-! ### Commands -/

/-- A command word leaves alone a part that its body leaves alone. -/
theorem runCommand_keeps_part {i : Instr} {l : Option Line} {body : State → State} {s t : State} {p : Part}
    (h : runCommand i l body s = .next t) (hb : p.same s (body s)) : p.same s t := by
  obtain ⟨-, -, ⟨-, rfl⟩ | ⟨-, rfl⟩⟩ := runCommand_next h
  · exact p.same_raise _ _ (p.same_refl s)
  · exact p.same_finish l hb

theorem exec_keeps_part_of_body {i : Instr} {l : Option Line} {body : State → State} {s t : State} {p : Part}
    (h : exec i s = .next t) (hx : ∀ s, exec i s = runCommand i l body s) (hb : p.same s (body s)) : p.same s t :=
  runCommand_keeps_part ((hx s).symm.trans h) hb

/-- A command leaves every part of the state alone that its rule does not write. -/
theorem exec_keeps_part {i : Instr} {s t : State} (p : Part) (hc : i.isCommand = true) (h : exec i s = .next t)
    (hp : p ∉ commandWrites i) : p.same s t := by
  have hs := p.same_refl s
  cases i with
  | fReset =>
    have hf : p ≠ .fifo := by simpa [commandWrites] using hp
    exact exec_keeps_part_of_body h (fun _ => rfl) (p.same_setFifo hf _ hs)
  | fShift b =>
    obtain ⟨hf, hr⟩ : p ≠ .fifo ∧ p ≠ .result := by simpa [commandWrites] using hp
    exact exec_keeps_part_of_body h (fun _ => rfl) (p.same_setFifo hf _ (p.same_setResult hr _ hs))
  | fLoad v =>
    have hf : p ≠ .fifo := by simpa [commandWrites] using hp
    exact exec_keeps_part_of_body h (fun _ => rfl) (p.same_setFifo hf _ hs)
  | fRead =>
    have hr : p ≠ .result := by simpa [commandWrites] using hp
    exact exec_keeps_part_of_body h (fun _ => rfl) (p.same_setResult hr _ hs)
  | lRead l =>
    have hr : p ≠ .result := by simpa [commandWrites] using hp
    exact exec_keeps_part_of_body h (fun _ => rfl) (p.same_sampleLine hr l hs)
  | lWrite l v =>
    have hl : p ≠ .latches := by simpa [commandWrites] using hp
    exact exec_keeps_part_of_body h (fun _ => rfl) (p.same_lineW hl l v hs)
  | lSetdir l d =>
    have hd : p ≠ .dirs := by simpa [commandWrites] using hp
    exact exec_keeps_part_of_body h (fun _ => rfl) (p.same_lineSetDir hd l d hs)
  | lDelay n => exact exec_keeps_part_of_body h (fun _ => rfl) (p.same_lineD n hs)
  | mStart =>
    have hl : p ≠ .latches := by simpa [commandWrites] using hp
    exact exec_keeps_part_of_body h (fun _ => rfl) ((p.keptLines hl s).startCondition hs)
  | mStop =>
    have hl : p ≠ .latches := by simpa [commandWrites] using hp
    exact exec_keeps_part_of_body h (fun _ => rfl) ((p.keptLines hl s).stopCondition hs)
  | mWriteBit b =>
    have hl : p ≠ .latches := by simpa [commandWrites] using hp
    exact exec_keeps_part_of_body h (fun _ => rfl) ((p.keptLines hl s).writeBit b hs)
  | mReadBit =>
    obtain ⟨hl, hr⟩ : p ≠ .latches ∧ p ≠ .result := by simpa [commandWrites] using hp
    exact exec_keeps_part_of_body h (fun _ => rfl) (p.same_setResult hr _ ((p.keptLines hl s).readBit hs))
  | mWriteByte v =>
    obtain ⟨hl, ha, hr⟩ : p ≠ .latches ∧ p ≠ .lastAck ∧ p ≠ .result := by simpa [commandWrites] using hp
    exact exec_keeps_part_of_body h (fun _ => rfl) (p.same_setResult hr _ ((p.keptWrites hl ha s).writeByte v hs))
  | mReadByte z =>
    obtain ⟨hl, hd, hf, hr⟩ : p ≠ .latches ∧ p ≠ .dirs ∧ p ≠ .fifo ∧ p ≠ .result := by simpa [commandWrites] using hp
    exact exec_keeps_part_of_body h (fun _ => rfl) (p.same_setResult hr _ ((p.keptReads hl hd hf s).readByte z hs))
  | mStartComm a r =>
    obtain ⟨hl, ha, hr⟩ : p ≠ .latches ∧ p ≠ .lastAck ∧ p ≠ .result := by simpa [commandWrites] using hp
    exact exec_keeps_part_of_body h (fun _ => rfl) (p.same_setResult hr _ ((p.keptWrites hl ha s).startCommunication a r hs))
  | mSetlen n =>
    have hn : p ≠ .len := by simpa [commandWrites] using hp
    refine exec_keeps_part_of_body h (fun _ => rfl) ?_
    split
    · exact p.same_raise _ _ hs
    · refine p.same_upd (fun t => ?_) hs
      cases p with
      | len => exact absurd rfl hn
      | _ => rfl
  | mWriteBytes a =>
    obtain ⟨hl, ha, ht⟩ : p ≠ .latches ∧ p ≠ .lastAck ∧ p ≠ .status := by simpa [commandWrites] using hp
    exact exec_keeps_part_of_body h (exec_mWriteBytes a) (p.same_writeBuffer hl ha ht a s)
  | mReadBytes a =>
    obtain ⟨hl, hd, hf, ha, ht, hb⟩ : p ≠ .latches ∧ p ≠ .dirs ∧ p ≠ .fifo ∧ p ≠ .lastAck ∧ p ≠ .status ∧ p ≠ .buffer := by
      simpa [commandWrites] using hp
    rw [exec, execMReadBytes] at h
    split at h
    · cases h
    · exact runCommand_keeps_part h (p.same_readBytes hl hd hf ha ht hb a s)
  | qSnap k =>
    have hn : p ≠ .snap := by simpa [commandWrites] using hp
    refine exec_keeps_part_of_body h (fun _ => rfl) ?_
    split
    · exact p.same_raise _ _ hs
    · cases p with
      | snap => exact absurd rfl hn
      | _ => rfl
  | qStatus =>
    have hr : p ≠ .result := by simpa [commandWrites] using hp
    exact exec_keeps_part_of_body h (fun _ => rfl) (p.same_setResult hr _ hs)
  | evLine | slvSdaFall | slvSdaRise | slvSclRise | slvSclFall | snfSdaFall | snfSdaRise | snfSclRise | snfSclFall =>
    simp [Instr.isCommand, Instr.opcode] at hc

theorem exec_live_of_runCommand {i : Instr} {l : Option Line} {body : State → State} {s : State}
    (hx : ∀ s, exec i s = runCommand i l body s) (hs : s.live = true) : ∃ t, exec i s = .next t :=
  ⟨_, (hx s).trans (runCommand_live hs)⟩

/-- A live block answers every command, M.READ_BYTES where the length fits the buffer (42_master.md R150; entry 19). -/
theorem exec_command_live {i : Instr} {s : State} (hc : i.isCommand = true) (hs : s.live = true)
    (hfits : ∀ a, i = .mReadBytes a → s.m.len.toNat ≤ s.params.bufSize) : ∃ t, exec i s = .next t := by
  cases i with
  | mReadBytes a => exact ⟨_, (exec_mReadBytes a (hfits a rfl)).trans (runCommand_live hs)⟩
  | evLine | slvSdaFall | slvSdaRise | slvSclRise | slvSclFall | snfSdaFall | snfSdaRise | snfSclRise | snfSclFall =>
    simp [Instr.isCommand, Instr.opcode] at hc
  | _ => exact exec_live_of_runCommand (fun _ => rfl) hs

/-- Settles O54: the commands that a clause excepts are those that write its part. -/
theorem commandsEndAndKeepTheRest : Obligations.CommandsEndAndKeepTheRest := by
  intro i s hc hs
  refine ⟨exec_command_live hc hs, fun t h => ?_⟩
  have hkeep (p : Part) (hp : p ∉ commandWrites i) : p.same s t := exec_keeps_part p hc h hp
  have hconfig := (keepsConfiguration_kept s).exec h ⟨rfl, rfl, rfl, rfl⟩
  have hline : Nonempty Line := ⟨.sda⟩
  have hdir : Nonempty Dir := ⟨.inp⟩
  clear h
  obtain ⟨hinputs, hread⟩ := Prod.mk.inj (hkeep .ports (by cases i <;> simp [commandWrites]))
  refine ⟨hconfig, hinputs, hread, fun hi => hkeep .snap ?_, fun hi => memRead_congr hconfig.params (hkeep .buffer ?_),
    fun hi => hkeep .len ?_, fun hi => hkeep .status ?_, fun hi => hkeep .lastAck ?_, fun hi => hkeep .result ?_,
    fun hi => hkeep .fifo ?_, fun hi => Prod.mk.inj (hkeep .dirs ?_), fun hi => Prod.mk.inj (hkeep .latches ?_)⟩
  all_goals
    clear hkeep hconfig hinputs hread hc
    cases i <;> simp_all [commandWrites]

end Sys2Proof.Machine
end

section
/-! SUPPORT. A slave alone on the bus of the block's own master: what one event step and one line action make of it
(41_line_and_edge.md R130, R131, R136; 43_slave.md R190). -/

namespace Sys2Proof.Machine

/-! ### The answer of a slave to an event -/

/-- What a handler leaves, `r`, with the callback that it may invoke returning: the slave afterwards and the invocations
that are recorded of the first engine (43_slave.md R210, R212). -/
def Slave.Answers (r : Slave × Option Call) (w : Slave) (calls : List CbRec) : Prop :=
  match r.2 with
  | none => w = r.1 ∧ calls = []
  | some c => ∃ b script, w = afterCallback c.kind b { r.1 with script := script } ∧
      calls = [⟨0, c.kind, c.byte, c.index⟩]

/-- The callback of an obedient slave returns (43_slave.md R211). -/
theorem invoke_obedient {v : Slave} (hv : (Engine.slave v).obedient = true) (i : Nat) (c : Call) (s : State) :
    ∃ b script, invoke i v c s = ((s.recordCall i c).putEngine i
      (.slave (afterCallback c.kind b { v with script := script }))).leaveHandler := by
  simp only [Engine.obedient, Bool.and_eq_true, List.all_eq_true] at hv
  simp only [invoke]
  split
  · exact ⟨_, v.script, rfl⟩
  · next b r _ => exact ⟨b, r, rfl⟩
  · next x r hr =>
    have hreply := hv.2 (.issues x) (by rw [hr]; exact List.mem_cons_self)
    cases hreply
  · next r hr =>
    have hreply := hv.2 .hangs (by rw [hr]; exact List.mem_cons_self)
    cases hreply

/-- The step of the first engine, an obedient slave: its answer and the propagation of its output's change. -/
theorem runSlave_answers {l : Line} {e : Edge} {v : Slave} (hv : (Engine.slave v).obedient = true) (s : State) :
    ∃ w calls t, runSlave (slaveHandler l e) 0 v s = propagate s t ∧ Slave.Answers (slaveHandler l e v) w calls ∧
      t.registry = s.registry.set 0 (.slave w) ∧ t.callbacks = s.callbacks ++ calls ∧ t.wiring = s.wiring ∧ t.m = s.m ∧
      t.env = s.env ∧ t.events = s.events := by
  have hfixed := slaveHandler_fixed l e v
  simp only [runSlave, Slave.Answers]
  split
  · next v' hr =>
    rw [hr]
    exact ⟨v', [], _, rfl, ⟨rfl, rfl⟩, rfl, (List.append_nil _).symm, rfl, rfl, rfl, rfl⟩
  · next v' c hr =>
    rw [hr] at hfixed ⊢
    simp only [Slave.fixed, Prod.mk.injEq] at hfixed
    obtain ⟨-, -, -, hscript, hstuck⟩ := hfixed
    have hv' : (Engine.slave v').obedient = true := by
      simpa only [Engine.obedient, hscript, hstuck] using hv
    obtain ⟨b, script, hinvoke⟩ := invoke_obedient hv' 0 c s.enterHandler
    exact ⟨_, _, _, congrArg (propagate s) hinvoke, ⟨b, script, rfl, rfl⟩, rfl, rfl, rfl, rfl, rfl, rfl⟩

/-- An answer keeps the configuration fields and the stored levels. -/
theorem Slave.Answers.fixed {l : Line} {e : Edge} {v w : Slave} {calls : List CbRec}
    (h : Slave.Answers (slaveHandler l e v) w calls) :
    (Engine.slave w).identity = (Engine.slave v).identity ∧ w.sdaLvl = v.sdaLvl ∧ w.sclLvl = v.sclLvl := by
  have hfixed := slaveHandler_fixed l e v
  simp only [Slave.fixed, Prod.mk.injEq] at hfixed
  obtain ⟨hid, hsda, hscl, -, -⟩ := hfixed
  simp only [Slave.Answers] at h
  split at h
  · rw [h.1]
    exact ⟨hid, hsda, hscl⟩
  · next c _ =>
    obtain ⟨b, script, rfl, -⟩ := h
    have hafter := afterCallback_fixed c.kind b { (slaveHandler l e v).1 with script := script }
    simp only [Slave.fixed, Prod.mk.injEq] at hafter
    obtain ⟨hid', hsda', hscl', -, -⟩ := hafter
    exact ⟨hid'.trans hid, hsda'.trans hsda, hscl'.trans hscl⟩

/-- A handler that invokes no callback has one answer. -/
theorem Slave.Answers.of_silent {r : Slave × Option Call} {v w : Slave} {calls : List CbRec}
    (h : Slave.Answers r w calls) (hr : r = (v, none)) : w = v ∧ calls = [] := by
  subst hr
  exact h

/-! ### A slave alone on the bus -/

/-- The block's own master and one slave are on the bus, each with a pin on each wire, the engines react, and no external
agent does anything. -/
structure OnBus (s : State) (v : Slave) : Prop where
  registry : s.registry = [.slave v]
  wiring   : wireOf s.wiring v.sdaPin = some .sda ∧ wireOf s.wiring v.sclPin = some .scl
  reactive : s.reactive = true
  master   : ∃ c, s.m.cfg = some c ∧ wireOf s.wiring c.sdaPin = some .sda ∧ wireOf s.wiring c.sclPin = some .scl
  dirs     : s.m.sdaDir = .out ∧ s.m.sclDir = .out
  quiet    : s.quiet

/-- The pin of a slave on the given side. -/
def Slave.pin (v : Slave) : Line → Pin
  | .sda => v.sdaPin
  | .scl => v.sclPin

section
variable {s t : State} {v w : Slave} (h : OnBus s v)
include h

/-- SDA is driven by the master and the slave (41_line_and_edge.md R130). -/
theorem OnBus.wire_sda : s.wire .sda = (s.m.sdaLatch && v.sdaDrv) := by
  obtain ⟨c, hc, hsda, -⟩ := h.master
  simp [State.wire, h.registry, Engine.drives, h.wiring.1, Env.drives, h.quiet.1, Master.drives, hc, MasterCfg.pinOf, hsda,
    Master.mout, Master.dir, h.dirs.1, Master.latch]

/-- SCL is driven by the master alone (41_line_and_edge.md R130). -/
theorem OnBus.wire_scl : s.wire .scl = s.m.sclLatch := by
  obtain ⟨c, hc, -, hscl⟩ := h.master
  simp [State.wire, h.registry, Engine.drives, Env.drives, h.quiet.2.1, Master.drives, hc, MasterCfg.pinOf, hscl,
    Master.mout, Master.dir, h.dirs.2, Master.latch]

/-- A change of a wire notifies the slave's pin on it, and no other (41_line_and_edge.md R131). -/
theorem OnBus.notices (l : Line) : s.notices l = [⟨s.instant, v.pin l, s.wire l⟩] := by
  cases l <;>
    simp [State.notices, h.registry, Engine.pinsOn, Engine.sdaPin, Engine.sclPin, Slave.pin, h.wiring.1, h.wiring.2]

theorem OnBus.obedient : (Engine.slave v).obedient = true :=
  (((reactive_iff s).1 h.reactive).2 _ (by rw [h.registry]; exact List.mem_singleton.2 rfl)).1

/-- The slave owns its two pins, which are distinct (45_dispatch.md R264). -/
theorem OnBus.slaveAt (l : Line) : SlaveAt s (v.pin l) l 0 v := by
  have hne : v.sdaPin ≠ v.sclPin := by
    intro he
    have hwires := h.wiring.1.symm.trans (he ▸ h.wiring.2)
    cases hwires
  refine ⟨?_, by rw [h.registry]; rfl, obedient_not_stuck h.obedient⟩
  cases l <;> simp [State.owner, h.registry, ownerFrom, Engine.sdaPin, Engine.sclPin, Slave.pin, hne]

/-- A slave of the same identity in the place of `v`, on a bus with the same master and quiet agents. -/
theorem OnBus.replace (hr : t.registry = [.slave w]) (hid : (Engine.slave w).identity = (Engine.slave v).identity)
    (hw : t.wiring = s.wiring) (hc : t.m.cfg = s.m.cfg) (hd : t.m.sdaDir = s.m.sdaDir ∧ t.m.sclDir = s.m.sclDir)
    (hq : t.quiet) (hre : t.reactive = true) : OnBus t w := by
  have hpins : w.sdaPin = v.sdaPin ∧ w.sclPin = v.sclPin := identity_pins hid
  refine ⟨hr, ?_, hre, ?_, ⟨hd.1.trans h.dirs.1, hd.2.trans h.dirs.2⟩, hq⟩
  · rw [hw, hpins.1, hpins.2]
    exact h.wiring
  · rw [hw, hc]
    exact h.master

/-- An event that brings a new level to the slave: its answer, and the propagation of its output's change. -/
theorem OnBus.event {l : Line} {level : Level} (hl : v.lvl l ≠ level) :
    ∃ w calls t, Machine.event (v.pin l) level s = propagate s t ∧ t.events = s.events ∧ t.m = s.m ∧
      Slave.Answers (slaveHandler l (edgeOf level) (v.store l level)) w calls ∧ t.callbacks = s.callbacks ++ calls ∧
      OnBus t w := by
  have hat := h.slaveAt l
  have hob : (Engine.slave (v.store l level)).obedient = true := by
    simpa [Engine.obedient] using h.obedient
  obtain ⟨w, calls, t, hrun, hanswer, hreg, hcb, hw, hm, henv, hev⟩ :=
    runSlave_answers (l := l) (e := edgeOf level) hob s
  obtain ⟨-, u, hrun', -, -, -, -, -, -, hre, -⟩ := runSlave_reactive (l := l) (e := edgeOf level) h.reactive hat.engine
    (slave_store_identity l level v) (slave_store_script l level v) (slave_store_stuck l level v)
  have hreact : t.reactive = true := by
    have ht : (propagate s t).reactive = t.reactive := reactive_congr (by simp) (by simp) (by simp)
    have hu : (propagate s u).reactive = u.reactive := reactive_congr (by simp) (by simp) (by simp)
    rw [← ht, ← hrun, hrun', hu, hre]
  refine ⟨w, calls, t, ?_, hev, hm, hanswer, hcb, ?_⟩
  · simp only [Machine.event, hat.selected hl, hrun]
  · exact h.replace (by rw [hreg, h.registry]; rfl) (hanswer.fixed.1.trans (slave_store_identity l level v)) hw
      (by rw [hm]) (by rw [hm]; exact ⟨rfl, rfl⟩) (State.quiet.congr (s := s) h.quiet henv) hreact

/-- The engines' reaction to one pending event of the slave: the answer, and where it changes the slave's output, the
event of SDA that follows. -/
theorem OnBus.settle_event {l : Line} {level : Level} {n : Nat} (he : s.events = [⟨n, v.pin l, level⟩])
    (hl : v.lvl l ≠ level) :
    ∃ w calls u, settle s = settle u ∧ u.m = s.m ∧
      Slave.Answers (slaveHandler l (edgeOf level) (v.store l level)) w calls ∧ u.callbacks = s.callbacks ++ calls ∧
      OnBus u w ∧ ((s.m.sdaLatch && w.sdaDrv) = (s.m.sdaLatch && v.sdaDrv) → u.events = []) ∧
      ((s.m.sdaLatch && w.sdaDrv) ≠ (s.m.sdaLatch && v.sdaDrv) →
        ∃ k, u.events = [⟨k, w.sdaPin, s.m.sdaLatch && w.sdaDrv⟩]) := by
  obtain ⟨e, s', htake, hsettle⟩ := settle_takes_event h.reactive (by rw [he]; exact List.cons_ne_nil _ _)
  obtain ⟨hmem, -, cs, d, hs'⟩ := takeEvent_spec htake
  rw [he, List.mem_singleton] at hmem
  subst hmem
  have hempty : s'.events = [] := by simp [hs', he]
  have hmaster : s'.m = s.m := by rw [hs']
  have hbus : OnBus s' v := by
    rw [hs']
    exact h.replace h.registry rfl rfl rfl ⟨rfl, rfl⟩ h.quiet ((reactive_congr rfl rfl rfl).trans h.reactive)
  obtain ⟨w, calls, t, hev, hnil, hm, hanswer, hcb, ht⟩ := hbus.event hl
  rw [hev] at hsettle
  have hqueue := propagate_events s' t
  rw [hbus.wire_sda, hbus.wire_scl, ht.wire_sda, ht.wire_scl, hnil, hempty, ht.notices, ht.wire_sda, hm, hmaster,
    if_pos rfl] at hqueue
  refine ⟨w, calls, _, hsettle, by rw [propagate_m, hm, hmaster], hanswer, by rw [propagate_callbacks, hcb, hs'], ?_,
    fun hsame => ?_, fun hdiff => ?_⟩
  · exact ht.replace (by rw [propagate_registry, ht.registry]) rfl (propagate_wiring _ t) (by rw [propagate_m])
      (by rw [propagate_m]; exact ⟨rfl, rfl⟩) (State.quiet.congr (s := t) ht.quiet (propagate_env _ t))
      ((reactive_congr (by simp) (by simp) (by simp)).trans ht.reactive)
  · rw [hqueue, if_pos hsame.symm]
    rfl
  · rw [hqueue, if_neg (Ne.symm hdiff)]
    exact ⟨t.instant, rfl⟩

end

end Sys2Proof.Machine
end

section
/-! SUPPORT. A slave alone on the bus through the master's line actions and clock pulses (42_master.md R151, R154, R155). -/

namespace Sys2Proof.Machine

/-! ### What a handler does to the slave's output -/

/-- With SCL low an edge of SDA is data: the slave does nothing (43_slave.md R192). -/
theorem slaveHandler_sda_low (e : Edge) {v : Slave} (h : v.sclLvl = false) : slaveHandler .sda e v = (v, none) := by
  cases e <;> simp [slaveHandler, slaveSdaFall, slaveSdaRise, h]

/-- With SCL high a falling edge of SDA is a start condition (43_slave.md R193). -/
theorem Slave.Answers.of_start {v w : Slave} {calls : List CbRec} (h : Slave.Answers (slaveHandler .sda .fall v) w calls)
    (hv : v.sclLvl = true) : ∃ script, w = { v.clear .started with script := script } := by
  simp only [Slave.Answers, slaveHandler, slaveSdaFall, hv, if_true] at h
  obtain ⟨b, script, hw, -⟩ := h
  exact ⟨script, hw⟩

/-- An edge of SDA leaves a released SDA released (43_slave.md R192 to R194). -/
theorem Slave.Answers.released_sda {e : Edge} {v w : Slave} {calls : List CbRec}
    (h : Slave.Answers (slaveHandler .sda e v) w calls) (hv : v.sdaDrv = true) : w.sdaDrv = true := by
  cases hscl : v.sclLvl with
  | false =>
    rw [slaveHandler_sda_low e hscl] at h
    rw [h.1]
    exact hv
  | true =>
    cases e with
    | fall =>
      obtain ⟨script, rfl⟩ := h.of_start hscl
      rfl
    | rise =>
      simp only [Slave.Answers, slaveHandler, slaveSdaRise, hscl, if_true] at h
      obtain ⟨b, script, rfl, -⟩ := h
      rfl

/-- A rising edge of SCL changes no output (43_slave.md R195 to R199). -/
theorem Slave.Answers.drives_rise {v w : Slave} {calls : List CbRec}
    (h : Slave.Answers (slaveHandler .scl .rise v) w calls) : w.sdaDrv = v.sdaDrv := by
  have hbit : (v.receiveBit).1.sdaDrv = v.sdaDrv ∧ ∀ c, (v.receiveBit).2 = some c → c.kind = .receive := by
    simp only [Slave.receiveBit]
    split
    · exact ⟨rfl, fun c hc => by cases hc; rfl⟩
    · exact ⟨rfl, fun c hc => by cases hc⟩
  have haddress : v.addressBit.sdaDrv = v.sdaDrv := by
    simp only [Slave.addressBit, Slave.addressDone]
    repeat' split
    all_goals rfl
  have hhandler : (slaveHandler .scl .rise v).1.sdaDrv = v.sdaDrv ∧
      ∀ c, (slaveHandler .scl .rise v).2 = some c → c.kind = .receive := by
    simp only [slaveHandler, slaveSclRise]
    repeat' split
    · exact ⟨haddress, fun c hc => by cases hc⟩
    · exact hbit
    all_goals exact ⟨rfl, fun c hc => by cases hc⟩
  simp only [Slave.Answers] at h
  split at h
  · rw [h.1, hhandler.1]
  · next c hc =>
    obtain ⟨b, script, rfl, -⟩ := h
    rw [hhandler.2 c hc]
    exact hhandler.1

/-! ### Between line actions -/

/-- A slave alone on the bus with no event pending: its stored levels are those of the wires. -/
structure Alone (s : State) (v : Slave) : Prop extends OnBus s v where
  events : s.events = []
  sdaLvl : v.sdaLvl = (s.m.sdaLatch && v.sdaDrv)
  sclLvl : v.sclLvl = s.m.sclLatch

theorem AloneOnBus.alone {s : State} {v : Slave} (h : AloneOnBus s v) : Alone s v := by
  have hbus : OnBus s v := ⟨h.registry, h.wiring, calm_reactive h.calm, h.master, h.dirs, h.quiet⟩
  exact ⟨hbus, ((calm_iff s).1 h.calm).2, h.levels.1.trans hbus.wire_sda, h.levels.2.trans hbus.wire_scl⟩

/-- Storing the level that is stored changes nothing. -/
theorem store_sda_same {v : Slave} {b : Level} (h : v.sdaLvl = b) : v.store .sda b = v := by
  subst h
  rfl

section
variable {s : State} {v : Slave} (h : Alone s v)
include h

/-- A change of registers of the master that drive no line. -/
theorem Alone.upd {f : Master → Master} (hf : ∀ m, ((f m).cfg, (f m).sdaDir, (f m).sclDir, (f m).sdaLatch, (f m).sclLatch)
    = (m.cfg, m.sdaDir, m.sclDir, m.sdaLatch, m.sclLatch)) : Alone (s.upd f) v := by
  have hm := upd_m s (f := f) (reactive_live h.reactive)
  have hs := hf s.m
  simp only [Prod.mk.injEq] at hs
  obtain ⟨hc, hd, hd', hl, hl'⟩ := hs
  refine ⟨h.replace ((upd_registry s f).trans h.registry) rfl (upd_wiring s f) (by rw [hm, hc]) (by rw [hm]; exact ⟨hd, hd'⟩)
    (State.quiet.congr (s := s) h.quiet (upd_env s f)) ?_, (upd_events s f).trans h.events, by rw [hm, hl, h.sdaLvl],
    by rw [hm, hl', h.sclLvl]⟩
  exact (reactive_congr (upd_live s f) (upd_registry s f) (upd_wiring s f)).trans h.reactive

theorem Alone.setPhase (p : Proto) : Alone (setPhase p s) v := h.upd fun _ => rfl

theorem Alone.setLastAck (b : Bool) : Alone (setLastAck b s) v := h.upd fun _ => rfl

theorem Alone.setResult (r : Byte) : Alone (setResult r s) v := h.upd fun _ => rfl

theorem Alone.finish (l : Option Line) : Alone (s.finish l) v := h.upd fun _ => rfl

theorem Alone.lineD (n : Nat) : Alone (lineD n s) v ∧ (Machine.lineD n s).callbacks = s.callbacks := by
  have hupd : Alone (s.upd fun m => { m with actions := m.actions + 1, delays := m.delays + n }) v := h.upd fun _ => rfl
  rw [Machine.lineD, agents_idle hupd.quiet.2.2]
  exact ⟨hupd, upd_callbacks s _⟩

omit h in
/-- The state whose master has written a latch, before the change of the wire is propagated (41_line_and_edge.md R121). -/
def latched (l : Line) (b : Level) (s : State) : State :=
  { s with m := { s.m.setLatch l b with actions := s.m.actions + 1 } }

theorem Alone.latched (l : Line) (b : Level) : OnBus (latched l b s) v :=
  h.replace h.registry rfl rfl (by cases l <;> rfl) (by cases l <;> exact ⟨rfl, rfl⟩) h.quiet
    ((reactive_congr rfl rfl rfl).trans h.reactive)

theorem Alone.wire (l : Line) : s.wire l = v.lvl l := by
  cases l
  · exact h.wire_sda.trans h.sdaLvl.symm
  · exact h.wire_scl.trans h.sclLvl.symm

/-- A write of a latch changes its own wire alone, and notifies the slave's pin on it. -/
theorem Alone.latched_notice (l : Line) (b : Level) :
    (propagate s (Machine.latched l b s)).events =
      if v.lvl l = (Machine.latched l b s).wire l then [] else [⟨s.instant, v.pin l, (Machine.latched l b s).wire l⟩] := by
  have hx := h.latched l b
  have hnil : (Machine.latched l b s).events = [] := h.events
  rw [propagate_events, hnil, List.nil_append, hx.notices, hx.notices, ← h.wire l]
  cases l with
  | sda =>
    have hscl : s.wire .scl = (Machine.latched .sda b s).wire .scl := h.wire_scl.trans hx.wire_scl.symm
    rw [if_pos hscl, List.append_nil]
    rfl
  | scl =>
    have hsda : s.wire .sda = (Machine.latched .scl b s).wire .sda := h.wire_sda.trans hx.wire_sda.symm
    rw [if_pos hsda, List.nil_append]
    rfl

/-- A write of a latch is over once the engines have reacted to the one notification of the wire's change, if it
changed. -/
theorem Alone.lineW_notice (l : Line) (b : Level) :
    ∃ y, Machine.lineW l b s = settle y ∧ OnBus y v ∧ y.m = { s.m.setLatch l b with actions := s.m.actions + 1 } ∧
      y.callbacks = s.callbacks ∧ (v.lvl l = y.wire l → y.events = []) ∧
      (v.lvl l ≠ y.wire l → y.events = [⟨s.instant, v.pin l, y.wire l⟩]) := by
  have hx := h.latched l b
  have hm := propagate_m s (Machine.latched l b s)
  have hwire := propagate_wire s (Machine.latched l b s) l
  refine ⟨propagate s (Machine.latched l b s), ?_, ?_, hm, propagate_callbacks s _, fun hsame => ?_, fun hdiff => ?_⟩
  · rw [Machine.lineW, act_quiet _ h.quiet, drive_live _ (reactive_live h.reactive)]
    rfl
  · exact hx.replace ((propagate_registry s _).trans hx.registry) rfl (propagate_wiring s _) (by rw [hm])
      (by rw [hm]; exact ⟨rfl, rfl⟩) (State.quiet.congr hx.quiet (propagate_env s _))
      ((reactive_congr (propagate_live s _) (propagate_registry s _) (propagate_wiring s _)).trans hx.reactive)
  · rw [h.latched_notice, if_pos (hsame.trans hwire)]
  · rw [hwire] at hdiff ⊢
    rw [h.latched_notice, if_neg hdiff]

/-- What a write of the SDA latch makes of the slave: nothing where SDA keeps its level, and otherwise its answer to the
edge of SDA. -/
theorem Alone.lineW_sda (b : Level) :
    (v.sdaLvl = (b && v.sdaDrv) →
      Alone (Machine.lineW .sda b s) v ∧ (Machine.lineW .sda b s).callbacks = s.callbacks) ∧
    (v.sdaLvl ≠ (b && v.sdaDrv) → ∃ w calls,
      Slave.Answers (slaveHandler .sda (edgeOf (b && v.sdaDrv)) (v.store .sda (b && v.sdaDrv))) w calls ∧
      Alone (Machine.lineW .sda b s) w ∧ (Machine.lineW .sda b s).callbacks = s.callbacks ++ calls) := by
  obtain ⟨y, hline, hy, hm, hcb, hsame, hdiff⟩ := h.lineW_notice .sda b
  have hlatch : y.m.sdaLatch = b := by rw [hm]; rfl
  have hscl : y.m.sclLatch = s.m.sclLatch := by rw [hm]; rfl
  rw [hy.wire_sda, hlatch] at hsame hdiff
  rw [hline]
  refine ⟨fun hl => ?_, fun hl => ?_⟩
  · have hnil := hsame hl
    rw [settle_nil hnil]
    exact ⟨⟨hy, hnil, by rw [hlatch, hl], h.sclLvl.trans hscl.symm⟩, hcb⟩
  · obtain ⟨w, calls, u, hsettle, hum, hanswer, hucb, hu, hquiet, -⟩ := hy.settle_event (hdiff hl) hl
    have hreleased : v.sdaDrv = true := by
      by_contra hd
      have hpulled : v.sdaDrv = false := Bool.eq_false_iff.2 hd
      rw [h.sdaLvl, hpulled, Bool.and_false, Bool.and_false] at hl
      exact hl rfl
    have hw : w.sdaDrv = v.sdaDrv :=
      (hanswer.released_sda ((slave_store_sdaDrv _ _ _).trans hreleased)).trans hreleased.symm
    obtain ⟨-, hsda, hsclLvl⟩ := hanswer.fixed
    have hnil := hquiet (by rw [hw])
    rw [hsettle, settle_nil hnil]
    refine ⟨w, calls, hanswer, ⟨hu, hnil, ?_, ?_⟩, by rw [hucb, hcb]⟩
    · rw [hsda, hum, hlatch, hw]
      rfl
    · rw [hsclLvl, hum, hscl]
      exact h.sclLvl

/-- What a write of the SCL latch makes of the slave: nothing where SCL keeps its level, and otherwise its answer to the
edge of SCL, and the level of SDA stored that its answer makes. -/
theorem Alone.lineW_scl (b : Level) :
    (v.sclLvl = b → Alone (Machine.lineW .scl b s) v ∧ (Machine.lineW .scl b s).callbacks = s.callbacks) ∧
    (v.sclLvl ≠ b → ∃ w calls, Slave.Answers (slaveHandler .scl (edgeOf b) (v.store .scl b)) w calls ∧
      Alone (Machine.lineW .scl b s) (w.store .sda (s.m.sdaLatch && w.sdaDrv)) ∧
      (Machine.lineW .scl b s).callbacks = s.callbacks ++ calls) := by
  obtain ⟨y, hline, hy, hm, hcb, hsame, hdiff⟩ := h.lineW_notice .scl b
  have hlatch : y.m.sclLatch = b := by rw [hm]; rfl
  have hsda : y.m.sdaLatch = s.m.sdaLatch := by rw [hm]; rfl
  rw [hy.wire_scl, hlatch] at hsame hdiff
  rw [hline]
  refine ⟨fun hl => ?_, fun hl => ?_⟩
  · have hnil := hsame hl
    rw [settle_nil hnil]
    exact ⟨⟨hy, hnil, h.sdaLvl.trans (by rw [hsda]), hl.trans hlatch.symm⟩, hcb⟩
  · obtain ⟨w, calls, u, hsettle, hum, hanswer, hucb, hu, hquiet, hmoved⟩ := hy.settle_event (hdiff hl) hl
    obtain ⟨-, hsdaLvl, hsclLvl⟩ := hanswer.fixed
    rw [hsda] at hquiet hmoved
    refine ⟨w, calls, hanswer, ?_⟩
    by_cases hsameDrv : (s.m.sdaLatch && w.sdaDrv) = (s.m.sdaLatch && v.sdaDrv)
    · have hnil := hquiet hsameDrv
      have hstored : w.sdaLvl = (s.m.sdaLatch && w.sdaDrv) := by
        rw [hsdaLvl, hsameDrv]
        exact h.sdaLvl
      rw [hsettle, settle_nil hnil, store_sda_same hstored]
      exact ⟨⟨hu, hnil, by rw [hum, hsda, hstored], by rw [hsclLvl, hum, hlatch]; rfl⟩, by rw [hucb, hcb]⟩
    · obtain ⟨k, hev⟩ := hmoved hsameDrv
      have hfall : b = false := by
        cases b with
        | false => rfl
        | true => exact absurd (by rw [hanswer.drives_rise, slave_store_sdaDrv]) hsameDrv
      subst hfall
      have hlevel : w.lvl .sda ≠ (s.m.sdaLatch && w.sdaDrv) := by
        intro hstored
        exact hsameDrv (hstored.symm.trans (hsdaLvl.trans h.sdaLvl))
      obtain ⟨w', calls', u', hsettle', hum', hanswer', hucb', hu', hquiet', -⟩ := hu.settle_event hev hlevel
      obtain ⟨rfl, rfl⟩ := hanswer'.of_silent (slaveHandler_sda_low _ hsclLvl)
      have hnil := hquiet' rfl
      rw [hsettle, hsettle', settle_nil hnil]
      exact ⟨⟨hu', hnil, by rw [hum', hum, hsda]; rfl, by rw [hum', hum, hlatch]; exact hsclLvl⟩,
        by rw [hucb', hucb, hcb, List.append_nil]⟩

theorem Alone.calm : s.calm = true := (calm_iff s).2 ⟨h.reactive, h.events⟩

/-! ### Clock pulses -/

/-- With SCL low a write of SDA is data: the slave stores the level. -/
theorem Alone.lineW_sda_low (hscl : v.sclLvl = false) (b : Level) :
    Alone (Machine.lineW .sda b s) (v.store .sda (b && v.sdaDrv)) ∧
      (Machine.lineW .sda b s).callbacks = s.callbacks := by
  obtain ⟨hsame, hdiff⟩ := h.lineW_sda b
  by_cases hl : v.sdaLvl = (b && v.sdaDrv)
  · rw [store_sda_same hl]
    exact hsame hl
  · obtain ⟨w, calls, hanswer, halone, hcb⟩ := hdiff hl
    obtain ⟨rfl, rfl⟩ := hanswer.of_silent (slaveHandler_sda_low _ hscl)
    exact ⟨halone, by rw [hcb, List.append_nil]⟩

/-- The rising edge of a clock pulse: the slave answers it, and SDA keeps its level (42_master.md R155). -/
theorem Alone.clockHigh (hscl : v.sclLvl = false) :
    ∃ w calls, Slave.Answers (slaveSclRise { v with sclLvl := true }) w calls ∧ Alone (clockHigh s) w ∧
      (Machine.clockHigh s).m.sdaLatch = s.m.sdaLatch ∧ (Machine.clockHigh s).callbacks = s.callbacks ++ calls := by
  obtain ⟨w, calls, hrise, hup, hupCb⟩ := (h.lineW_scl true).2 (by simp [hscl])
  have hat := ((At.of h.calm).lineW .scl true).lineD 1
  have hstored : w.sdaLvl = (s.m.sdaLatch && w.sdaDrv) := by
    rw [hrise.fixed.2.1, hrise.drives_rise]
    exact h.sdaLvl
  rw [store_sda_same hstored] at hup
  obtain ⟨hhigh, hhighCb⟩ := hup.lineD 1
  have hlatch : (Machine.lineD 1 (Machine.lineW .scl true s)).m.sdaLatch = s.m.sdaLatch := by
    rw [hat.master]
    rfl
  exact ⟨w, calls, hrise, hhigh, hlatch, hhighCb.trans hupCb⟩

/-- The falling edge of a clock pulse: the slave answers it, and stores the level of SDA that its answer makes. -/
theorem Alone.clockLow (hscl : v.sclLvl = true) :
    ∃ w calls, Slave.Answers (slaveSclFall { v with sclLvl := false }) w calls ∧
      Alone (clockLow s) (w.store .sda (s.m.sdaLatch && w.sdaDrv)) ∧
      (Machine.clockLow s).callbacks = s.callbacks ++ calls := by
  obtain ⟨w, calls, hfall, hdown, hdownCb⟩ := (h.lineW_scl false).2 (by simp [hscl])
  obtain ⟨hlow, hlowCb⟩ := hdown.lineD 1
  exact ⟨w, calls, hfall, hlow, hlowCb.trans hdownCb⟩

/-- One clock pulse with a level of the SDA latch: the slave answers the rising edge with the level of SDA stored, SDA is
then what master and slave make it, and the slave answers the falling edge (42_master.md R154, R155). -/
theorem Alone.pulse (hscl : v.sclLvl = false) (b : Level) :
    ∃ w calls w' calls',
      Slave.Answers (slaveSclRise { v with sdaLvl := b && v.sdaDrv, sclLvl := true }) w calls ∧
      (Machine.clockHigh (Machine.lineW .sda b s)).wire .sda = (b && w.sdaDrv) ∧
      Slave.Answers (slaveSclFall { w with sclLvl := false }) w' calls' ∧
      Alone (Machine.clockLow (Machine.clockHigh (Machine.lineW .sda b s))) (w'.store .sda (b && w'.sdaDrv)) ∧
      (Machine.clockLow (Machine.clockHigh (Machine.lineW .sda b s))).callbacks = s.callbacks ++ calls ++ calls' := by
  obtain ⟨hdata, hdataCb⟩ := h.lineW_sda_low hscl b
  have hlatch : (Machine.lineW .sda b s).m.sdaLatch = b := by
    rw [lineW_m _ _ h.calm]
    rfl
  obtain ⟨w, calls, hrise, hhigh, hhighLatch, hhighCb⟩ := hdata.clockHigh hscl
  have hup : w.sclLvl = true := (Slave.Answers.fixed (l := .scl) (e := .rise) hrise).2.2
  obtain ⟨w', calls', hfall, hlow, hlowCb⟩ := hhigh.clockLow hup
  rw [hhighLatch, hlatch] at hlow
  refine ⟨w, calls, w', calls', hrise, ?_, hfall, hlow, by rw [hlowCb, hhighCb, hdataCb]⟩
  rw [hhigh.wire_sda, hhighLatch, hlatch]

end

end Sys2Proof.Machine
end

section
/-! SUPPORT. A slave alone on the bus takes the master's bytes (42_master.md R156, R158; 43_slave.md R193, R197, R198, R201,
R204), and the proofs of the statements on it. -/

namespace Sys2Proof.Machine

/-! ### Bits and bytes -/

/-- Eight bits shifted in, most significant first, are the byte (40_fifo_and_address.md R100, R105). -/
theorem foldl_shiftIn_bitsMsbFirst (v f : Byte) : (bitsMsbFirst v).foldl Fifo.shiftIn f = v := by
  have hbits : bitsMsbFirst ((bitsMsbFirst v).foldl Fifo.shiftIn f) = bitsMsbFirst v := bitsMsbFirst_foldl_shiftIn _ f
  simp only [bitsMsbFirst, List.cons.injEq, and_true] at hbits
  obtain ⟨h7, h6, h5, h4, h3, h2, h1, h0⟩ := hbits
  refine BitVec.eq_of_getLsbD_eq fun k hk => ?_
  interval_cases k <;> assumption

/-- The bits of an address byte are those of the address and the direction bit (42_master.md R158). -/
theorem bitsMsbFirst_concat (a : Addr) (r : Bool) : bitsMsbFirst (a.concat r) = addrBits a ++ [r] := by
  simp [bitsMsbFirst, addrBits]

/-- A slave with the constants of its address matches the bytes of that address, in the direction of the last bit
(40_fifo_and_address.md R106, R108). -/
theorem Slave.Matched.matchAddr {v : Slave} (h : v.Matched) (a : Addr) (r : Bool) :
    v.matchAddr (a.concat r) =
      if a = v.addr then some (if r then Proto.transmitting else .receiving) else none := by
  have hinj (b : Bool) : (a.concat r : Byte) = v.addr.concat b ↔ a = v.addr ∧ r = b := by
    refine ⟨fun hbyte => ?_, fun ⟨ha, hr⟩ => by rw [ha, hr]⟩
    have hbit (k : Nat) := congrArg (BitVec.getLsbD · k) hbyte
    exact ⟨BitVec.eq_of_getLsbD_eq fun k _ => by simpa using hbit (k + 1), by simpa using hbit 0⟩
  simp only [Slave.matchAddr, h.1, h.2, receiveCondOf_eq_concat, transmitCondOf_eq_concat, hinj]
  cases r <;> simp

/-! ### Bits that the slave shifts in -/

/-- Between two bits that the slave shifts in, of an address or of a byte that it receives (43_slave.md R197, R198). -/
structure Slave.Shifting (v : Slave) (p : Proto) (c : BitVec 32) (f : Byte) : Prop where
  proto      : v.proto = p
  ack        : v.ack = .none
  ackSlot    : v.ackSlot = false
  bitCounter : v.bitCounter = c
  fifo       : v.fifo = f
  sdaDrv     : v.sdaDrv = true
  sclLvl     : v.sclLvl = false

/-- The byte that the slave shifts in has room for `n` bits before its last. -/
def ShiftRoom (p : Proto) (c : BitVec 32) (n : Nat) : Prop :=
  p = .started ∧ c.toNat + n < 8 ∨ p = .receiving ∧ c.toNat % 8 + n < 8

/-- The slave with one more bit shifted in. -/
def Slave.shifted (v : Slave) (b : Level) : Slave :=
  { v with sdaLvl := b, sclLvl := true, fifo := Fifo.shiftIn v.fifo b, bitCounter := v.bitCounter + 1 }

theorem toNat_succ_of_small {c : BitVec 32} (h : c.toNat % 8 + 1 < 8) : (c + 1).toNat = c.toNat + 1 := by
  have hlt := c.isLt
  have hsum : (c + 1).toNat = (c.toNat + 1) % 2 ^ 32 := BitVec.toNat_add c 1
  omega

theorem slaveSclRise_started {v : Slave} (h : v.proto = .started) : slaveSclRise v = (v.addressBit, none) := by
  simp only [slaveSclRise, h]

theorem slaveSclRise_receiving {v : Slave} (h : v.proto = .receiving) (hack : v.ackSlot = false ∧ v.ack = .none) :
    slaveSclRise v = v.receiveBit := by
  simp only [slaveSclRise, h, if_pos hack]

section
variable {v : Slave} {p : Proto} {c : BitVec 32} {f : Byte} (hv : v.Shifting p c f)
include hv

/-- Before the last bit of a byte the rising edge of SCL shifts SDA in and invokes nothing. -/
theorem Slave.Shifting.rise (hroom : ShiftRoom p c 1) (b : Level) :
    slaveSclRise { v with sdaLvl := b, sclLvl := true } = (v.shifted b, none) := by
  obtain ⟨rfl, hlt⟩ | ⟨rfl, hlt⟩ := hroom
  · have hnot : v.bitCounter + 1 ≠ 8 := by
      rw [hv.bitCounter]
      bv_omega
    refine (slaveSclRise_started ?_).trans (congrArg (·, none) (if_neg hnot))
    exact hv.proto
  · have hnot : ¬ (v.bitCounter + 1) % 8 = 0 := by
      intro hzero
      have hmod := congrArg BitVec.toNat hzero
      rw [hv.bitCounter, BitVec.toNat_umod, toNat_succ_of_small hlt] at hmod
      simp at hmod
      omega
    refine (slaveSclRise_receiving ?_ ?_).trans (if_neg hnot)
    · exact hv.proto
    · exact ⟨hv.ackSlot, hv.ack⟩

/-- The last bit of a byte that is received invokes the callback (43_slave.md R197). -/
theorem Slave.Shifting.rise_last (hp : p = .receiving) (hlast : (c + 1) % 8 = 0) (b : Level) :
    slaveSclRise { v with sdaLvl := b, sclLvl := true } =
      (v.shifted b, some ⟨.receive, Fifo.shiftIn f b, ((c + 1) / 8).toNat⟩) := by
  rw [← hv.bitCounter] at hlast ⊢
  rw [← hv.fifo]
  refine (slaveSclRise_receiving ?_ ?_).trans (if_pos hlast)
  · exact hv.proto.trans hp
  · exact ⟨hv.ackSlot, hv.ack⟩

/-- The last bit of an address byte compares the byte with the slave's address (43_slave.md R198). -/
theorem Slave.Shifting.rise_addressed (hp : p = .started) (hlast : c + 1 = 8) (b : Level) :
    slaveSclRise { v with sdaLvl := b, sclLvl := true } = ((v.shifted b).addressDone, none) := by
  rw [← hv.bitCounter] at hlast
  refine (slaveSclRise_started ?_).trans (congrArg (·, none) (if_pos hlast))
  exact hv.proto.trans hp

omit hv in
/-- A slave that shifts in, or is not addressed, does nothing on a falling edge of SCL. -/
theorem slaveSclFall_silent {w : Slave} (h : w.proto = .idle ∨ w.proto = .started ∨
    w.proto = .receiving ∧ w.ack = .none ∧ w.ackSlot = false) : slaveSclFall w = (w, none) := by
  obtain hp | hp | ⟨hp, hack, hslot⟩ := h
  · simp only [slaveSclFall, hp]
  · simp only [slaveSclFall, hp]
  · simp [slaveSclFall, hp, hack, hslot]

variable {s : State} (h : Alone s v)
include h

/-- A bit that is not the last of its byte (42_master.md R154; 43_slave.md R197, R198). -/
theorem Alone.writeBit_shift (hroom : ShiftRoom p c 1) (b : Level) :
    ∃ w, Alone (writeBit b s) w ∧ w.Shifting p (c + 1) (Fifo.shiftIn f b) ∧
      (Engine.slave w).identity = (Engine.slave v).identity ∧ (Machine.writeBit b s).callbacks = s.callbacks := by
  obtain ⟨w, calls, w', calls', hrise, -, hfall, halone, hcb⟩ := h.pulse hv.sclLvl b
  have hlevel : (b && v.sdaDrv) = b := by rw [hv.sdaDrv, Bool.and_true]
  rw [hlevel] at hrise
  obtain ⟨rfl, rfl⟩ := hrise.of_silent (hv.rise hroom b)
  have hsilent := slaveSclFall_silent (w := { v.shifted b with sclLvl := false }) (by
    obtain ⟨hp, -⟩ | ⟨hp, -⟩ := hroom
    · exact .inr (.inl (hv.proto.trans hp))
    · exact .inr (.inr ⟨hv.proto.trans hp, hv.ack, hv.ackSlot⟩))
  obtain ⟨rfl, rfl⟩ := hfall.of_silent hsilent
  refine ⟨_, halone, ⟨hv.proto, hv.ack, hv.ackSlot, ?_, ?_, hv.sdaDrv, rfl⟩, rfl,
    hcb.trans (by rw [List.append_nil, List.append_nil])⟩
  · exact congrArg (· + 1) hv.bitCounter
  · exact congrArg (Fifo.shiftIn · b) hv.fifo

end

/-- Bits before the last of their byte, in turn. -/
theorem Alone.writeBits_shift {v : Slave} {p : Proto} {c : BitVec 32} {f : Byte} {s : State} (hv : v.Shifting p c f)
    (h : Alone s v) (bs : List Bool) (hroom : ShiftRoom p c bs.length) :
    ∃ w, Alone (writeBits bs s) w ∧ w.Shifting p (c + BitVec.ofNat 32 bs.length) (bs.foldl Fifo.shiftIn f) ∧
      (Engine.slave w).identity = (Engine.slave v).identity ∧ (Machine.writeBits bs s).callbacks = s.callbacks := by
  induction bs generalizing v c f s with
  | nil =>
    refine ⟨v, h, ?_, rfl, rfl⟩
    simpa using hv
  | cons b bs ih =>
    rw [List.length_cons] at hroom
    have hone : ShiftRoom p c 1 := hroom.imp (fun hr => ⟨hr.1, by omega⟩) fun hr => ⟨hr.1, by omega⟩
    have hrest : ShiftRoom p (c + 1) bs.length := by
      have hsucc : (c + 1).toNat = c.toNat + 1 := toNat_succ_of_small (by obtain hr | hr := hone <;> omega)
      refine hroom.imp (fun hr => ⟨hr.1, ?_⟩) fun hr => ⟨hr.1, ?_⟩ <;> omega
    obtain ⟨w, hw, hshift, hid, hcb⟩ := h.writeBit_shift hv hone b
    obtain ⟨w', hw', hshift', hid', hcb'⟩ := ih hshift hw hrest
    refine ⟨w', hw', ?_, hid'.trans hid, hcb'.trans hcb⟩
    have hcount : c + BitVec.ofNat 32 (b :: bs).length = c + 1 + BitVec.ofNat 32 bs.length := by
      rw [List.length_cons, Nat.add_comm, BitVec.ofNat_add, BitVec.add_assoc]
      rfl
    rw [hcount]
    exact hshift'

/-! ### The acknowledge of a byte -/

/-- The slave holds SDA low for an acknowledge (43_slave.md R201, R202). -/
structure Slave.Acknowledging (v : Slave) (p : Proto) (c : BitVec 32) (f : Byte) : Prop where
  proto      : v.proto = p
  ack        : v.ack = .none
  ackSlot    : v.ackSlot = true
  bitCounter : v.bitCounter = c
  fifo       : v.fifo = f
  sdaDrv     : v.sdaDrv = false
  sclLvl     : v.sclLvl = false

/-- The falling edge of SCL behind the last bit of a byte drives the acknowledge. -/
theorem slaveSclFall_driveAck {v : Slave} (hp : v.proto = .receiving ∨ v.proto = .transmitting)
    (hack : v.ack = .awaitingReceiveAck) : slaveSclFall v = (v.driveAck, none) := by
  obtain hp | hp := hp <;> simp [slaveSclFall, hp, hack]

/-- Behind the acknowledge of its address a slave that will transmit asks for its first byte (43_slave.md R203). -/
theorem slaveSclFall_request {v : Slave} (hp : v.proto = .transmitting) (hack : v.ack = .none) (hc : v.bitCounter = 0) :
    slaveSclFall v = ({ v with ackSlot := false }, some ⟨.request, v.fifo, 1⟩) := by
  simp [slaveSclFall, Slave.transmitPhase, hp, hack, hc]

section
variable {s : State} {v : Slave} (h : Alone s v)
include h

/-- The read of an acknowledge from a slave that does nothing on the rising edge (42_master.md R155, R156). -/
theorem Alone.readAck_still (hscl : v.sclLvl = false)
    (hstill : slaveSclRise { v with sdaLvl := v.sdaDrv, sclLvl := true } =
      ({ v with sdaLvl := v.sdaDrv, sclLvl := true }, none)) :
    (readAck s).2 = !v.sdaDrv ∧ ∃ w calls,
      Slave.Answers (slaveSclFall { v with sdaLvl := v.sdaDrv, sclLvl := false }) w calls ∧
      Alone (Machine.readAck s).1 (w.store .sda w.sdaDrv) ∧
      (Machine.readAck s).1.callbacks = s.callbacks ++ calls := by
  obtain ⟨w, calls, w', calls', hrise, hwire, hfall, halone, hcb⟩ := h.pulse hscl true
  simp only [Bool.true_and] at hrise hwire halone
  obtain ⟨rfl, rfl⟩ := hrise.of_silent hstill
  refine ⟨congrArg ackedOf hwire, w', calls', hfall,
    halone.setLastAck _, ?_⟩
  rw [← List.append_nil s.callbacks, ← hcb]
  exact upd_callbacks _ _

/-- The acknowledge of a receiving slave is read, and released behind its clock (43_slave.md R204). -/
theorem Alone.readAck_receiving {c : BitVec 32} {f : Byte} (hv : v.Acknowledging .receiving c f) :
    (readAck s).2 = true ∧ (Machine.readAck s).1.callbacks = s.callbacks ∧
      ∃ w, Alone (Machine.readAck s).1 w ∧ w.Shifting .receiving c f := by
  obtain ⟨hsample, w, calls, hfall, halone, hcb⟩ :=
    h.readAck_still hv.sclLvl (by simp [slaveSclRise, hv.proto, hv.ackSlot])
  rw [show slaveSclFall { v with sdaLvl := v.sdaDrv, sclLvl := false } =
    ({ v with sdaLvl := v.sdaDrv, sclLvl := false }.releaseAck, none) by
      simp [slaveSclFall, hv.proto, hv.ack, hv.ackSlot]] at hfall
  obtain ⟨rfl, rfl⟩ := hfall.of_silent rfl
  exact ⟨by rw [hsample, hv.sdaDrv]; rfl, by rw [hcb, List.append_nil], _, halone,
    ⟨hv.proto, hv.ack, rfl, hv.bitCounter, hv.fifo, rfl, rfl⟩⟩

/-- The acknowledge of a slave that will transmit is read; behind its clock the slave asks for its first byte
(43_slave.md R203). -/
theorem Alone.readAck_transmitting {f : Byte} (hv : v.Acknowledging .transmitting 0 f) :
    (readAck s).2 = true ∧ ∃ w, Alone (Machine.readAck s).1 w ∧ w.proto = .transmitting := by
  obtain ⟨hsample, w, calls, hfall, halone, -⟩ := h.readAck_still hv.sclLvl (by simp [slaveSclRise, hv.proto, hv.ack])
  refine ⟨by rw [hsample, hv.sdaDrv]; rfl, _, halone, ?_⟩
  have hrequest := slaveSclFall_request (v := { v with sdaLvl := v.sdaDrv, sclLvl := false }) hv.proto hv.ack hv.bitCounter
  rw [hrequest] at hfall
  obtain ⟨b, script, rfl, -⟩ := hfall
  exact hv.proto

/-- Nobody acknowledges a byte for an idle slave that holds SDA released (43_slave.md R195, R200). -/
theorem Alone.readAck_idle (hp : v.proto = .idle) (hdrv : v.sdaDrv = true) (hscl : v.sclLvl = false) :
    (readAck s).2 = false ∧ ∃ w, Alone (Machine.readAck s).1 w ∧ w.proto = .idle := by
  obtain ⟨hsample, w, calls, hfall, halone, -⟩ := h.readAck_still hscl (by simp [slaveSclRise, hp])
  obtain ⟨rfl, rfl⟩ := hfall.of_silent (slaveSclFall_silent (.inl hp))
  exact ⟨by rw [hsample, hdrv]; rfl, _, halone, hp⟩

/-! ### A byte that is received -/

/-- The last bit of a byte that is received: the callback gets the byte, and the slave drives the acknowledge
(43_slave.md R197, R201). -/
theorem Alone.writeBit_received {c : BitVec 32} {f : Byte} (hv : v.Shifting .receiving c f) (hlast : (c + 1) % 8 = 0)
    (b : Level) :
    ∃ w, Alone (writeBit b s) w ∧ w.Acknowledging .receiving (c + 1) (Fifo.shiftIn f b) ∧
      (Machine.writeBit b s).callbacks =
        s.callbacks ++ [⟨0, .receive, Fifo.shiftIn f b, ((c + 1) / 8).toNat⟩] := by
  obtain ⟨w, calls, w', calls', hrise, -, hfall, halone, hcb⟩ := h.pulse hv.sclLvl b
  have hlevel : (b && v.sdaDrv) = b := by rw [hv.sdaDrv, Bool.and_true]
  rw [hlevel, hv.rise_last rfl hlast] at hrise
  obtain ⟨x, script, rfl, rfl⟩ := hrise
  obtain ⟨rfl, rfl⟩ := hfall.of_silent (slaveSclFall_driveAck (.inl hv.proto) rfl)
  refine ⟨_, halone, ⟨hv.proto, rfl, rfl, ?_, ?_, rfl, rfl⟩, hcb.trans (List.append_nil _)⟩
  · exact congrArg (· + 1) hv.bitCounter
  · exact congrArg (Fifo.shiftIn · b) hv.fifo

/-! ### An address byte -/

/-- The last bit of an address byte that matches: the slave drives the acknowledge (43_slave.md R198, R201, R202). -/
theorem Alone.writeBit_matched {p : Proto} {c : BitVec 32} {f : Byte} (hv : v.Shifting .started c f) (hlast : c + 1 = 8)
    {b : Level} (hmatch : v.matchAddr (Fifo.shiftIn f b) = some p) (hp : p = .receiving ∨ p = .transmitting) :
    ∃ w, Alone (writeBit b s) w ∧ w.Acknowledging p 0 0 := by
  obtain ⟨w, calls, w', calls', hrise, -, hfall, halone, -⟩ := h.pulse hv.sclLvl b
  have hlevel : (b && v.sdaDrv) = b := by rw [hv.sdaDrv, Bool.and_true]
  have hdone : (v.shifted b).addressDone =
      { v.shifted b with bitCounter := 0, fifo := 0, proto := p, ack := .awaitingReceiveAck } := by
    have hbyte : (v.shifted b).matchAddr (v.shifted b).fifo = some p := by
      rw [← hmatch, ← hv.fifo]
      rfl
    simp only [Slave.addressDone, hbyte]
  rw [hlevel, hv.rise_addressed rfl hlast, hdone] at hrise
  obtain ⟨rfl, rfl⟩ := hrise.of_silent rfl
  obtain ⟨rfl, rfl⟩ := hfall.of_silent (slaveSclFall_driveAck hp rfl)
  exact ⟨_, halone, rfl, rfl, rfl, rfl, rfl, rfl, rfl⟩

/-- The last bit of an address byte that does not match: the slave is Idle (43_slave.md R198). -/
theorem Alone.writeBit_unmatched {c : BitVec 32} {f : Byte} (hv : v.Shifting .started c f) (hlast : c + 1 = 8)
    {b : Level} (hmatch : v.matchAddr (Fifo.shiftIn f b) = none) :
    ∃ w, Alone (writeBit b s) w ∧ w.proto = .idle ∧ w.sdaDrv = true ∧ w.sclLvl = false := by
  obtain ⟨w, calls, w', calls', hrise, -, hfall, halone, -⟩ := h.pulse hv.sclLvl b
  have hlevel : (b && v.sdaDrv) = b := by rw [hv.sdaDrv, Bool.and_true]
  have hdone : (v.shifted b).addressDone = { v.shifted b with bitCounter := 0, fifo := 0, proto := .idle } := by
    have hbyte : (v.shifted b).matchAddr (v.shifted b).fifo = none := by
      rw [← hmatch, ← hv.fifo]
      rfl
    simp only [Slave.addressDone, hbyte]
  rw [hlevel, hv.rise_addressed rfl hlast, hdone] at hrise
  obtain ⟨rfl, rfl⟩ := hrise.of_silent rfl
  obtain ⟨rfl, rfl⟩ := hfall.of_silent (slaveSclFall_silent (.inl rfl))
  exact ⟨_, halone, rfl, hv.sdaDrv, rfl⟩

/-! ### The start condition -/

/-- A write of the SDA latch leaves a slave that holds SDA released, of the same configuration. -/
theorem Alone.lineW_sda_released (hdrv : v.sdaDrv = true) (b : Level) :
    ∃ w, Alone (lineW .sda b s) w ∧ w.sdaDrv = true ∧ (Engine.slave w).identity = (Engine.slave v).identity := by
  obtain ⟨hsame, hdiff⟩ := h.lineW_sda b
  by_cases hl : v.sdaLvl = (b && v.sdaDrv)
  · exact ⟨v, (hsame hl).1, hdrv, rfl⟩
  · obtain ⟨w, calls, hanswer, halone, -⟩ := hdiff hl
    exact ⟨w, halone, hanswer.released_sda ((slave_store_sdaDrv _ _ _).trans hdrv),
      hanswer.fixed.1.trans (slave_store_identity _ _ _)⟩

/-- A release of the SCL latch leaves a slave that holds SDA released, of the same configuration. -/
theorem Alone.lineW_scl_released (hdrv : v.sdaDrv = true) :
    ∃ w, Alone (lineW .scl true s) w ∧ w.sdaDrv = true ∧ (Engine.slave w).identity = (Engine.slave v).identity := by
  obtain ⟨hsame, hdiff⟩ := h.lineW_scl true
  by_cases hl : v.sclLvl = true
  · exact ⟨v, (hsame hl).1, hdrv, rfl⟩
  · obtain ⟨w, calls, hanswer, halone, -⟩ := hdiff hl
    refine ⟨_, halone, ?_, ?_⟩
    · exact (slave_store_sdaDrv _ _ _).trans (hanswer.drives_rise.trans hdrv)
    · exact (slave_store_identity _ _ _).trans (hanswer.fixed.1.trans (slave_store_identity _ _ _))

/-- A start condition makes every slave that holds SDA released wait for an address byte (42_master.md R152; 43_slave.md
R193). -/
theorem Alone.startCondition (hdrv : v.sdaDrv = true) :
    ∃ w, Alone (startCondition s) w ∧ w.Shifting .started 0 0 ∧
      (Engine.slave w).identity = (Engine.slave v).identity := by
  obtain ⟨w, hw, hwdrv, hwid⟩ := h.lineW_sda_released hdrv true
  obtain ⟨x, hx, hxdrv, hxid⟩ := hw.lineW_scl_released hwdrv
  have hhigh := (hx.lineD 1).1
  have hat := (((At.of h.calm).lineW .sda true).lineW .scl true).lineD 1
  have hsda : x.sdaLvl = true := by
    rw [hhigh.sdaLvl, hat.master, hxdrv]
    rfl
  have hscl : x.sclLvl = true := by
    rw [hhigh.sclLvl, hat.master]
    rfl
  obtain ⟨y, calls, hfall, hy, -⟩ := (hhigh.lineW_sda false).2 (by simp [hsda])
  obtain ⟨script, rfl⟩ := hfall.of_start hscl
  obtain ⟨z, calls', hanswer, hz, -⟩ := (hy.lineD 1).1.clockLow hscl
  obtain ⟨rfl, rfl⟩ := hanswer.of_silent (slaveSclFall_silent (.inr (.inl rfl)))
  refine ⟨_, hz.setPhase .started, ⟨rfl, rfl, rfl, rfl, rfl, rfl, rfl⟩, ?_⟩
  exact hxid.trans hwid

/-- An address byte behind its start condition: a slave with the constants of its address acknowledges its own, in the
direction asked for, and is Idle behind another one's (42_master.md R158; 43_slave.md R198, R202). -/
theorem Alone.startCommunication (hdrv : v.sdaDrv = true) (hm : v.Matched) (a : Addr) (r : Bool) :
    (startCommunication a r s).2 = decide (a = v.addr) ∧
      ∃ w, Alone (Machine.startCommunication a r s).1 w ∧
        w.proto = if a = v.addr then (if r then .transmitting else .receiving) else .idle := by
  obtain ⟨x, hx, hxshift, hxid⟩ := h.startCondition hdrv
  have hphase : Alone (Machine.setPhase .addressPhase (Machine.startCondition s)) x := hx.setPhase _
  obtain ⟨y, hy, hyshift, hyid, -⟩ := hphase.writeBits_shift hxshift (addrBits a) (.inl ⟨rfl, Nat.lt_succ_self 7⟩)
  have hid := hyid.trans hxid
  simp only [Engine.identity, Prod.mk.injEq, Option.some.injEq] at hid
  obtain ⟨-, -, -, haddr, hrcond, htcond⟩ := hid
  have hymatched : y.Matched := by
    rw [Slave.Matched, hrcond, htcond, haddr]
    exact hm
  have hbyte : Fifo.shiftIn ((addrBits a).foldl Fifo.shiftIn 0) r = a.concat r := by
    rw [← foldl_shiftIn_bitsMsbFirst (a.concat r) 0, bitsMsbFirst_concat, List.foldl_append]
    rfl
  have hmatch := hymatched.matchAddr a r
  rw [← hbyte, haddr] at hmatch
  rw [Machine.startCommunication]
  generalize writeBits (addrBits a) (Machine.setPhase .addressPhase (Machine.startCondition s)) = t at *
  by_cases hown : a = v.addr
  · rw [if_pos hown] at hmatch
    rw [if_pos hown, decide_eq_true hown]
    cases r with
    | false =>
      obtain ⟨z, hz, hack⟩ := hy.writeBit_matched hyshift rfl hmatch (.inl rfl)
      obtain ⟨hread, -, w, hw, hdone⟩ := hz.readAck_receiving hack
      exact ⟨hread, w, hw.setPhase _, hdone.proto⟩
    | true =>
      obtain ⟨z, hz, hack⟩ := hy.writeBit_matched hyshift rfl hmatch (.inr rfl)
      obtain ⟨hread, w, hw, hdone⟩ := hz.readAck_transmitting hack
      exact ⟨hread, w, hw.setPhase _, hdone⟩
  · rw [if_neg hown] at hmatch
    rw [if_neg hown, decide_eq_false hown]
    obtain ⟨z, hz, hidle, hzdrv, hzscl⟩ := hy.writeBit_unmatched hyshift rfl hmatch
    obtain ⟨hread, w, hw, hdone⟩ := hz.readAck_idle hidle hzdrv hzscl
    exact ⟨hread, w, hw.setPhase _, hdone⟩

/-- A byte behind whole bytes: a receiving slave's callback gets it, and it is acknowledged (42_master.md R156; 43_slave.md
R197, R201, R204). -/
theorem Alone.writeByte {c : BitVec 32} {f : Byte} (hv : v.Shifting .receiving c f) (hwhole : c.toNat % 8 = 0) (b : Byte) :
    (writeByte b s).2 = true ∧ ∃ w, Alone (Machine.writeByte b s).1 w ∧ w.Shifting .receiving (c + 8) b ∧
      (Machine.writeByte b s).1.callbacks = s.callbacks ++ [⟨0, .receive, b, (c + 8).toNat / 8⟩] := by
  obtain ⟨x, hx, hxshift, -, hxcb⟩ := h.writeBits_shift hv ((bitsMsbFirst b).take 7) (.inr ⟨rfl, by
    rw [hwhole]
    exact Nat.lt_succ_self 7⟩)
  have hcount : c + BitVec.ofNat 32 ((bitsMsbFirst b).take 7).length + 1 = c + 8 := BitVec.add_assoc c 7 1
  have hlast : (c + 8) % 8 = 0 := by
    have hlt := c.isLt
    have hsum : (c + 8).toNat = (c.toNat + 8) % 2 ^ 32 := BitVec.toNat_add c 8
    refine BitVec.eq_of_toNat_eq ((BitVec.toNat_umod).trans ?_)
    change (c + 8).toNat % 8 = 0
    omega
  have hbyte : Fifo.shiftIn (((bitsMsbFirst b).take 7).foldl Fifo.shiftIn f) (b.getLsbD 0) = b :=
    foldl_shiftIn_bitsMsbFirst b f
  have hsplit : writeBits (bitsMsbFirst b) s = writeBit (b.getLsbD 0) (writeBits ((bitsMsbFirst b).take 7) s) := rfl
  rw [Machine.writeByte, hsplit]
  generalize writeBits ((bitsMsbFirst b).take 7) s = t at *
  obtain ⟨y, hy, hyack, hycb⟩ := hx.writeBit_received hxshift (by rw [hcount, hlast]) (b.getLsbD 0)
  rw [hbyte, hcount] at hyack hycb
  obtain ⟨hread, hreadCb, w, hw, hdone⟩ := hy.readAck_receiving hyack
  refine ⟨hread, w, hw, hdone, ?_⟩
  rw [hreadCb, hycb, hxcb, BitVec.toNat_udiv]
  rfl

end

/-! ### The two statements -/

/-- Settles O59: the address byte reaches the slave bit by bit, and the acknowledge that it drives is read. -/
theorem addressedSlaveAcknowledges : Obligations.AddressedSlaveAcknowledges := by
  intro s v a r h
  have hat := (At.of h.calm).startCommunication a r
  have hexec := (runs_sequence (i := .mStartComm a r) (fun _ => rfl)
    (fun P k hs => k.result _ _ (k.startCommunication a r hs)) h.calm (hat.setResult _)).1
  obtain ⟨hacked, w, hw, hproto⟩ := h.alone.startCommunication h.released h.conds a r
  generalize startCommunication a r s = x at *
  obtain ⟨y, acked⟩ := x
  obtain rfl : acked = _ := hacked
  have hend := (hw.setResult (zext1 (decide (a = v.addr)))).finish none
  have hm := ((hat.setResult (zext1 (decide (a = v.addr)))).finish none).master
  exact ⟨_, w, hexec, hend.calm, hend.registry, by rw [hm], by rw [hm], hproto⟩

/-- Settles O60: seven bits are shifted in, the eighth hands the byte to the callback, and the acknowledge is read. -/
theorem writtenByteIsReceived : Obligations.WrittenByteIsReceived := by
  intro s v b h hlow hproto hack hslot hwhole
  have hscl : v.sclLvl = false := h.alone.sclLvl.trans hlow
  have hat := (At.of h.calm).writeByte b
  have hexec := (runs_sequence (i := .mWriteByte b) (fun _ => rfl)
    (fun P k hs => k.result _ _ (k.writeByte b hs)) h.calm (hat.setResult _)).1
  obtain ⟨hacked, w, hw, hdone, hcb⟩ :=
    h.alone.writeByte ⟨hproto, hack, hslot, rfl, rfl, h.released, hscl⟩ hwhole b
  generalize writeByte b s = x at *
  obtain ⟨y, acked⟩ := x
  obtain rfl : acked = _ := hacked
  have hend := (hw.setResult (zext1 true)).finish none
  have hm := ((hat.setResult (zext1 true)).finish none).master
  exact ⟨_, w, hexec, hend.calm, hend.registry, by rw [hm], by rw [hm]; rfl,
    (upd_callbacks _ _).trans ((upd_callbacks _ _).trans hcb), hdone.proto, hdone.ack, hdone.ackSlot, hdone.fifo,
    hdone.sdaDrv, hdone.bitCounter⟩

end Sys2Proof.Machine
end

section
/-! SUPPORT. The event step of a slave, from its row or its event word: the handler alone, or up to a callback that
returns or never does, each as an `EventStep` (43_slave.md R190, R210 to R213; 45_dispatch.md R264), and the proof of the
statement on a callback that never returns. -/

namespace Sys2Proof.Machine

/-! ### From the row to the handler -/

/-- The owner of the pin is the slave, which is not stuck. -/
theorem SlaveAt.ownerStuck {s : State} {pin : Pin} {l : Line} {i : Nat} {v : Slave} (h : SlaveAt s pin l i v) :
    s.ownerStuck pin = false := by
  simp [State.ownerStuck, h.owner, h.engine, Engine.isStuck, h.moving]

/-- The row's word is the event word of the pin and the level (30_encoding.md R86; entry 13). -/
structure RowOf (row : Instr) (pin : Pin) (level : Level) : Prop where
  event : row.isCommand = false
  word  : row.ofWord = .evLine pin level

/-- A row of a slave's pin runs the slave's handler of that line and edge, with the new level stored
(41_line_and_edge.md R136; 45_dispatch.md R264). -/
theorem SlaveAt.exec_row {s : State} {pin : Pin} {l : Line} {i : Nat} {v : Slave} {level : Level} {row : Instr}
    (hat : SlaveAt s pin l i v) (hp : Processing s) (hrow : RowOf row pin level) (hl : v.lvl l ≠ level) :
    exec row s = .next (runSlave (slaveHandler l (edgeOf level)) i (v.store l level) s) := by
  rw [exec_ofWord hrow.event, hrow.word, exec_evLine hp hat.ownerStuck]
  simp only [event, hat.selected hl]

/-! ### The shape of an event step -/

/-- A state that differs from `s` in the one engine, the records of its calls and the context, which is Interrupt only
while an engine is stuck, is an event step once the change of its output is propagated. -/
theorem EventStep.of_propagate {s t : State} {i : Nat} {e : Engine} {calls : List CbRec} (hp : Processing s)
    (ht : t = { s with registry := s.registry.set i e, callbacks := s.callbacks ++ calls, ctx := t.ctx })
    (hc : t.ctx = if (s.registry.set i e).any Engine.isStuck then .interrupt else .foreground) :
    EventStep s (propagate s t) i e calls [] := by
  obtain ⟨hevents, hinstant⟩ := propagate_queues (s := s) (t := t) rfl (by rw [ht]) (by rw [ht])
  constructor
  case events => exact hevents
  case instant => exact hinstant
  case ctx => rw [propagate_ctx, hc]
  case fault => rw [propagate_fault, ht, hp.fault]
  case settled => rw [propagate_unsettled, ht, hp.settled]
  all_goals rw [ht]; simp

/-- What a handler that returns leaves is an event step. -/
theorem EventStep.of_leaveHandler {s : State} (hp : Processing s) (i : Nat) (e : Engine) (calls : List CbRec) :
    EventStep s
      (propagate s (State.putEngine i e { s.enterHandler with callbacks := s.callbacks ++ calls }).leaveHandler)
      i e calls [] :=
  .of_propagate hp rfl rfl

/-! ### The three ends of a slave's step -/

/-- A callback that returns gives the byte that the script says, if it says one, and the rest of the handler runs with
it (43_slave.md R211, R212). -/
theorem invoke_returns {v : Slave} (hv : (Engine.slave v).obedient = true) (i : Nat) (c : Call) (s : State) :
    ∃ b, (∀ b' r, v.script = .returns b' :: r → b = b') ∧ invoke i v c s = ((s.recordCall i c).putEngine i
      (.slave (afterCallback c.kind b { v with script := v.script.tail }))).leaveHandler := by
  simp only [Engine.obedient, Bool.and_eq_true, List.all_eq_true] at hv
  obtain ⟨-, hscript⟩ := hv
  rcases hs : v.script with _ | ⟨reply, r⟩
  · have hsame : { v with script := [] } = v := by rw [← hs]
    exact ⟨_, nofun, by simp only [invoke, hs, List.tail_nil, hsame]; rfl⟩
  · cases reply with
    | returns b =>
      refine ⟨b, fun b' r' h => ?_, by simp only [invoke, hs, List.tail_cons]⟩
      cases h
      rfl
    | issues w => exact nomatch hscript (.issues w) (by rw [hs]; exact List.mem_cons_self)
    | hangs => exact nomatch hscript .hangs (by rw [hs]; exact List.mem_cons_self)

section
variable {s : State} {pin : Pin} {l : Line} {i : Nat} {v v' : Slave} {level : Level} {row : Instr} {c : Call}
  (hat : SlaveAt s pin l i v) (hp : Processing s) (hrow : RowOf row pin level) (hl : v.lvl l ≠ level)
include hat hp hrow hl

/-- A handler that invokes no callback: the slave is what the handler leaves. -/
theorem SlaveAt.step_silent (hh : slaveHandler l (edgeOf level) (v.store l level) = (v', none)) :
    ∃ t, exec row s = .next t ∧ EventStep s t i (.slave v') [] [] := by
  refine ⟨_, hat.exec_row hp hrow hl, ?_⟩
  have hstep := EventStep.of_leaveHandler hp i (.slave v') []
  rw [List.append_nil] at hstep
  simp only [runSlave, hh]
  exact hstep

/-- A handler whose callback returns: one invocation is recorded, one entry of the script is used up, and the rest of
the handler runs with the byte returned. -/
theorem SlaveAt.step_returns (hob : (Engine.slave v).obedient = true)
    (hh : slaveHandler l (edgeOf level) (v.store l level) = (v', some c)) :
    ∃ t b, exec row s = .next t ∧ (∀ b' r, v.script = .returns b' :: r → b = b') ∧
      EventStep s t i (.slave (afterCallback c.kind b { v' with script := v.script.tail }))
        [⟨i, c.kind, c.byte, c.index⟩] [] := by
  have hfixed := slaveHandler_fixed l (edgeOf level) (v.store l level)
  rw [hh] at hfixed
  simp only [Slave.fixed, Prod.mk.injEq, slave_store_script, slave_store_stuck] at hfixed
  obtain ⟨-, -, -, hscript, hstuck⟩ := hfixed
  have hob' : (Engine.slave v').obedient = true := by
    simpa only [Engine.obedient, hscript, hstuck] using hob
  obtain ⟨b, hb, hinvoke⟩ := invoke_returns hob' i c s.enterHandler
  rw [hscript] at hb hinvoke
  refine ⟨_, b, hat.exec_row hp hrow hl, hb, ?_⟩
  simp only [runSlave, hh, hinvoke]
  exact EventStep.of_leaveHandler hp i _ _

/-- A handler whose callback never returns: one invocation is recorded, and the engine stays stuck in it
(43_slave.md R213; entry 9). -/
theorem SlaveAt.step_hangs {r : List CbReply} (hr : v.script = .hangs :: r)
    (hh : slaveHandler l (edgeOf level) (v.store l level) = (v', some c)) :
    ∃ t, exec row s = .next t ∧
      EventStep s t i (.slave { v' with script := r, stuck := true }) [⟨i, c.kind, c.byte, c.index⟩] [] := by
  have hfixed := slaveHandler_fixed l (edgeOf level) (v.store l level)
  rw [hh] at hfixed
  simp only [Slave.fixed, Prod.mk.injEq, slave_store_script] at hfixed
  obtain ⟨-, -, -, hscript, -⟩ := hfixed
  have hmem := List.mem_set (List.getElem?_eq_some_iff.1 hat.engine).1
    (Engine.slave { v' with script := r, stuck := true })
  refine ⟨_, hat.exec_row hp hrow hl, ?_⟩
  simp only [runSlave, hh, invoke, hscript.trans hr]
  exact .of_propagate hp rfl (if_pos (List.any_eq_true.2 ⟨_, hmem, rfl⟩)).symm

end

/-! ### A callback that never returns -/

/-- Where every pending event is of a stuck engine, none is taken (43_slave.md R213). -/
theorem takeEvent_all_stuck {s : State} (h : ∀ e ∈ s.events, s.ownerStuck e.pin = true) : s.takeEvent = none := by
  by_contra hne
  obtain ⟨⟨e, s'⟩, he⟩ := Option.ne_none_iff_exists'.1 hne
  obtain ⟨hmem, hel, -⟩ := takeEvent_spec he
  have hmoving := ((eligible_iff s e).1 hel).1
  rw [h e hmem] at hmoving
  cases hmoving

/-- An event of a pin that a stuck engine owns is not processed (43_slave.md R213). -/
theorem exec_evLine_stuck {t : State} {pin : Pin} {level : Level} (hp : Processing t) (h : t.ownerStuck pin = true) :
    exec (.evLine pin level) t = .fault .callbackNeverReturned := by
  simp [exec, execEvLine, eventWord, hp.fault, hp.settled, h]

section
variable {s : State} (hp : Processing s) (hx : s.ctx = .interrupt) (hst : ∀ e ∈ s.events, s.ownerStuck e.pin = true)
include hp hx hst

/-- With the foreground preempted and no event of another engine pending, an external agent acts (43_slave.md R213;
entry 9). -/
theorem step_preempted_external {a : ExtAct} {r : List Input} (hi : s.env.inputs = .external a :: r) :
    step s = .next (external a s.dropInput) := by
  rw [step_other (fun c r' hc => nomatch hi.symm.trans hc)]
  simp only [hp.fault, hp.settled, takeEvent_all_stuck hst, hx, hi, Bool.false_eq_true, if_false, if_true]

/-- Nothing else is taken but a configuration (43_slave.md R213; entry 9). -/
theorem step_preempted_stops (hext : ∀ a r, s.env.inputs ≠ .external a :: r)
    (hc : ∀ c r, s.env.inputs ≠ .configure c :: r) : step s = .fault .callbackNeverReturned := by
  rw [step_other hc]
  simp only [hp.fault, hp.settled, takeEvent_all_stuck hst, hx, Bool.false_eq_true, if_false, if_true]

end

/-- A pin has the owner after the step that it had before, where the slave that made it keeps its identity. -/
theorem EventStep.owner {s t : State} {i : Nat} {e e' : Engine} {calls : List CbRec} {frames : List Frame}
    (h : EventStep s t i e' calls frames) (he : s.registry[i]? = some e) (hid : e'.identity = e.identity) (p : Pin) :
    t.owner p = s.owner p :=
  owner_congr (h.registry ▸ map_identity_set he hid) p

/-- Settles O15: the step of a preempted block, and the step of a slave whose callback hangs, after which the slave still
owns its pins. -/
theorem callbackThatNeverReturns : Obligations.CallbackThatNeverReturns := by
  refine ⟨fun s hp hx hst => ⟨fun a r hi => ?_, step_preempted_stops hp hx hst⟩,
    fun s pin l i v v' level c r hp hat hl hr hh => ?_⟩
  · rw [step_preempted_external hp hx hst hi, State.dropInput, hi, List.tail_cons]
  · obtain ⟨t, hexec, hstep⟩ := hat.step_hangs (row := .evLine pin level) hp ⟨rfl, rfl⟩ hl hr hh
    have hlt := (List.getElem?_eq_some_iff.1 hat.engine).1
    have hid : (Engine.slave v').identity = (Engine.slave v).identity := by
      have hfixed := congrArg Prod.fst (slaveHandler_fixed l (edgeOf level) (v.store l level))
      rw [hh] at hfixed
      exact hfixed.trans (slave_store_identity l level v)
    refine ⟨t, hexec, hstep, ?_, fun p l' b ho => exec_evLine_stuck ⟨hstep.fault, hstep.settled⟩ ?_⟩
    · rw [hstep.ctx, if_pos (List.any_eq_true.2 ⟨_, List.mem_set hlt _, rfl⟩)]
    · simp [State.ownerStuck, hstep.owner hat.engine hid p, ho, hstep.registry, hlt, Engine.isStuck]

end Sys2Proof.Machine
end

section
/-! SUPPORT. The handlers of a slave, case by case (43_slave.md R192 to R204), and the proofs of the statements on its
event steps. -/

namespace Sys2Proof.Machine

/-! ### Rows, and edges of the stored levels -/

theorem rowOf_slvSdaFall (pin : Pin) : RowOf (.slvSdaFall pin) pin false := ⟨rfl, rfl⟩
theorem rowOf_slvSdaRise (pin : Pin) : RowOf (.slvSdaRise pin) pin true := ⟨rfl, rfl⟩
theorem rowOf_slvSclFall (pin : Pin) : RowOf (.slvSclFall pin) pin false := ⟨rfl, rfl⟩
theorem rowOf_slvSclRise (pin : Pin) : RowOf (.slvSclRise pin) pin true := ⟨rfl, rfl⟩

/-- A level that is not the stored one makes an edge. -/
theorem Slave.lvl_ne {v : Slave} {l : Line} {b level : Level} (h : v.lvl l = b) (hne : b ≠ level) : v.lvl l ≠ level :=
  h ▸ hne

/-! ### The bit counter -/

/-- The counter stands at a byte boundary where its value does (43_slave.md R197, R203). -/
theorem wholeByte_iff (n : BitVec 32) : n % 8 = 0 ↔ n.toNat % 8 = 0 := by
  rw [← BitVec.toNat_inj, BitVec.toNat_umod]
  rfl

/-- The whole bytes counted (43_slave.md R194, R197, R203). -/
theorem toNat_div_eight (n : BitVec 32) : (n / 8).toNat = n.toNat / 8 := BitVec.toNat_udiv

/-! ### Edges of SDA -/

/-- With SCL high a fall of SDA is a start condition (43_slave.md R193). -/
theorem slaveSdaFall_high {v : Slave} (h : v.sclLvl = true) :
    slaveSdaFall v = (v.clear .started, some ⟨.start, 0, 0⟩) := if_pos h

/-- With SCL high a rise of SDA is a stop condition (43_slave.md R194). -/
theorem slaveSdaRise_high {v : Slave} (h : v.sclLvl = true) :
    slaveSdaRise v = (v.clear .idle, some ⟨.stop, v.fifo, v.stopIndex⟩) := if_pos h

theorem Slave.stopIndex_eq (v : Slave) :
    v.stopIndex = if v.proto = .transmitting ∨ v.proto = .receiving then v.bitCounter.toNat / 8 else 0 := by
  rw [Slave.stopIndex, toNat_div_eight]

/-- Settles O16: with the stored clock level low neither handler of SDA does anything. -/
theorem slaveIgnoresDataWhileClockLow : Obligations.SlaveIgnoresDataWhileClockLow := by
  intro s pin i v hp hat hscl
  refine ⟨fun hsda => ?_, fun hsda => ?_⟩
  · exact hat.step_silent hp (rowOf_slvSdaFall pin) (Slave.lvl_ne hsda nofun) (slaveHandler_sda_low .fall hscl)
  · exact hat.step_silent hp (rowOf_slvSdaRise pin) (Slave.lvl_ne hsda nofun) (slaveHandler_sda_low .rise hscl)

/-- Settles O17: the handler clears every field for Started, and nothing is left to do after its callback. -/
theorem slaveStartAlwaysWins : Obligations.SlaveStartAlwaysWins := by
  intro s pin i v hp hat hob hscl hsda
  obtain ⟨t, b, hexec, -, hstep⟩ := hat.step_returns hp (rowOf_slvSdaFall pin) (Slave.lvl_ne hsda nofun) hob
    (slaveSdaFall_high (v := v.store .sda false) hscl)
  exact ⟨t, hexec, hstep⟩

/-- Settles O18: the handler clears every field for Idle, and nothing is left to do after its callback. -/
theorem slaveStop : Obligations.SlaveStop := by
  intro s pin i v hp hat hob hscl hsda
  obtain ⟨t, b, hexec, -, hstep⟩ := hat.step_returns hp (rowOf_slvSdaRise pin) (Slave.lvl_ne hsda nofun) hob
    (slaveSdaRise_high (v := v.store .sda true) hscl)
  rw [Slave.stopIndex_eq] at hstep
  exact ⟨t, hexec, hstep⟩

/-! ### Clocks that are ignored -/

/-- The rises of SCL to which R195 answers "nothing". -/
theorem slaveSclRise_ignored {v : Slave} (h : v.proto = .idle ∨ v.proto = .addressPhase ∨ v.proto = .stopped ∨
    (v.proto = .receiving ∧ ¬ (v.ackSlot = false ∧ v.ack = .none)) ∨
    (v.proto = .transmitting ∧ ¬ (v.ack = .awaitingTransmitAck ∧ v.ackSlot = true))) :
    slaveSclRise v = (v, none) := by
  obtain hp | hp | hp | ⟨hp, hack⟩ | ⟨hp, hack⟩ := h
  · simp only [slaveSclRise, hp]
  · simp only [slaveSclRise, hp]
  · simp only [slaveSclRise, hp]
  · simp only [slaveSclRise, hp, if_neg hack]
  · simp only [slaveSclRise, hp, if_neg hack]

/-- The falls of SCL to which R200 answers "nothing". -/
theorem slaveSclFall_ignored {v : Slave} (h : v.proto = .idle ∨ v.proto = .started ∨ v.proto = .addressPhase ∨
    v.proto = .stopped ∨
    (v.proto = .receiving ∧ v.ack ≠ .awaitingReceiveAck ∧ ¬ (v.ack = .none ∧ v.ackSlot = true)) ∨
    (v.proto = .transmitting ∧ v.ack = .awaitingTransmitAck ∧ v.ackSlot = true)) :
    slaveSclFall v = (v, none) := by
  obtain hp | hp | hp | hp | ⟨hp, hack, hslot⟩ | ⟨hp, hack, hslot⟩ := h
  · exact slaveSclFall_silent (.inl hp)
  · exact slaveSclFall_silent (.inr (.inl hp))
  · simp only [slaveSclFall, hp]
  · simp only [slaveSclFall, hp]
  · simp only [slaveSclFall, hp, if_neg hack, if_neg hslot]
  · simp only [slaveSclFall, hp, hack, hslot, if_true]

/-- Settles O19: the two tables have no other row for these states. -/
theorem slaveIgnoresClock : Obligations.SlaveIgnoresClock := by
  intro s pin i v hp hat
  refine ⟨fun hscl h => ?_, fun hscl h => ?_⟩
  · exact hat.step_silent hp (rowOf_slvSclRise pin) (Slave.lvl_ne hscl nofun)
      (slaveSclRise_ignored (v := v.store .scl true) h)
  · exact hat.step_silent hp (rowOf_slvSclFall pin) (Slave.lvl_ne hscl nofun)
      (slaveSclFall_ignored (v := v.store .scl false) h)

/-! ### Address bits -/

section
variable {v : Slave}

/-- Before the eighth bit an address bit is shifted in and counted. -/
theorem Slave.addressBit_early (h : v.bitCounter + 1 ≠ 8) :
    v.addressBit = { v with fifo := Fifo.shiftIn v.fifo v.sdaLvl, bitCounter := v.bitCounter + 1 } := if_neg h

/-- After the eighth the assembled byte is compared (43_slave.md R198). -/
theorem Slave.addressBit_last (h : v.bitCounter + 1 = 8) :
    v.addressBit =
      { v with fifo := Fifo.shiftIn v.fifo v.sdaLvl, bitCounter := v.bitCounter + 1 }.addressDone := if_pos h

/-- A byte that is compared is the slave's address for a read, for a write, or neither (40_fifo_and_address.md R108). -/
theorem Slave.addressDone_transmit (h : v.fifo = v.transmitCond) :
    v.addressDone =
      { v with bitCounter := 0, fifo := 0, proto := .transmitting, ack := .awaitingReceiveAck } := by
  simp only [Slave.addressDone, Slave.matchAddr, if_pos h]

theorem Slave.addressDone_receive (ht : v.fifo ≠ v.transmitCond) (h : v.fifo = v.receiveCond) :
    v.addressDone = { v with bitCounter := 0, fifo := 0, proto := .receiving, ack := .awaitingReceiveAck } := by
  simp only [Slave.addressDone, Slave.matchAddr, if_neg ht, if_pos h]

theorem Slave.addressDone_noMatch (ht : v.fifo ≠ v.transmitCond) (hr : v.fifo ≠ v.receiveCond) :
    v.addressDone = { v with bitCounter := 0, fifo := 0, proto := .idle } := by
  simp only [Slave.addressDone, Slave.matchAddr, if_neg ht, if_neg hr]

end

/-- Settles O20: the bit is shifted in and counted, and after the eighth the byte is compared. -/
theorem slaveAddressBit : Obligations.SlaveAddressBit := by
  rintro s pin i v byte hp hat hscl hproto rfl
  obtain ⟨t, hexec, hstep⟩ := hat.step_silent hp (rowOf_slvSclRise pin) (Slave.lvl_ne hscl nofun)
    (slaveSclRise_started (v := v.store .scl true) hproto)
  refine ⟨t, _, hexec, hstep, fun h => ?_, fun h ht => ?_, fun h ht hr => ?_, fun h ht hr => ?_⟩
  · exact Slave.addressBit_early h
  · exact (Slave.addressBit_last (v := v.store .scl true) h).trans (Slave.addressDone_transmit ht)
  · exact (Slave.addressBit_last (v := v.store .scl true) h).trans (Slave.addressDone_receive ht hr)
  · exact (Slave.addressBit_last (v := v.store .scl true) h).trans (Slave.addressDone_noMatch ht hr)

/-! ### Data bits received -/

section
variable {v : Slave}

/-- Inside a byte a data bit is shifted in and counted. -/
theorem Slave.receiveBit_inside (h : (v.bitCounter + 1).toNat % 8 ≠ 0) :
    v.receiveBit =
      ({ v with fifo := Fifo.shiftIn v.fifo v.sdaLvl, bitCounter := v.bitCounter + 1 }, none) :=
  if_neg (mt (wholeByte_iff _).1 h)

/-- The eighth bit of a byte invokes Receive with the byte and its index from 1 (43_slave.md R197). -/
theorem Slave.receiveBit_whole (h : (v.bitCounter + 1).toNat % 8 = 0) :
    v.receiveBit =
      ({ v with fifo := Fifo.shiftIn v.fifo v.sdaLvl, bitCounter := v.bitCounter + 1 },
        some ⟨.receive, Fifo.shiftIn v.fifo v.sdaLvl, (v.bitCounter + 1).toNat / 8⟩) := by
  rw [← toNat_div_eight]
  exact if_pos ((wholeByte_iff _).2 h)

end

/-- Settles O21: the callback and the acknowledge follow a bit that completes a byte, and no other. -/
theorem slaveReceiveBit : Obligations.SlaveReceiveBit := by
  rintro s pin i v byte n hp hat hob hscl hproto hslot hack rfl rfl
  have hl : v.lvl .scl ≠ true := Slave.lvl_ne hscl nofun
  have hrise := slaveSclRise_receiving (v := v.store .scl true) hproto ⟨hslot, hack⟩
  by_cases hwhole : (v.bitCounter + 1).toNat % 8 = 0
  · obtain ⟨t, b, hexec, -, hstep⟩ := hat.step_returns hp (rowOf_slvSclRise pin) hl hob
      (hrise.trans (Slave.receiveBit_whole (v := v.store .scl true) hwhole))
    exact ⟨t, hexec, fun h => absurd hwhole h, fun _ => hstep⟩
  · obtain ⟨t, hexec, hstep⟩ := hat.step_silent hp (rowOf_slvSclRise pin) hl
      (hrise.trans (Slave.receiveBit_inside (v := v.store .scl true) hwhole))
    exact ⟨t, hexec, fun _ => hstep, fun h => absurd h hwhole⟩

/-! ### Acknowledges -/

/-- The acknowledge of the master is sampled on a rise of SCL (43_slave.md R195, R196). -/
theorem slaveSclRise_sample {v : Slave} (hp : v.proto = .transmitting) (hack : v.ack = .awaitingTransmitAck)
    (hslot : v.ackSlot = true) : slaveSclRise v = (v.sampleMasterAck, none) := by
  simp only [slaveSclRise, hp, if_pos (And.intro hack hslot)]

/-- For the master's acknowledge SDA is released (43_slave.md R202). -/
theorem slaveSclFall_releaseForMaster {v : Slave} (hp : v.proto = .transmitting) (hack : v.ack = .awaitingTransmitAck)
    (hslot : v.ackSlot = false) : slaveSclFall v = (v.releaseForMaster, none) := by
  simp only [slaveSclFall, hp, hack, hslot, Bool.false_eq_true, if_false]

/-- The slave's own acknowledge is released at the end of its clock (43_slave.md R204). -/
theorem slaveSclFall_releaseAck {v : Slave} (hp : v.proto = .receiving) (hack : v.ack = .none)
    (hslot : v.ackSlot = true) : slaveSclFall v = (v.releaseAck, none) := by
  simp [slaveSclFall, hp, hack, hslot]

/-- Settles O22: the sample rewinds the counter where SDA is high. -/
theorem slaveSamplesMasterAck : Obligations.SlaveSamplesMasterAck := by
  intro s pin i v hp hat hscl hproto hack hslot
  exact hat.step_silent hp (rowOf_slvSclRise pin) (Slave.lvl_ne hscl nofun)
    (slaveSclRise_sample (v := v.store .scl true) hproto hack hslot)

/-- Settles O23: each of the three edges is its own row of the table of R200. -/
theorem slaveAcknowledgeEdges : Obligations.SlaveAcknowledgeEdges := by
  intro s pin i v hp hat hscl
  have hl : v.lvl .scl ≠ false := Slave.lvl_ne hscl nofun
  refine ⟨fun hproto hack => ?_, fun hproto hack hslot => ?_, fun hproto hack hslot => ?_⟩
  · exact hat.step_silent hp (rowOf_slvSclFall pin) hl (slaveSclFall_driveAck (v := v.store .scl false) hproto hack)
  · exact hat.step_silent hp (rowOf_slvSclFall pin) hl
      (slaveSclFall_releaseForMaster (v := v.store .scl false) hproto hack hslot)
  · exact hat.step_silent hp (rowOf_slvSclFall pin) hl
      (slaveSclFall_releaseAck (v := v.store .scl false) hproto hack hslot)

/-! ### Data bits transmitted -/

section
variable {v : Slave}

theorem slaveSclFall_transmit (hp : v.proto = .transmitting) (hack : v.ack = .none) :
    slaveSclFall v = v.transmitPhase := by
  simp only [slaveSclFall, hp, hack]

/-- On a byte boundary Request asks for the byte of the next index (43_slave.md R203). -/
theorem Slave.transmitPhase_boundary (h : v.bitCounter.toNat % 8 = 0) :
    v.transmitPhase =
      ({ v with ackSlot := false }, some ⟨.request, v.fifo, v.bitCounter.toNat / 8 + 1⟩) := by
  rw [← toNat_div_eight]
  exact if_pos ((wholeByte_iff _).2 h)

/-- Inside a byte the next bit is driven. -/
theorem Slave.transmitPhase_inside (h : v.bitCounter.toNat % 8 ≠ 0) :
    v.transmitPhase = ({ v with ackSlot := false }.driveBit, none) :=
  if_neg (mt (wholeByte_iff _).1 h)

/-- A driven bit is the register's top one, and the eighth of a byte arms the master's acknowledge (43_slave.md
R203). -/
theorem Slave.driveBit_eq (hack : v.ack = .none) :
    v.driveBit = { v with fifo := Fifo.shiftIn v.fifo false, sdaDrv := v.fifo.getLsbD 7, bitCounter := v.bitCounter + 1,
                          ack := if (v.bitCounter + 1).toNat % 8 = 0 then .awaitingTransmitAck else .none } := by
  simp only [Slave.driveBit, Fifo.evicted, wholeByte_iff, hack]

end

/-- Settles O24: on a boundary the byte driven is the one that Request returns, and elsewhere the register's. -/
theorem slaveTransmitsBit : Obligations.SlaveTransmitsBit := by
  rintro s pin i v n hp hat hob hscl hproto hack rfl
  have hl : v.lvl .scl ≠ false := Slave.lvl_ne hscl nofun
  have hfall := slaveSclFall_transmit (v := v.store .scl false) hproto hack
  by_cases hwhole : v.bitCounter.toNat % 8 = 0
  · obtain ⟨t, b, hexec, hb, hstep⟩ := hat.step_returns hp (rowOf_slvSclFall pin) hl hob
      (hfall.trans (Slave.transmitPhase_boundary (v := v.store .scl false) hwhole))
    simp only [afterCallback] at hstep
    rw [Slave.driveBit_eq] at hstep
    · refine ⟨t, b, hexec, fun h => absurd hwhole h, fun _ => hb, ?_⟩
      rw [if_pos hwhole, if_pos hwhole]
      exact hstep
    · exact hack
  · obtain ⟨t, hexec, hstep⟩ := hat.step_silent hp (rowOf_slvSclFall pin) hl
      (hfall.trans (Slave.transmitPhase_inside (v := v.store .scl false) hwhole))
    rw [Slave.driveBit_eq] at hstep
    · refine ⟨t, v.fifo, hexec, fun _ => rfl, fun h => absurd h hwhole, ?_⟩
      rw [if_neg hwhole, if_neg hwhole]
      exact hstep
    · exact hack

end Sys2Proof.Machine
end

section
/-! SUPPORT. The event step of a sniffer, from its row to an `EventStep` (44_sniffer.md R230, R231; 45_dispatch.md
R264), and the proof of the statement that a sniffer is read-only. -/

namespace Sys2Proof.Machine

/-! ### A sniffer drives nothing -/

/-- A sniffer's outputs are constantly released (10_state.md R37; 44_sniffer.md R230). -/
@[simp] theorem sniffer_drives (w : List (Pin × Line)) (l : Line) (n : Sniffer) :
    Engine.drives w l (.sniffer n) = true := rfl

/-- An instance replaced by one that answers a test alike leaves the answer of all instances as it was. -/
theorem all_set_of_eq {r : List Engine} {i : Nat} {e e' : Engine} {f : Engine → Bool} (h : r[i]? = some e)
    (hf : f e' = f e) : (r.set i e').all f = r.all f := by
  induction r generalizing i with
  | nil => rfl
  | cons d r ih =>
    cases i with
    | zero =>
      obtain rfl : d = e := by simpa using h
      simp [hf]
    | succ i => simp [ih h]

section
variable {s : State} {i : Nat} {n w : Sniffer} (he : s.registry[i]? = some (.sniffer w))
  (h : Byte → Sniffer → Sniffer × Option Frame)
include he

/-- A sniffer's step leaves both wires at their levels, whatever its handler is (44_sniffer.md R230). -/
theorem runSniffer_wire (l : Line) : (runSniffer h i n s).wire l = s.wire l := by
  have hall : (s.registry.set i (.sniffer (h s.params.sniffTag n).1)).all (Engine.drives s.wiring l) =
      s.registry.all (Engine.drives s.wiring l) := all_set_of_eq he rfl
  simp [State.wire, runSniffer, hall]

/-- A sniffer's step is an event step: the wires are as they were, so there is nothing to notify. -/
theorem EventStep.of_runSniffer (hp : Processing s) :
    EventStep s (runSniffer h i n s) i (.sniffer (h s.params.sniffTag n).1) []
      (h s.params.sniffTag n).2.toList := by
  have hquiet : propagate s { runSniffer h i n s with events := s.events, instant := s.instant } =
      { runSniffer h i n s with events := s.events, instant := s.instant } :=
    propagate_quiet (runSniffer_wire he h .sda) (runSniffer_wire he h .scl)
  constructor
  case fault => exact hp.fault
  case settled => exact hp.settled
  case callbacks => exact (List.append_nil _).symm
  case events => rw [hquiet]; rfl
  case instant => rw [hquiet]; rfl
  all_goals rfl

end

/-! ### From the row to the handler -/

section
variable {s : State} {pin : Pin} {l : Line} {i : Nat} {n : Sniffer} {level : Level} (hat : SnifferAt s pin l i n)
include hat

/-- A sniffer makes no callback, so none of its pins has a stuck owner. -/
theorem SnifferAt.ownerStuck : s.ownerStuck pin = false := by
  simp [State.ownerStuck, hat.owner, hat.engine, Engine.isStuck]

/-- An event of a sniffer's pin runs the handler of its line and edge with the new level stored (41_line_and_edge.md
R136; 44_sniffer.md R231). -/
theorem SnifferAt.event_edge (hl : n.lvl l ≠ level) :
    event pin level s = runSniffer (snifferHandler l (edgeOf level)) i (n.store l level) s := by
  simp only [event, hat.selected hl]

/-- An event that brings the stored level selects no handler (41_line_and_edge.md R136). -/
theorem SnifferAt.event_sameLevel (hl : n.lvl l = level) : event pin level s = s :=
  event_unselected (by simp [State.selected, hat.owner, hat.engine, Engine.lvl, hl])

/-- A row of a sniffer's pin leaves the sniffer as its handler does, and emits what its handler does. -/
theorem SnifferAt.step {row : Instr} {n' : Sniffer} {f : Option Frame} (hp : Processing s) (hrow : RowOf row pin level)
    (hl : n.lvl l ≠ level)
    (hh : snifferHandler l (edgeOf level) s.params.sniffTag (n.store l level) = (n', f)) :
    ∃ t, exec row s = .next t ∧ EventStep s t i (.sniffer n') [] f.toList := by
  have hstep := EventStep.of_runSniffer (n := n.store l level) hat.engine (snifferHandler l (edgeOf level)) hp
  rw [hh] at hstep
  refine ⟨_, ?_, hstep⟩
  rw [exec_ofWord hrow.event, hrow.word, exec_evLine hp hat.ownerStuck, hat.event_edge hl]

end

/-- Settles O29: an event of a sniffer's pin is nothing or the sniffer's step, which changes no output. -/
theorem snifferIsReadOnly : Obligations.SnifferIsReadOnly := by
  refine ⟨sniffer_drives, fun s t pin l i n level hat hexec => ?_⟩
  obtain ⟨hfault, rfl⟩ := eventWord_next hexec
  by_cases hl : n.lvl l = level
  · rw [hat.event_sameLevel hl]
    exact ⟨fun _ => rfl, rfl, rfl, hfault⟩
  · rw [hat.event_edge hl]
    exact ⟨runSniffer_wire hat.engine _, rfl, rfl, hfault⟩

end Sys2Proof.Machine
end

section
/-! SUPPORT. The handlers of a sniffer, case by case (44_sniffer.md R232 to R240), and the proofs of the statements on
its event steps. -/

namespace Sys2Proof.Machine

theorem rowOf_snfSdaFall (pin : Pin) : RowOf (.snfSdaFall pin) pin false := ⟨rfl, rfl⟩
theorem rowOf_snfSdaRise (pin : Pin) : RowOf (.snfSdaRise pin) pin true := ⟨rfl, rfl⟩
theorem rowOf_snfSclFall (pin : Pin) : RowOf (.snfSclFall pin) pin false := ⟨rfl, rfl⟩
theorem rowOf_snfSclRise (pin : Pin) : RowOf (.snfSclRise pin) pin true := ⟨rfl, rfl⟩

/-! ### Edges of SDA -/

/-- A fall of SDA is a start condition where SCL is high, and emits no frame either way (44_sniffer.md R232). -/
theorem snifferSdaFall_eq (tag : Byte) (n : Sniffer) :
    snifferSdaFall tag n = (if n.sclLvl then n.clear .started else n, none) := by
  rw [snifferSdaFall]
  split <;> rfl

/-- A rise of SDA is a stop condition where SCL is high, and emits no frame either way (44_sniffer.md R233). -/
theorem snifferSdaRise_eq (tag : Byte) (n : Sniffer) :
    snifferSdaRise tag n = (if n.sclLvl then n.clear .idle else n, none) := by
  rw [snifferSdaRise]
  split <;> rfl

/-- Settles O25: both handlers of SDA clear every field where SCL is high, and do nothing where it is low. -/
theorem snifferStartAndStop : Obligations.SnifferStartAndStop := by
  intro s pin i n hp hat
  refine ⟨fun hsda => ?_, fun hsda => ?_⟩
  · exact hat.step hp (rowOf_snfSdaFall pin) (Eq.trans_ne hsda nofun)
      (snifferSdaFall_eq s.params.sniffTag (n.store .sda false))
  · exact hat.step hp (rowOf_snfSdaRise pin) (Eq.trans_ne hsda nofun)
      (snifferSdaRise_eq s.params.sniffTag (n.store .sda true))

/-! ### Rises of SCL -/

section
variable {n : Sniffer}

/-- In a transaction a rise of SCL is a clock (44_sniffer.md R234). -/
theorem snifferSclRise_active (h : n.Active) (tag : Byte) : snifferSclRise tag n = n.clock tag := by
  obtain hp | hp | hp := h <;> simp only [snifferSclRise, hp]

/-- Outside a transaction a rise of SCL is nothing (44_sniffer.md R234). -/
theorem snifferSclRise_inactive (h : n.proto = .idle ∨ n.proto = .addressPhase ∨ n.proto = .stopped) (tag : Byte) :
    snifferSclRise tag n = (n, none) := by
  obtain hp | hp | hp := h <;> simp only [snifferSclRise, hp]

/-- The first eight clocks of a group bring its bits, and emit no frame (44_sniffer.md R234). -/
theorem Sniffer.clock_bit (h : n.groupPos.toNat < 8) (tag : Byte) : n.clock tag = (n.groupBit, none) := if_pos h

/-- The ninth clock of a group brings the acknowledge (44_sniffer.md R234). -/
theorem Sniffer.clock_ack (h : n.groupPos = 8) (tag : Byte) : n.clock tag = n.record tag := by
  simp [Sniffer.clock, h]

/-- Before the eighth bit of a group a bit is shifted in and counted (44_sniffer.md R235). -/
theorem Sniffer.groupBit_early (h : n.groupPos.toNat < 7) :
    n.groupBit = { n with fifo := Fifo.shiftIn n.fifo n.sdaLvl, groupPos := n.groupPos + 1 } :=
  if_neg (show n.groupPos + 1 ≠ 8 by bv_omega)

/-- After the eighth the group is classified (44_sniffer.md R235). -/
theorem Sniffer.groupBit_last (h : n.groupPos = 7) :
    n.groupBit = { n with fifo := Fifo.shiftIn n.fifo n.sdaLvl, groupPos := 8 }.classify := by
  simp [Sniffer.groupBit, h]

/-- The group after a start condition is an address and a direction (44_sniffer.md R236). -/
theorem Sniffer.classify_started (h : n.proto = .started) :
    n.classify = { n with addr := n.fifo.extractLsb' 1 7, ack := .awaitingReceiveAck,
                          predicted := if n.fifo.getLsbD 0 then .transmitting else .receiving } := by
  simp only [Sniffer.classify, h]

theorem Sniffer.classify_receiving (h : n.proto = .receiving) :
    n.classify = { n with ack := .awaitingReceiveAck } := by
  simp only [Sniffer.classify, h]

theorem Sniffer.classify_transmitting (h : n.proto = .transmitting) :
    n.classify = { n with ack := .awaitingTransmitAck } := by
  simp only [Sniffer.classify, h]

end

/-- Settles O26: the first eight clocks of a group shift a bit in, and the eighth classifies by the protocol state. -/
theorem snifferGroupBit : Obligations.SnifferGroupBit := by
  rintro s pin i n byte hp hat hscl hact hpos rfl
  obtain ⟨t, hexec, hstep⟩ := hat.step hp (rowOf_snfSclRise pin) (Eq.trans_ne hscl nofun)
    ((snifferSclRise_active (n := n.store .scl true) hact _).trans (Sniffer.clock_bit (n := n.store .scl true) hpos _))
  have becomes {m : Sniffer} (h : (n.store .scl true).groupBit = m) : EventStep s t i (.sniffer m) [] [] := h ▸ hstep
  refine ⟨t, hexec, fun hlt => becomes ?_, fun h7 hproto => becomes ?_, fun h7 hproto => becomes ?_,
    fun h7 hproto => becomes ?_⟩
  · exact Sniffer.groupBit_early (n := n.store .scl true) hlt
  · exact (Sniffer.groupBit_last (n := n.store .scl true) h7).trans (Sniffer.classify_started hproto)
  · exact (Sniffer.groupBit_last (n := n.store .scl true) h7).trans (Sniffer.classify_receiving hproto)
  · exact (Sniffer.groupBit_last (n := n.store .scl true) h7).trans (Sniffer.classify_transmitting hproto)

/-! ### The record -/

/-- Concatenation as arithmetic: the high part counts in units of the low part's range. -/
theorem toNat_append_add {m k : Nat} (x : BitVec m) (y : BitVec k) : (x ++ y).toNat = x.toNat * 2 ^ k + y.toNat := by
  rw [BitVec.toNat_append, ← Nat.shiftLeft_add_eq_or_of_lt y.isLt, Nat.shiftLeft_eq]

/-- The frame as a number: each field at its place, bit 16 zero (20_memory.md R67; 44_sniffer.md R245). -/
theorem frameOf_toNat (tag : Byte) (addr : Addr) (proto : Proto) (ack : AckPhase) (acked : Bool) (data : Byte) :
    (frameOf tag addr proto ack acked data).toNat = tag.toNat * 2 ^ 24 + addr.toNat * 2 ^ 17
      + proto.enc4.toNat * 2 ^ 12 + ack.enc3.toNat * 2 ^ 9 + acked.toNat * 2 ^ 8 + data.toNat := by
  simp only [frameOf, toNat_append_add, BitVec.toNat_ofBool, BitVec.toNat_zero]
  ring

/-- The acknowledge is active low (00_scope.md R10). -/
theorem ackedOf_toNat (sample : Level) : (ackedOf sample).toNat = if sample then 0 else 1 := by cases sample <;> rfl

/-- Settles O27: the ninth clock of a group records the acknowledge, and its frame's fields add up by their places. -/
theorem snifferRecord : Obligations.SnifferRecord := by
  refine ⟨rfl, rfl, fun s pin i n hp hat hscl hact hpos => ?_⟩
  obtain ⟨t, hexec, hstep⟩ := hat.step hp (rowOf_snfSclRise pin) (Eq.trans_ne hscl nofun)
    ((snifferSclRise_active (n := n.store .scl true) hact _).trans (Sniffer.clock_ack (n := n.store .scl true) hpos _))
  refine ⟨t, _, hexec, ?_, hstep⟩
  rw [frameOf_toNat, ackedOf_toNat]
  rfl

/-! ### Clocks that are ignored -/

/-- Settles O28: the handler of a fall does nothing, nor does that of a rise outside a transaction. -/
theorem snifferIgnoresClock : Obligations.SnifferIgnoresClock := by
  intro s pin i n hp hat
  refine ⟨fun hscl => ?_, fun hscl hproto => ?_⟩
  · exact hat.step hp (rowOf_snfSclFall pin) (Eq.trans_ne hscl nofun) rfl
  · exact hat.step hp (rowOf_snfSclRise pin) (Eq.trans_ne hscl nofun)
      (snifferSclRise_inactive (n := n.store .scl true) hproto _)

end Sys2Proof.Machine
end

section
/-! SUPPORT. The checks of a configuration one by one, in their order (45_dispatch.md R261; 60_exceptions.md R282), and
the proof of the statement on them. -/

namespace Sys2Proof.Machine

/-! ### What each check finds -/

/-- The pin that the search finds is named twice: before the search and in it, or twice in it. -/
theorem repeatedPin_count {seen l : List Pin} {p : Pin} (h : repeatedPin seen l = some p) :
    2 ≤ (seen ++ l).count p := by
  induction l generalizing seen with
  | nil => cases h
  | cons q r ih =>
    simp only [repeatedPin] at h
    split at h
    · next hq =>
      cases h
      have hseen := List.count_pos_iff.2 hq
      rw [List.count_append, List.count_cons_self]
      omega
    · have hr := ih h
      rwa [List.cons_append, ← List.perm_middle.count_eq] at hr

/-- The search from the start finds no pin exactly where none repeats. -/
theorem repeatedPin_nil_eq_none {l : List Pin} : repeatedPin [] l = none ↔ l.Nodup := by
  simp [repeatedPin_eq_none]

/-- The search finds a pin where one repeats. -/
theorem exists_repeatedPin {l : List Pin} (h : ¬ l.Nodup) : ∃ p, repeatedPin [] l = some p :=
  Option.ne_none_iff_exists'.1 (mt repeatedPin_nil_eq_none.1 h)

/-- A descriptor with a bad address is a slave's, with that address (45_dispatch.md R261). -/
theorem badAddress_eq_some {d : EngineDesc} {addr : Nat} :
    d.badAddress = some addr ↔ ∃ a b script, d = .slave a b addr script ∧ 127 < addr := by
  cases d with
  | sniffer a b => simp [EngineDesc.badAddress]
  | slave a b n script =>
    simp only [EngineDesc.badAddress, Option.ite_none_right_eq_some, Option.some.injEq, EngineDesc.slave.injEq]
    constructor
    · rintro ⟨hn, rfl⟩
      exact ⟨a, b, script, ⟨rfl, rfl, rfl, rfl⟩, hn⟩
    · rintro ⟨a', b', script', ⟨-, -, rfl, -⟩, hn⟩
      exact ⟨hn, rfl⟩

/-- No descriptor has a bad address exactly where every slave's fits seven bits. -/
theorem findSome_badAddress_eq_none {ds : List EngineDesc} :
    ds.findSome? EngineDesc.badAddress = none ↔
      ∀ a b addr script, EngineDesc.slave a b addr script ∈ ds → addr ≤ 127 := by
  rw [List.findSome?_eq_none_iff]
  constructor
  · intro h a b addr script hmem
    exact Nat.not_lt.1 fun hlt =>
      nomatch (h _ hmem).symm.trans (badAddress_eq_some.2 ⟨a, b, script, rfl, hlt⟩)
  · intro h d hd
    refine Option.eq_none_iff_forall_ne_some.2 fun addr hbad => ?_
    obtain ⟨a, b, script, rfl, hlt⟩ := badAddress_eq_some.1 hbad
    exact Nat.not_lt.2 (h a b addr script hd) hlt

/-- The bad address that is found is a slave's. -/
theorem findSome_badAddress_eq_some {ds : List EngineDesc} {addr : Nat}
    (h : ds.findSome? EngineDesc.badAddress = some addr) :
    ∃ a b script, EngineDesc.slave a b addr script ∈ ds ∧ 127 < addr := by
  obtain ⟨d, hd, hbad⟩ := List.exists_of_findSome?_eq_some h
  obtain ⟨a, b, script, rfl, hlt⟩ := badAddress_eq_some.1 hbad
  exact ⟨a, b, script, hd, hlt⟩

/-! ### The first check that fails -/

/-- The fault that a configuration leaves is that of the first check that fails (45_dispatch.md R261). -/
theorem configure_fault (c : Configuration) (s : State) : (configure c s).fault = c.check s.params := by
  cases h : c.check s.params with
  | none => rw [configure_accepted h]; rfl
  | some f => rw [configure_refused h, raise_fault]

/-- The first check is of the registry's capacity. -/
theorem check_registryFull {p : Params} {c : Configuration} (h : p.regCap < c.engines.length) :
    c.check p = some ⟨.registryFull, c.engines.length⟩ := if_pos h

section
variable {p : Params} {c : Configuration} (hlen : c.engines.length ≤ p.regCap)
include hlen

/-- The second check is of the pins. -/
theorem check_pinConflict {pin : Pin} (h : repeatedPin [] c.pins = some pin) :
    c.check p = some ⟨.pinConflict, pin.toNat⟩ := by
  simp only [Configuration.check, Nat.not_lt.2 hlen, if_false, h]

/-- The third check is of the addresses. -/
theorem check_badAddress {addr : Nat} (hpins : c.pins.Nodup)
    (h : c.engines.findSome? EngineDesc.badAddress = some addr) : c.check p = some ⟨.badAddress, addr⟩ := by
  simp only [Configuration.check, Nat.not_lt.2 hlen, if_false, repeatedPin_nil_eq_none.2 hpins, h]

/-- The last check is of the master's frequency. -/
theorem check_frequency (hpins : c.pins.Nodup) (h : c.engines.findSome? EngineDesc.badAddress = none) :
    c.check p = if c.master.map MasterDesc.freqHz = some 0 then some ⟨.badFrequency, 0⟩ else none := by
  simp only [Configuration.check, Nat.not_lt.2 hlen, if_false, repeatedPin_nil_eq_none.2 hpins, h]

end

/-- Settles O10: the fault is the first failing check's, and a block with a fault runs nothing. -/
theorem configurationChecksInOrder : Obligations.ConfigurationChecksInOrder := by
  rintro c s f rfl
  rw [configure_fault]
  refine ⟨check_registryFull, fun hlen => ⟨fun hpins => ?pins, fun hpins => ⟨?address, fun haddr => ?frequency⟩⟩,
    fun hne i t => ?stopped⟩
  case pins =>
    obtain ⟨p, hp⟩ := exists_repeatedPin hpins
    exact ⟨p, repeatedPin_count (seen := []) hp, check_pinConflict hlen hp⟩
  case address =>
    rintro ⟨a, b, n, script, hmem, hn⟩
    cases hfind : c.engines.findSome? EngineDesc.badAddress with
    | none => exact absurd (findSome_badAddress_eq_none.1 hfind a b n script hmem) (Nat.not_le.2 hn)
    | some addr =>
      obtain ⟨a', b', script', hd, hlt⟩ := findSome_badAddress_eq_some hfind
      exact ⟨a', b', addr, script', hd, hlt, check_badAddress hlen hpins hfind⟩
  case frequency =>
    rw [check_frequency hlen hpins (findSome_badAddress_eq_none.2 haddr)]
    refine ⟨fun ⟨d, hd, hzero⟩ => if_pos (by rw [hd, Option.map_some, hzero]), fun hfreq => if_neg fun hzero => ?_⟩
    obtain ⟨d, hd, hzero⟩ := Option.map_eq_some_iff.1 hzero
    exact hfreq d hd hzero
  case stopped =>
    obtain ⟨g, hg⟩ := Option.ne_none_iff_exists'.1 hne
    exact (faultIsSticky.2 _ g ((configure_fault c s).trans hg)).1 i t

end Sys2Proof.Machine
end

section
/-! SUPPORT. An event step is the step of the engine that owns the pin, and of no other (41_line_and_edge.md R136;
45_dispatch.md R264 to R266), and the proof of the statement on it. -/

namespace Sys2Proof.Machine

/-! ### The selected engine -/

/-- An event of an owned pin selects its owner where it makes an edge (41_line_and_edge.md R136). -/
theorem selected_owned {s : State} {pin : Pin} {level : Level} {i : Nat} {e : Engine} {l : Line}
    (ho : s.owner pin = some (i, l)) (he : s.registry[i]? = some e) (hk : s.ownerStuck pin = false) :
    s.selected pin level = if e.lvl l = level then none else some (i, e, l) := by
  have hstuck : e.isStuck = false := by simpa [State.ownerStuck, ho, he] using hk
  simp [State.selected, ho, he, hstuck]

/-! ### Stored levels -/

@[simp] theorem slave_lvl_store (l : Line) (level : Level) (v : Slave) : (v.store l level).lvl l = level := by
  cases l <;> rfl

@[simp] theorem sniffer_lvl_store (l : Line) (level : Level) (n : Sniffer) : (n.store l level).lvl l = level := by
  cases l <;> rfl

/-- Slaves that agree in the fields no handler changes store the same levels. -/
theorem Slave.lvl_of_fixed {v w : Slave} (h : v.fixed = w.fixed) (l : Line) : v.lvl l = w.lvl l := by
  simp only [Slave.fixed, Prod.mk.injEq] at h
  obtain ⟨-, hsda, hscl, -⟩ := h
  cases l
  · exact hsda
  · exact hscl

theorem slaveHandler_lvl (k : Line) (e : Edge) (v : Slave) (l : Line) : (slaveHandler k e v).1.lvl l = v.lvl l :=
  Slave.lvl_of_fixed (slaveHandler_fixed k e v) l

theorem slave_lvl_withScript (v : Slave) (r : List CbReply) (b : Bool) (l : Line) :
    Slave.lvl { v with script := r, stuck := b } l = v.lvl l := by
  cases l <;> rfl

theorem afterCallback_lvl (k : CbKind) (b : Byte) (v : Slave) (l : Line) : (afterCallback k b v).lvl l = v.lvl l :=
  Slave.lvl_of_fixed (afterCallback_fixed k b v) l

theorem snifferHandler_lvl (k : Line) (e : Edge) (tag : Byte) (n : Sniffer) (l : Line) :
    (snifferHandler k e tag n).1.lvl l = n.lvl l := by
  obtain ⟨-, hsda, hscl⟩ := snifferHandler_fixed k e tag n
  cases l
  · exact hsda
  · exact hscl

/-! ### The step of the one engine -/

/-- Engine `i` becomes `e`, with at most one callback, its own, and at most one frame; the records have no other new
entry (45_dispatch.md R266). -/
structure OnlyEngine (s t : State) (i : Nat) (e : Engine) : Prop where
  registry  : t.registry = s.registry.set i e
  callbacks : ∃ cs, t.callbacks = s.callbacks ++ cs ∧ cs.length ≤ 1 ∧ ∀ c ∈ cs, c.inst = i
  frames    : ∃ fs, t.frames = s.frames ++ fs ∧ fs.length ≤ 1

/-- The propagation of a change of the engine's output touches no engine and no record. -/
theorem OnlyEngine.propagate {s t : State} {i : Nat} {e : Engine} (h : OnlyEngine s t i e) (r : State) :
    OnlyEngine s (propagate r t) i e :=
  ⟨by simpa using h.registry, by simpa using h.callbacks, by simpa using h.frames⟩

/-- Every end of an invocation records that invocation and leaves the stored levels alone (43_slave.md R210 to R213). -/
theorem invoke_onlyEngine (i : Nat) (v : Slave) (c : Call) (s : State) (l : Line) :
    ∃ v', OnlyEngine s (invoke i v c s) i (.slave v') ∧ v'.lvl l = v.lvl l := by
  have hcalls : ∃ cs, s.callbacks ++ [⟨i, c.kind, c.byte, c.index⟩] = s.callbacks ++ cs ∧ cs.length ≤ 1 ∧
      ∀ r ∈ cs, r.inst = i := ⟨_, rfl, le_rfl, by simp⟩
  have hframes : ∃ fs, s.frames = s.frames ++ fs ∧ fs.length ≤ 1 := ⟨[], by simp⟩
  simp only [invoke]
  split
  · exact ⟨_, ⟨rfl, hcalls, hframes⟩, afterCallback_lvl _ _ _ l⟩
  · next r _ =>
    exact ⟨_, ⟨rfl, hcalls, hframes⟩, (afterCallback_lvl _ _ _ l).trans (slave_lvl_withScript v r v.stuck l)⟩
  · next r _ => exact ⟨_, ⟨rfl, hcalls, hframes⟩, slave_lvl_withScript v r v.stuck l⟩
  · next r _ => exact ⟨_, ⟨rfl, hcalls, hframes⟩, slave_lvl_withScript v r true l⟩

/-- A slave's step is the slave's alone, and leaves its stored levels alone. -/
theorem runSlave_onlyEngine (k : Line) (e : Edge) (i : Nat) (v : Slave) (s : State) (l : Line) :
    ∃ v', OnlyEngine s (runSlave (slaveHandler k e) i v s) i (.slave v') ∧ v'.lvl l = v.lvl l := by
  have hlvl := slaveHandler_lvl k e v l
  simp only [runSlave]
  split
  · next v' hh =>
    rw [hh] at hlvl
    exact ⟨v', OnlyEngine.propagate ⟨rfl, ⟨[], by simp⟩, ⟨[], by simp⟩⟩ s, hlvl⟩
  · next v' c hh =>
    rw [hh] at hlvl
    obtain ⟨v'', hstep, hlvl'⟩ := invoke_onlyEngine i v' c s.enterHandler l
    exact ⟨v'', OnlyEngine.propagate (s := s) ⟨hstep.registry, hstep.callbacks, hstep.frames⟩ s, hlvl'.trans hlvl⟩

/-- An event that selects an engine is that engine's step, which stores the level (41_line_and_edge.md R136). -/
theorem event_onlyEngine {s : State} {pin : Pin} {level : Level} {i : Nat} {e : Engine} {l : Line}
    (h : s.selected pin level = some (i, e, l)) :
    ∃ e', OnlyEngine s (event pin level s) i e' ∧ e'.lvl l = level := by
  cases e with
  | slave v =>
    obtain ⟨v', hstep, hlvl⟩ := runSlave_onlyEngine l (edgeOf level) i (v.store l level) s l
    refine ⟨.slave v', ?_, hlvl.trans (slave_lvl_store l level v)⟩
    simp only [event, h]
    exact hstep
  | sniffer n =>
    have hlvl := snifferHandler_lvl l (edgeOf level) s.params.sniffTag (n.store l level) l
    refine ⟨.sniffer (snifferHandler l (edgeOf level) s.params.sniffTag (n.store l level)).1, ?_,
      hlvl.trans (sniffer_lvl_store l level n)⟩
    simp only [event, h]
    exact ⟨rfl, ⟨[], by simp [runSniffer]⟩, ⟨_, rfl, Option.length_toList_le⟩⟩

/-- Settles O30: an event of an owned pin is nothing or the step of its owner alone. -/
theorem eventChangesOneInstance : Obligations.EventChangesOneInstance := by
  intro s pin level hp hk
  have hframe := event_frame pin level s
  refine ⟨_, exec_evLine hp hk, fun ho => event_unselected (selected_unowned ho level), hframe.m, hframe.params,
    hframe.wiring, hframe.snap, hframe.env, fun i l ho => ?_⟩
  obtain ⟨e, he, -⟩ := owner_spec ho
  have hsel := selected_owned (level := level) ho he hk
  by_cases hl : e.lvl l = level
  · have hsame : event pin level s = s := event_unselected (hsel.trans (if_pos hl))
    rw [hsame]
    exact ⟨fun _ _ => rfl, ⟨e, he, hl⟩, fun _ _ _ => rfl, ⟨[], by simp⟩, ⟨[], by simp⟩⟩
  · obtain ⟨e', hstep, hlvl⟩ := event_onlyEngine (hsel.trans (if_neg hl))
    refine ⟨fun j hj => ?_, ⟨e', ?_, hlvl⟩, fun d hd hsame => ?_, hstep.callbacks, hstep.frames⟩
    · rw [hstep.registry, List.getElem?_set_ne hj.symm]
    · rw [hstep.registry, List.getElem?_set_self (List.getElem?_eq_some_iff.1 he).1]
    · cases he.symm.trans hd
      exact absurd hsame hl

end Sys2Proof.Machine
end

section
/-! SUPPORT. The commands Q.SNAP and Q.STATUS (45_dispatch.md R268, R269), and the proof of the statement on them. -/

namespace Sys2Proof.Machine

/-- Q.SNAP of an instance that does not exist raises F9 with the index (45_dispatch.md R268). -/
theorem exec_qSnap_missing {s : State} {k : Nat} (hlive : s.live = true) (h : s.registry[k]? = none) :
    exec (.qSnap k) s = .next (s.raise .badInstance k) := by
  simp only [exec, execQSnap, runCommand_live hlive, h, finish_raise]

/-- Q.SNAP of an instance writes its snapshot, and nothing else but the settle flags (45_dispatch.md R268). -/
theorem exec_qSnap_present {s : State} {k : Nat} {e : Engine} (hlive : s.live = true) (h : s.registry[k]? = some e) :
    exec (.qSnap k) s = .next { s with m := s.m.settleAfter none, snap := some e.snapshot } := by
  simp only [exec, execQSnap, runCommand_live hlive, h]
  exact congrArg _ (finish_of_live (s := { s with snap := some e.snapshot }) hlive none)

/-- Q.STATUS writes the status byte, and nothing else but the settle flags (45_dispatch.md R269). -/
theorem exec_qStatus {s : State} (hlive : s.live = true) :
    exec .qStatus s = .next { s with m := { s.m.settleAfter none with result := statusByte s.m } } := by
  rw [exec, execQStatus, runCommand_live hlive]
  exact congrArg _ (finish_upd hlive _ none)

/-- The status byte as a number: each field at its place, bit 3 zero (45_dispatch.md R269). -/
theorem statusByte_toNat (m : Master) :
    (statusByte m).toNat = m.phase.enc4.toNat * 16 + (if m.lastAck then 4 else 0) + m.status.enc2.toNat := by
  have hack : m.lastAck.toNat * 4 = if m.lastAck then 4 else 0 := by cases m.lastAck <;> rfl
  simp only [statusByte, toNat_append_add, BitVec.toNat_ofBool, BitVec.toNat_zero]
  omega

/-- Settles O52: a snapshot is one field of the block, a status byte one register of the master. -/
theorem queries : Obligations.Queries := by
  refine ⟨fun k hk => hasWord_of_encode (decide_eq_true hk) rfl (append_ofNat 0x40 hk), hasWord_of_encode rfl rfl rfl,
    mustBeZero_of_mem (by decide), refusedInHandler_of_runCommand fun _ => rfl,
    fun k => refusedInHandler_of_runCommand fun _ => rfl, rfl, rfl, ?_⟩
  rintro s m hlive rfl
  refine ⟨fun k hk => ?_, fun k v hv => ?_, fun k n hn => ?_, fun _ => ⟨statusByte s.m, statusByte_toNat s.m, ?_⟩⟩
  · exact exec_qSnap_missing hlive (List.getElem?_eq_none hk)
  · exact exec_qSnap_present hlive hv
  · exact exec_qSnap_present hlive hn
  · exact exec_qStatus hlive

end Sys2Proof.Machine
end

section
/-! SUPPORT. Commands in interrupt context, and a slave's event step up to a callback that issues one (60_exceptions.md
R286, R291; entry 10), and the proof of the statement on them. -/

namespace Sys2Proof.Machine

/-- In interrupt context M.READ_BYTES answers as every command does, whatever its length: the foreground does not run,
so the length is not looked at (60_exceptions.md R291; entry 19). -/
theorem refusedInHandler_mReadBytes (a : Addr) : RefusedInHandler (.mReadBytes a) := by
  intro s hfault hsettled hctx
  have hlive : s.live = false := by simp [State.live, hctx]
  have hexec : exec (.mReadBytes a) s = runCommand (.mReadBytes a) none (readBytes a) s := if_neg (by simp [hlive])
  rw [hexec, runCommand_interrupt hfault hsettled hctx]

/-- Every command is refused in interrupt context (60_exceptions.md R286). -/
theorem refusedInHandler_of_isCommand {i : Instr} (hc : i.isCommand = true) : RefusedInHandler i := by
  cases i with
  | mReadBytes a => exact refusedInHandler_mReadBytes a
  | evLine | slvSdaFall | slvSdaRise | slvSclRise | slvSclFall | snfSdaFall | snfSdaRise | snfSclRise | snfSclFall =>
    simp [Instr.isCommand, Instr.opcode] at hc
  | _ => exact refusedInHandler_of_runCommand fun _ => rfl

/-- A callback that issues a command stops its handler: the invocation is recorded, the slave stays as the handler left
it, and F5 with the word is raised, whatever the word (60_exceptions.md R286, R291; entry 10). -/
theorem invoke_issues {v : Slave} {w : PortWord} {r : List CbReply} (h : v.script = .issues w :: r) (i : Nat) (c : Call)
    (s : State) : invoke i v c s =
      ((s.recordCall i c).putEngine i (.slave { v with script := r })).raise .interruptContext w.toNat := by
  simp only [invoke, h]

/-- A handler leaves the script of its slave alone: only an invocation uses it (43_slave.md R211). -/
theorem slaveHandler_script (l : Line) (e : Edge) (v : Slave) : (slaveHandler l e v).1.script = v.script := by
  have hfixed := slaveHandler_fixed l e v
  simp only [Slave.fixed, Prod.mk.injEq] at hfixed
  obtain ⟨-, -, -, hscript, -⟩ := hfixed
  exact hscript

/-- The event step of a slave whose callback issues a command: the handler, the invocation and the fault, then the
propagation of a change of its output (60_exceptions.md R286; 41_line_and_edge.md R131). -/
theorem SlaveAt.exec_issues {s : State} {pin : Pin} {l : Line} {i : Nat} {v v' : Slave} {level : Level} {row : Instr}
    {c : Call} {w : PortWord} {r : List CbReply} (hat : SlaveAt s pin l i v) (hp : Processing s)
    (hrow : RowOf row pin level) (hl : v.lvl l ≠ level) (hr : v.script = .issues w :: r)
    (hh : slaveHandler l (edgeOf level) (v.store l level) = (v', some c)) :
    exec row s = .next (propagate s (((s.enterHandler.recordCall i c).putEngine i
      (.slave { v' with script := r })).raise .interruptContext w.toNat)) := by
  have hkept := slaveHandler_script l (edgeOf level) (v.store l level)
  rw [hh, slave_store_script, hr] at hkept
  rw [hat.exec_row hp hrow hl]
  simp only [runSlave, hh, invoke_issues hkept]

/-- Settles O14: no command gets past its context check, and the step of a slave whose callback issues one differs from
the state before it in that slave, the record of the call, the fault and the context, and in what it queues. -/
theorem interruptContextRefusesCommands : Obligations.InterruptContextRefusesCommands := by
  refine ⟨fun i hc => refusedInHandler_of_isCommand hc, fun s pin l i v v' level c w r hp hat hl hr hh => ?_⟩
  refine ⟨_, hat.exec_issues (row := .evLine pin level) hp ⟨rfl, rfl⟩ hl hr hh, ?_, ?_, ?_, ?_, ?_, ?_, ?_, ?_, ?_,
    propagate_queues rfl rfl rfl⟩
  all_goals simp

end Sys2Proof.Machine
end
